-- ==== Sys2Proof/Word.lean ====
section
/-! DEFINITION. The word and element types of the topzip Huffman codec core (spec/00_scope.md R9, R10, R12, R13).
All quantities are unsigned; a sequence is a `List`, element 0 first (R14). -/

namespace Sys2Proof

/-- A command word, 32 bits (R85). -/
abbrev Word := BitVec 32
/-- A byte, `u8` (R12); a symbol is "one byte value, 0–255" (R9). -/
abbrev Byte := BitVec 8
/-- A bit, `u1` (R12): `false` is the digit 0, `true` the digit 1 (log entry 6). -/
abbrev Bit := Bool
/-- A frequency count, `u16` (R9). -/
abbrev Count := BitVec 16
/-- A node weight, `u24` (R10, R29). -/
abbrev Weight := BitVec 24
/-- A node index, `u9` (R10, R29). -/
abbrev NodeIdx := BitVec 9
/-- A code: the bits from the root to a leaf, the bit nearest the root first (R30). -/
abbrev Code := List Bit

end Sys2Proof
end

