-- ==== Sys2Proof/Syntax.lean ====
section
/-! DEFINITION. The nineteen commands (spec/30_encoding.md R88), each with the operand fields its format carries (R86),
every field at its own width (R87); and the assembler's source commands (R92, R93), whose operands are numbers as a
programmer writes them, before the range check of `WellFormed`. -/

namespace Sys2Proof

/-- A command: one constructor per row of spec/opcode_table.json. -/
inductive Instr where
  | nop
  | reset
  | inPush (imm8 : Byte)
  | ftPush (sym : Byte) (cnt : Count)
  | bitPush (bit : Bit)
  | payPush (imm8 : Byte)
  | remSet (rem3 : BitVec 3)
  | count
  | build
  | walk
  | xlate
  | pack
  | hdrEnc
  | blob
  | hdrDec
  | unpack
  | twalk
  | encode
  | decode
deriving DecidableEq, Repr

/-- A command as assembler source writes it (R92): operands are natural numbers, in R92's operand order. The last four
constructors are the pseudo-instructions (R93); a character or a digit of their strings is its character code. -/
inductive Source where
  | nop
  | reset
  | inPush (imm8 : Nat)
  | ftPush (sym cnt : Nat)
  | bitPush (bit : Nat)
  | payPush (imm8 : Nat)
  | remSet (rem3 : Nat)
  | count
  | build
  | walk
  | xlate
  | pack
  | hdrEnc
  | blob
  | hdrDec
  | unpack
  | twalk
  | encode
  | decode
  | inBytes (bytes : List Nat)
  | inStr (text : List Nat)
  | payBytes (bytes : List Nat)
  | bitsStr (digits : List Nat)
deriving DecidableEq, Repr

end Sys2Proof
end

