-- ==== Sys2Proof/Decode.lean ====
section
/-! DEFINITION. The command word: fields, decoder and encoder (spec/30_encoding.md Part A, R85 to R91), the opcode map of
R88 as data, and the little-endian byte form a stored word has (spec/20_memory.md R62). -/

namespace Sys2Proof

/-- Why a word is `Illegal` (R90): the opcode is not one of the nineteen (a), or a bit its format marks "zero" is one (b). -/
inductive IllegalReason where
  | undefinedOpcode
  | nonzeroReserved
deriving DecidableEq, Repr

/-- What the decoder answers (R89): a command with its operands, or the verdict `Illegal`. -/
inductive Verdict where
  | cmd (i : Instr)
  | illegal (why : IllegalReason)
deriving DecidableEq, Repr

/-- The opcode, bits 31 to 24 (R85). -/
def opcodeOf (w : Word) : BitVec 8 := w.extractLsb' 24 8

/-- Format Z: bits 23 to 0 are zero (R86). -/
def formatZ (w : Word) (i : Instr) : Verdict :=
  if w.extractLsb' 0 24 = 0#24 then .cmd i else .illegal .nonzeroReserved

/-- Format B: `imm8` in bits 7 to 0, bits 23 to 8 zero (R86). -/
def formatB (w : Word) (f : Byte → Instr) : Verdict :=
  if w.extractLsb' 8 16 = 0#16 then .cmd (f (w.extractLsb' 0 8)) else .illegal .nonzeroReserved

/-- Format F: `sym` in bits 23 to 16, `cnt` in bits 15 to 0 (R86). -/
def formatF (w : Word) (f : Byte → Count → Instr) : Verdict :=
  .cmd (f (w.extractLsb' 16 8) (w.extractLsb' 0 16))

/-- Format T: `bit` in bit 0, bits 23 to 1 zero (R86). -/
def formatT (w : Word) (f : Bit → Instr) : Verdict :=
  if w.extractLsb' 1 23 = 0#23 then .cmd (f (w.getLsbD 0)) else .illegal .nonzeroReserved

/-- Format R: `rem3` in bits 2 to 0, bits 23 to 3 zero (R86). -/
def formatR (w : Word) (f : BitVec 3 → Instr) : Verdict :=
  if w.extractLsb' 3 21 = 0#21 then .cmd (f (w.extractLsb' 0 3)) else .illegal .nonzeroReserved

/-- The decoder, total on 32-bit words (R88, R89, R90); it depends on the word alone. -/
def decode (w : Word) : Verdict :=
  match (opcodeOf w).toNat with
  | 0x00 => formatZ w .nop
  | 0x01 => formatZ w .reset
  | 0x10 => formatB w .inPush
  | 0x11 => formatF w .ftPush
  | 0x12 => formatT w .bitPush
  | 0x13 => formatB w .payPush
  | 0x14 => formatR w .remSet
  | 0x20 => formatZ w .count
  | 0x21 => formatZ w .build
  | 0x22 => formatZ w .walk
  | 0x23 => formatZ w .xlate
  | 0x24 => formatZ w .pack
  | 0x25 => formatZ w .hdrEnc
  | 0x26 => formatZ w .blob
  | 0x27 => formatZ w .hdrDec
  | 0x28 => formatZ w .unpack
  | 0x29 => formatZ w .twalk
  | 0x30 => formatZ w .encode
  | 0x31 => formatZ w .decode
  | _ => .illegal .undefinedOpcode

/-- The encoder: the word of a command, as the **Encoding** entry of each command's rule gives it (R118 to R124, R131,
R141, R161, R172, R175, R186, R189, R196, R198, R200, R211, R215). -/
def encode : Instr → Word
  | .nop => 0x00000000#32
  | .reset => 0x01000000#32
  | .inPush imm8 => 0x10000000#32 ||| imm8.setWidth 32
  | .ftPush sym cnt => 0x11000000#32 ||| (sym.setWidth 32 <<< 16) ||| cnt.setWidth 32
  | .bitPush bit => 0x12000000#32 ||| (BitVec.ofBool bit).setWidth 32
  | .payPush imm8 => 0x13000000#32 ||| imm8.setWidth 32
  | .remSet rem3 => 0x14000000#32 ||| rem3.setWidth 32
  | .count => 0x20000000#32
  | .build => 0x21000000#32
  | .walk => 0x22000000#32
  | .xlate => 0x23000000#32
  | .pack => 0x24000000#32
  | .hdrEnc => 0x25000000#32
  | .blob => 0x26000000#32
  | .hdrDec => 0x27000000#32
  | .unpack => 0x28000000#32
  | .twalk => 0x29000000#32
  | .encode => 0x30000000#32
  | .decode => 0x31000000#32

/-- The opcode of a command, the first column of R88. -/
def opcode : Instr → BitVec 8
  | .nop => 0x00#8
  | .reset => 0x01#8
  | .inPush _ => 0x10#8
  | .ftPush _ _ => 0x11#8
  | .bitPush _ => 0x12#8
  | .payPush _ => 0x13#8
  | .remSet _ => 0x14#8
  | .count => 0x20#8
  | .build => 0x21#8
  | .walk => 0x22#8
  | .xlate => 0x23#8
  | .pack => 0x24#8
  | .hdrEnc => 0x25#8
  | .blob => 0x26#8
  | .hdrDec => 0x27#8
  | .unpack => 0x28#8
  | .twalk => 0x29#8
  | .encode => 0x30#8
  | .decode => 0x31#8

/-- One row of R88: opcode, mnemonic, match and mask. -/
structure OpcodeRow where
  op : BitVec 8
  mnemonic : String
  pattern : Word
  mask : Word
deriving DecidableEq, Repr

/-- A word spells a row's command exactly when `w & mask = match` (R88). -/
def OpcodeRow.spells (r : OpcodeRow) (w : Word) : Bool := (w &&& r.mask) == r.pattern

/-- The opcode map, R88's table as it is printed. The decoder above is written from the formats of R86; that the two agree
is an obligation. -/
def opcodeMap : List OpcodeRow :=
  [ ⟨0x00#8, "NOP", 0x00000000#32, 0xFFFFFFFF#32⟩,
    ⟨0x01#8, "RESET", 0x01000000#32, 0xFFFFFFFF#32⟩,
    ⟨0x10#8, "IN_PUSH", 0x10000000#32, 0xFFFFFF00#32⟩,
    ⟨0x11#8, "FT_PUSH", 0x11000000#32, 0xFF000000#32⟩,
    ⟨0x12#8, "BIT_PUSH", 0x12000000#32, 0xFFFFFFFE#32⟩,
    ⟨0x13#8, "PAY_PUSH", 0x13000000#32, 0xFFFFFF00#32⟩,
    ⟨0x14#8, "REM_SET", 0x14000000#32, 0xFFFFFFF8#32⟩,
    ⟨0x20#8, "COUNT", 0x20000000#32, 0xFFFFFFFF#32⟩,
    ⟨0x21#8, "BUILD", 0x21000000#32, 0xFFFFFFFF#32⟩,
    ⟨0x22#8, "WALK", 0x22000000#32, 0xFFFFFFFF#32⟩,
    ⟨0x23#8, "XLATE", 0x23000000#32, 0xFFFFFFFF#32⟩,
    ⟨0x24#8, "PACK", 0x24000000#32, 0xFFFFFFFF#32⟩,
    ⟨0x25#8, "HDR_ENC", 0x25000000#32, 0xFFFFFFFF#32⟩,
    ⟨0x26#8, "BLOB", 0x26000000#32, 0xFFFFFFFF#32⟩,
    ⟨0x27#8, "HDR_DEC", 0x27000000#32, 0xFFFFFFFF#32⟩,
    ⟨0x28#8, "UNPACK", 0x28000000#32, 0xFFFFFFFF#32⟩,
    ⟨0x29#8, "TWALK", 0x29000000#32, 0xFFFFFFFF#32⟩,
    ⟨0x30#8, "ENCODE", 0x30000000#32, 0xFFFFFFFF#32⟩,
    ⟨0x31#8, "DECODE", 0x31000000#32, 0xFFFFFFFF#32⟩ ]

/-- A stored command word as bytes, bits 7 to 0 first (R62). -/
def wordBytes (w : Word) : List Byte :=
  [w.extractLsb' 0 8, w.extractLsb' 8 8, w.extractLsb' 16 8, w.extractLsb' 24 8]

/-- A command word from its four stored bytes, the first the least significant (R62). -/
def wordOfBytes (b0 b1 b2 b3 : Byte) : Word :=
  b0.setWidth 32 ||| (b1.setWidth 32 <<< 8) ||| (b2.setWidth 32 <<< 16) ||| (b3.setWidth 32 <<< 24)

/-- What decoding a stored listing of words answers: the verdict on the first word with the rest of the bytes, or, by name,
that fewer than the four bytes every command has are left (R91). -/
inductive ListingVerdict where
  | word (v : Verdict) (rest : List Byte)
  | truncatedWord
deriving DecidableEq, Repr

/-- The first command of a stored listing, total on any bytes (R62, R89, R91). -/
def decodeBytes : List Byte → ListingVerdict
  | b0 :: b1 :: b2 :: b3 :: rest => .word (decode (wordOfBytes b0 b1 b2 b3)) rest
  | _ => .truncatedWord

/-- The command a verdict names, if it names one. -/
def Verdict.instr? : Verdict → Option Instr
  | .cmd i => some i
  | .illegal _ => none

/-- The command the decoder reads from an opcode-table word of `nbits` bits; every command is one 32-bit word (R91), so the
bits above `nbits` are zero. -/
def decodeTableWord (nbits w : Nat) : Option Instr :=
  (decode (BitVec.ofNat 32 (w % 2 ^ nbits))).instr?

end Sys2Proof
end

