-- ==== Sys2Proof/Config.lean ====
section
/-! DEFINITION. What the source fixes for every implementation (spec/00_scope.md R9), and the four parameters it leaves
open (R11, spec/93_implementation_defined.md U12). The parameters are arguments of the model: a record that `State` carries
unchanged (log entry 2), so that a statement about every state is a statement about every choice of them. -/

namespace Sys2Proof

/-- `CNT_MAX`, the largest count the 16-bit field holds (R9). -/
def Config.cntMax : Nat := 65535

/-- `N_MAX`, the largest number of distinct symbols (R9). -/
def Config.nMax : Nat := 255

/-- A capacity: a natural number, or `none` for `unbounded` (R11). -/
abbrev Cap := Option Nat

/-- The capacities of the four unbounded buffers (R11). -/
structure Caps where
  inCap : Cap
  bitsCap : Cap
  payCap : Cap
  outCap : Cap
deriving DecidableEq, Repr

/-- The default of R11: no buffer is bounded. -/
def Caps.unbounded : Caps := ⟨none, none, none, none⟩

end Sys2Proof
end

