-- ==== Sys2Proof/Machine/State.lean ====
section
/-! DEFINITION. The architectural state of the block (spec/10_state.md R20 to R34), its reset value (R39), the seven
exceptions (spec/60_exceptions.md R226), and the ways a meaning can end. -/

namespace Sys2Proof.Machine

/-- A frequency-table entry: an 8-bit symbol and a 16-bit count (R28). -/
structure FreqEntry where
  sym : Byte
  cnt : Count
deriving DecidableEq, Repr

/-- A record of the tree arena; children are indices into the arena (R29). -/
inductive Node where
  | leaf (sym : Byte) (w : Weight)
  | internal (left right : NodeIdx) (w : Weight)
deriving DecidableEq, Repr

/-- The code table: 256 entries indexed by the symbol value, each no code or a code (R30). -/
abbrev CodeTable := Vector (Option Code) 256

/-- The whole architectural state of the block, `S`: "a record of exactly these fields", the twelve elements of R20. It is
what the host observes between two commands (R38). -/
structure BlockState where
  /-- `IN`, the input buffer (R27). -/
  inBuf : List Byte
  /-- `FT`, the frequency table (R28). -/
  ft : List FreqEntry
  /-- `NODE`, the tree arena (R29). -/
  node : List Node
  /-- `ROOT`, 9 bits, the root's index in `NODE` (R29). -/
  root : NodeIdx
  /-- `CT`, the code table (R30). -/
  ct : CodeTable
  /-- `BITS`, the logical bit string (R31). -/
  bits : List Bit
  /-- `PAY`, the payload buffer (R32). -/
  pay : List Byte
  /-- `REM`, 3 bits, the padding-bit count (R22). -/
  rem : BitVec 3
  /-- `HDR`, the header buffer (R33). -/
  hdr : List Byte
  /-- `POFF`, 10 bits, the payload offset (R23). -/
  poff : BitVec 10
  /-- `OUT`, the output buffer (R34). -/
  out : List Byte
  /-- `ERR`, 3 bits, the sticky error code (R25). -/
  err : BitVec 3
deriving DecidableEq, Repr

/-- What one step of the machine is given: the block's state, and beside it the two inputs of a run that are no state of the
block's, the words the host writes (R19) and the capacities (R11). -/
structure State extends BlockState where
  /-- The words the host has still to write, oldest first. The model's own field: the block has no program counter and no
  instruction memory (R24); the host hands it one word at a time (R19). Log entry 1. -/
  host : List Word
  /-- The capacities the model takes as arguments (spec/00_scope.md R11). No step changes them. Log entry 2. -/
  caps : Caps
deriving DecidableEq, Repr

/-- `ResetState` (R39, spec/70_reset_and_hazards.md R260): every sequence empty, every `CT[s]` none, `ROOT = REM = POFF =
ERR = 0`. -/
def BlockState.reset : BlockState where
  inBuf := []
  ft := []
  node := []
  root := 0#9
  ct := Vector.replicate 256 none
  bits := []
  pay := []
  rem := 0#3
  hdr := []
  poff := 0#10
  out := []
  err := 0#3

/-- The machine right after reset: the block in `ResetState`, no word pending (log entry 1), the default capacities (R11,
log entry 2). -/
def State.reset : State := { BlockState.reset with host := [], caps := Caps.unbounded }

/-- The names of the twelve state elements (R20). -/
inductive Elem where
  | inBuf | ft | node | root | ct | bits | pay | rem | hdr | poff | out | err
deriving DecidableEq, Repr

/-- The seven exceptions (R226). `state` is the one the spec calls `State`. -/
inductive Exc where
  | emptyInput | alphabetOverflow | format | truncatedStream | illegalCommand | state | capacity
deriving DecidableEq, Repr

/-- The reasons the machine can stop with a fault. None arises in a state that a run from reset reaches: the step function
is total (R16, spec/40_host_commands.md R115) and there is no stuck case (spec/93_implementation_defined.md). -/
inductive Fault where
  /-- Raised by `WALK` when `NODE` is cyclic below `ROOT`, so that its recursion never ends. Such a state violates R35 (b),
  no run reaches it, and the spec leaves it out (93 V7). Safe: nothing is claimed of it. Log entry 5. -/
  | cyclicArena
deriving DecidableEq, Repr

/-- The reasons the model gives no meaning. -/
inductive Refusal where
  /-- Raised by an arm of `exec` whose command has no meaning yet; no arm of this model is such an arm. Safe. -/
  | notModelled (mnemonic : String)
  /-- Raised by `WALK` and `TWALK` when `ROOT` or a child index they follow is outside a non-empty `NODE`: "an index outside
  the space's current length is never generated by any rule" (spec/00_scope.md R15). Such a state violates R35 (b), no run
  reaches it, and 93 V7 says `refuse`. Safe: nothing is claimed of it. Log entry 5. -/
  | indexOutsideNode
deriving DecidableEq, Repr

/-- Why a command stops without a next state (unreachable states only). -/
inductive Stop where
  | fault (r : Fault)
  | refused (r : Refusal)
deriving DecidableEq, Repr

/-- How the run of one unit ends: it completes, it raises an exception (the state is that after the raise, R231), or it
stops. A composite goes on only from `done` (spec/46_encoder.md R200). -/
inductive Result where
  | done (s : State)
  | raised (s : State)
  | stopped (r : Stop)
deriving DecidableEq, Repr

end Sys2Proof.Machine
end

