-- ==== Sys2Proof/Machine/Flags.lean ====
section
/-! DEFINITION. The one status field, `ERR` (spec/10_state.md R25; the block has no condition codes), and the code each
exception writes there (spec/60_exceptions.md R226). No command writes a flag on success. -/

namespace Sys2Proof.Machine

/-- The code an exception writes to `ERR` (R226). -/
def errCode : Exc → BitVec 3
  | .emptyInput => 1#3
  | .alphabetOverflow => 2#3
  | .format => 3#3
  | .truncatedStream => 4#3
  | .illegalCommand => 5#3
  | .state => 6#3
  | .capacity => 7#3

/-- No exception has been raised since reset: `ERR = 0` (R25). -/
def noError (s : State) : Bool := s.err == 0#3

/-- The padding count of a bit string of length `len`: `(8 - len mod 8) mod 8` (spec/45_bit_packer.md R187). -/
def padCount (len : Nat) : Nat := (8 - len % 8) % 8

end Sys2Proof.Machine
end

