-- ==== Sys2Proof/Machine/Operands.lean ====
section
/-! DEFINITION. The operands of a command. No command selects a register by a field; each names its elements implicitly
(spec/10_state.md R21), in the table of R37. With it: the names for lengths (R40), slices of a sequence (spec/00_scope.md
R14, R15), the byte halves of a count (spec/20_memory.md R60), the bits of a payload byte (R61), and the code table's entries
(spec/10_state.md R30). -/

namespace Sys2Proof.Machine

/-- Derived state: every element except `IN` and `ERR` (spec/00_scope.md R17). -/
def derivedElems : List Elem := [.ft, .node, .root, .ct, .bits, .pay, .rem, .hdr, .poff, .out]

/-- All twelve elements (R20). -/
def allElems : List Elem := [.inBuf, .ft, .node, .root, .ct, .bits, .pay, .rem, .hdr, .poff, .out, .err]

/-- The destination elements of a command, the third column of R37. -/
def dests : Instr → List Elem
  | .nop => []
  | .reset => allElems
  | .inPush _ => [.inBuf]
  | .ftPush _ _ => [.ft]
  | .bitPush _ => [.bits]
  | .payPush _ => [.pay]
  | .remSet _ => [.rem]
  | .count => [.ft]
  | .build => [.node, .root]
  | .walk => [.ct]
  | .xlate => [.bits]
  | .pack => [.pay, .rem]
  | .hdrEnc => [.hdr]
  | .blob => [.out]
  | .hdrDec => [.ft, .rem, .poff, .pay]
  | .unpack => [.bits]
  | .twalk => [.out]
  | .encode => derivedElems
  | .decode => derivedElems

/-- `IN_LEN` (R40). -/
def State.inLen (s : State) : Nat := s.inBuf.length
/-- `FT_N` (R40). -/
def State.ftN (s : State) : Nat := s.ft.length
/-- `NODE_N` (R40). -/
def State.nodeN (s : State) : Nat := s.node.length
/-- `BITS_LEN` (R40). -/
def State.bitsLen (s : State) : Nat := s.bits.length
/-- `PAY_LEN` (R40). -/
def State.payLen (s : State) : Nat := s.pay.length
/-- `HDR_LEN` (R40). -/
def State.hdrLen (s : State) : Nat := s.hdr.length
/-- `OUT_LEN` (R40). -/
def State.outLen (s : State) : Nat := s.out.length

/-- `s[a:]`, the elements from index `a` on (R14). -/
def sliceFrom {α : Type} (s : List α) (a : Nat) : List α := s.drop a

/-- `s[0:b]`, the elements before index `b` (R14). -/
def sliceTo {α : Type} (s : List α) (b : Nat) : List α := s.take b

/-- `rep(x, k)` (R14). -/
def rep {α : Type} (x : α) (k : Nat) : List α := List.replicate k x

/-- The low byte `c[7:0]` of a count (R60). -/
def countLo (c : Count) : Byte := c.extractLsb' 0 8

/-- The high byte `c[15:8]` of a count (R60). -/
def countHi (c : Count) : Byte := c.extractLsb' 8 8

/-- The count of two bytes, `lo | (hi << 8)` (R60). -/
def countOf (lo hi : Byte) : Count := lo.setWidth 16 ||| (hi.setWidth 16 <<< 8)

/-- One summand of a payload byte: `bit << k` (spec/45_bit_packer.md R185). -/
def bitAt (b : Bit) (k : Nat) : Byte := (BitVec.ofBool b).setWidth 8 <<< k

/-- A payload byte from its eight bits, the first in bit 7 (R61, R185). -/
def byteOfBits (b0 b1 b2 b3 b4 b5 b6 b7 : Bit) : Byte :=
  bitAt b0 7 + bitAt b1 6 + bitAt b2 5 + bitAt b3 4 + bitAt b4 3 + bitAt b5 2 + bitAt b6 1 + bitAt b7 0

/-- The eight bits of a payload byte, bit 7 first (R61, spec/45_bit_packer.md R189). -/
def bitsOfByte (p : Byte) : List Bit :=
  [p.getLsbD 7, p.getLsbD 6, p.getLsbD 5, p.getLsbD 4, p.getLsbD 3, p.getLsbD 2, p.getLsbD 1, p.getLsbD 0]

/-- `CT[s]` (R30). -/
def codeOf (c : CodeTable) (s : Byte) : Option Code := c.get ⟨s.toNat, s.isLt⟩

/-- `C[s] <- p` (R30). -/
def setCode (c : CodeTable) (s : Byte) (p : Code) : CodeTable := c.set s.toNat (some p) s.isLt

/-- The code table with every entry none (R39). -/
def noCodes : CodeTable := Vector.replicate 256 none

/-- The weight of a node (R29). -/
def nodeWeight : Node → Weight
  | .leaf _ w => w
  | .internal _ _ w => w

end Sys2Proof.Machine
end

