-- ==== Sys2Proof/Machine/Ops.lean ====
section
/-! DEFINITION. The operations every meaning shares: clearing elements, taking an exception (spec/60_exceptions.md R231),
reset (spec/70_reset_and_hazards.md R260), the capacity test (R236), and running one unit after another
(spec/46_encoder.md R200). There is no return from an exception: only reset clears `ERR` (R238). -/

namespace Sys2Proof.Machine

/-- One element takes its reset value (R231 (1), R39). -/
def clear (s : State) : Elem → State
  | .inBuf => { s with inBuf := [] }
  | .ft => { s with ft := [] }
  | .node => { s with node := [] }
  | .root => { s with root := 0#9 }
  | .ct => { s with ct := noCodes }
  | .bits => { s with bits := [] }
  | .pay => { s with pay := [] }
  | .rem => { s with rem := 0#3 }
  | .hdr => { s with hdr := [] }
  | .poff => { s with poff := 0#10 }
  | .out => { s with out := [] }
  | .err => { s with err := 0#3 }

/-- Every element of the list takes its reset value. -/
def clearAll (es : List Elem) (s : State) : State := es.foldl clear s

/-- `raise E` in a command whose destinations are `es` (R231): they take their reset values, `ERR` takes the code, every
other element is kept. -/
def raise (es : List Elem) (e : Exc) (s : State) : State := { clearAll es s with err := errCode e }

/-- The state after reset, by the reset input or the `RESET` command (R260): every element at its reset value. The words
the host has still to write and the capacities are no state of the block's and stay (log entries 1 and 2). -/
def hardwareReset (s : State) : State := { s with toBlockState := BlockState.reset }

/-- A buffer of `n` elements does not exceed the capacity (R236). -/
def fits (cap : Cap) (n : Nat) : Bool :=
  match cap with
  | none => true
  | some c => decide (n ≤ c)

/-- The end of a command whose pseudocode ran through without an exception (R236): the write `t` happens if the written
buffer fits; otherwise it does not happen and `Capacity` is raised in command `i`. -/
def commit (i : Instr) (fit : Bool) (s t : State) : Result :=
  if fit then .done t else .raised (raise (dests i) .capacity s)

/-- `ClearDerived` (spec/46_encoder.md R201). -/
def clearDerived (s : State) : State := clearAll derivedElems s

/-- The next unit of a composite, run on the state the unit before left; "the first `raise` ends" the composite (R200). -/
def andThen (r : Result) (next : State → Result) : Result :=
  match r with
  | .done s => next s
  | .raised s => .raised s
  | .stopped x => .stopped x

/-- What a command's run is to the host: both a completed run and a raise are the one next state (R115, R231). -/
def outcome : Result → Host.Outcome State Fault Refusal
  | .done s => .next s
  | .raised s => .next s
  | .stopped (.fault r) => .fault r
  | .stopped (.refused r) => .refused r

end Sys2Proof.Machine
end

