-- ==== Sys2Proof/Machine/BitPacker.lean ====
section
/-! DEFINITION. The BitPacker and BitUnpacker, `PACK` and `UNPACK` (spec/45_bit_packer.md R185 to R194). -/

namespace Sys2Proof.Machine

/-- Bytes of groups of eight bits, most significant first (R185); the packer gives it a multiple of eight. -/
def groupBytes : List Bit → List Byte
  | b0 :: b1 :: b2 :: b3 :: b4 :: b5 :: b6 :: b7 :: rest => byteOfBits b0 b1 b2 b3 b4 b5 b6 b7 :: groupBytes rest
  | _ => []

/-- The padded bit string, `B ++ rep(0, rem)` (R185). -/
def padded (b : List Bit) : List Bit := b ++ rep false (padCount b.length)

/-- The BitPacker (R186). -/
def runPack (s : State) : Result :=
  let p := groupBytes (padded s.bits)
  commit .pack (fits s.caps.payCap p.length) s
    { s with pay := p, rem := BitVec.ofNat 3 (padCount s.bits.length) }

/-- `PACK` (R186). -/
def execPack (s : State) : Host.Outcome State Fault Refusal := outcome (runPack s)

/-- All bits of a payload, each byte MSB first (R189). -/
def payloadBits (p : List Byte) : List Bit := p.flatMap bitsOfByte

/-- The BitUnpacker (R189): more padding than bits raises `Format` (R190); the dropped bits are not examined (R191). -/
def runUnpack (s : State) : Result :=
  if s.rem.toNat > 8 * s.pay.length then .raised (raise (dests .unpack) .format s)
  else
    let b := sliceTo (payloadBits s.pay) (8 * s.pay.length - s.rem.toNat)
    commit .unpack (fits s.caps.bitsCap b.length) s { s with bits := b }

/-- `UNPACK` (R189). -/
def execUnpack (s : State) : Host.Outcome State Fault Refusal := outcome (runUnpack s)

end Sys2Proof.Machine
end

