-- ==== Sys2Proof/Machine/CodeTable.lean ====
section
/-! DEFINITION. The CodeTableGenerator, `WALK` (spec/43_code_table.md R160 to R165). -/

namespace Sys2Proof.Machine

/-- `visit(i, path)` of R161 on the table `c`: at a leaf the accumulated path is its symbol's code, at an internal node the
left child is visited with 0 and the right with 1. The first argument bounds the depth: a path through distinct nodes has
at most `NODE_N` of them, so it runs out exactly where the recursion would never end. -/
def visit (n : List Node) : Nat → NodeIdx → Code → CodeTable → Except Stop CodeTable
  | 0, _, _, _ => .error (.fault .cyclicArena)
  | k + 1, i, path, c =>
    match n[i.toNat]? with
    | none => .error (.refused .indexOutsideNode)
    | some (.leaf sym _) => .ok (setCode c sym path)
    | some (.internal l r _) =>
      match visit n k l (path ++ [false]) c with
      | .error x => .error x
      | .ok c' => visit n k r (path ++ [true]) c'

/-- The CodeTableGenerator (R161): `State` for an empty tree (R164); a leaf root has the one-bit code 0 (R162). -/
def runWalk (s : State) : Result :=
  if s.node = [] then .raised (raise (dests .walk) .state s)
  else
    match s.node[s.root.toNat]? with
    | none => .stopped (.refused .indexOutsideNode)
    | some (.leaf sym _) => .done { s with ct := setCode noCodes sym [false] }
    | some (.internal _ _ _) =>
      match visit s.node s.node.length s.root [] noCodes with
      | .error x => .stopped x
      | .ok c => .done { s with ct := c }

/-- `WALK` (R161). -/
def execWalk (s : State) : Host.Outcome State Fault Refusal := outcome (runWalk s)

end Sys2Proof.Machine
end

