-- ==== Sys2Proof/Machine/Header.lean ====
section
/-! DEFINITION. The HeaderCodec, `HDR_ENC` and `HDR_DEC` (spec/44_header_codec.md R170 to R179; layout
spec/30_encoding.md R94 to R96). -/

namespace Sys2Proof.Machine

/-- One header entry: symbol, count low byte, count high byte (R172, R96). -/
def entryBytes (e : FreqEntry) : List Byte := [e.sym, countLo e.cnt, countHi e.cnt]

/-- The header of a table and a padding count (R172). -/
def headerBytes (t : List FreqEntry) (rem : BitVec 3) : List Byte :=
  BitVec.ofNat 8 t.length :: rem.setWidth 8 :: t.flatMap entryBytes

/-- The HeaderCodec's encode (R172): an empty table raises `EmptyInput` (R173). -/
def runHdrEnc (s : State) : Result :=
  if s.ft = [] then .raised (raise (dests .hdrEnc) .emptyInput s)
  else .done { s with hdr := headerBytes s.ft s.rem }

/-- `HDR_ENC` (R172). -/
def execHdrEnc (s : State) : Host.Outcome State Fault Refusal := outcome (runHdrEnc s)

/-- The first `n` entries in the bytes after the two fixed ones (R175, R96). -/
def parseEntries : Nat → List Byte → List FreqEntry
  | 0, _ => []
  | n + 1, sym :: lo :: hi :: rest => ⟨sym, countOf lo hi⟩ :: parseEntries n rest
  | _ + 1, _ => []

/-- No two entries of a table have the same symbol (R176 (e)). -/
def distinctSyms : List FreqEntry → Bool
  | [] => true
  | e :: t => !(t.any (fun x => x.sym == e.sym)) && distinctSyms t

/-- The HeaderCodec's decode (R175), with the five tests of R176. The copied payload is subject to `PAY_CAP` (R236). -/
def runHdrDec (s : State) : Result :=
  match s.inBuf with
  | n :: r :: body =>
    let size := 2 + 3 * n.toNat
    let t := parseEntries n.toNat body
    let pay := sliceFrom s.inBuf size
    if n.toNat = 0 then .raised (raise (dests .hdrDec) .format s)
    else if s.inBuf.length < size then .raised (raise (dests .hdrDec) .format s)
    else if r.toNat > 7 then .raised (raise (dests .hdrDec) .format s)
    else if distinctSyms t = false then .raised (raise (dests .hdrDec) .format s)
    else commit .hdrDec (fits s.caps.payCap pay.length) s
      { s with ft := t, rem := r.extractLsb' 0 3, poff := BitVec.ofNat 10 size, pay := pay }
  | _ => .raised (raise (dests .hdrDec) .format s)

/-- `HDR_DEC` (R175). -/
def execHdrDec (s : State) : Host.Outcome State Fault Refusal := outcome (runHdrDec s)

end Sys2Proof.Machine
end

