-- ==== Sys2Proof/Machine/Tree.lean ====
section
/-! DEFINITION. The TreeBuilder, `BUILD` (spec/42_tree_builder.md R140 to R152). -/

namespace Sys2Proof.Machine

/-- The comparator's key (R143): weight, leaf before internal, symbol among leaves, arena index. -/
structure Key where
  w : Nat
  tag : Nat
  sym : Nat
  idx : Nat
deriving DecidableEq, Repr

/-- `key(i)` of the node at arena index `i` (R143). -/
def keyOf (i : Nat) : Node → Key
  | .leaf sym w => ⟨w.toNat, 0, sym.toNat, i⟩
  | .internal _ _ w => ⟨w.toNat, 1, 0, i⟩

/-- Lexicographic order on keys (R143). -/
def keyLt (a b : Key) : Bool :=
  decide (a.w < b.w) || (a.w == b.w &&
    (decide (a.tag < b.tag) || (a.tag == b.tag &&
      (decide (a.sym < b.sym) || (a.sym == b.sym && decide (a.idx < b.idx))))))

/-- A member of the priority collection `Q` (R141): an arena index with the node there. The collection is transient
(spec/10_state.md R36). -/
structure Item where
  idx : Nat
  node : Node
deriving DecidableEq, Repr

/-- The key of a member of `Q`. -/
def itemKey (x : Item) : Key := keyOf x.idx x.node

/-- The member of `Q` with the least key, and the rest (R141). -/
def takeLeast : List Item → Option (Item × List Item)
  | [] => none
  | x :: xs =>
    match takeLeast xs with
    | none => some (x, [])
    | some (m, rest) => if keyLt (itemKey x) (itemKey m) then some (x, xs) else some (m, x :: rest)

/-- The merged node: the first removed is the left child (R144), the weight is the sum (R145). -/
def mergeNode (a b : Item) : Node :=
  .internal (BitVec.ofNat 9 a.idx) (BitVec.ofNat 9 b.idx) (nodeWeight a.node + nodeWeight b.node)

/-- The loop of R141, at most `k` rounds: while two nodes remain, remove the two least, append their merge to the arena and
reinsert it. -/
def mergeAll : Nat → List Node → List Item → List Node × List Item
  | 0, n, q => (n, q)
  | k + 1, n, q =>
    match takeLeast q with
    | none => (n, q)
    | some (a, q1) =>
      match takeLeast q1 with
      | none => (n, q)
      | some (b, q2) => mergeAll k (n ++ [mergeNode a b]) (q2 ++ [⟨n.length, mergeNode a b⟩])

/-- The leaf of a table entry, weight `zext_24(cnt)` (R140). -/
def leafOf (e : FreqEntry) : Node := .leaf e.sym (e.cnt.setWidth 24)

/-- The initial collection: one leaf per entry, at the arena indices from `i` on (R141, R147). -/
def leafItems : Nat → List FreqEntry → List Item
  | _, [] => []
  | i, e :: t => ⟨i, leafOf e⟩ :: leafItems (i + 1) t

/-- `NODE` and `ROOT` of a table (R141): `ROOT` is the one element that remains in `Q`. A table of `n` entries has `n - 1`
merges (R142), so `n` rounds are enough. -/
def buildTree (t : List FreqEntry) : List Node × NodeIdx :=
  match mergeAll t.length (t.map leafOf) (leafItems 0 t) with
  | (n, r :: _) => (n, BitVec.ofNat 9 r.idx)
  | (n, []) => (n, 0#9)

/-- The TreeBuilder (R141): an empty table raises `EmptyInput` (R148). -/
def runBuild (s : State) : Result :=
  if s.ft = [] then .raised (raise (dests .build) .emptyInput s)
  else .done { s with node := (buildTree s.ft).1, root := (buildTree s.ft).2 }

/-- `BUILD` (R141). -/
def execBuild (s : State) : Host.Outcome State Fault Refusal := outcome (runBuild s)

end Sys2Proof.Machine
end

