-- ==== Sys2Proof/Machine/Decoder.lean ====
section
/-! DEFINITION. The Decoder: `TWALK` and the composite `DECODE` (spec/47_decoder.md R210 to R220). -/

namespace Sys2Proof.Machine

/-- The loop of R211 with the cursor at `cur`: one tree step per bit, 0 to the left child and 1 to the right; at a leaf its
symbol is emitted and the cursor goes back to the root. It answers the symbols emitted and the cursor after the last bit,
or none where the cursor meets an index outside `NODE` (log entry 5). -/
def treeWalk (n : List Node) (root : NodeIdx) : NodeIdx → List Bit → Option (List Byte × NodeIdx)
  | cur, [] => some ([], cur)
  | cur, b :: bs =>
    match n[cur.toNat]? with
    | some (.internal l r _) =>
      let nxt := if b then r else l
      match n[nxt.toNat]? with
      | some (.leaf sym _) =>
        match treeWalk n root root bs with
        | some (o, c) => some (sym :: o, c)
        | none => none
      | some (.internal _ _ _) => treeWalk n root nxt bs
      | none => none
    | _ => none

/-- The tree walk (R211): `State` for an empty tree (R214); one symbol per bit for a leaf root (R212); `TruncatedStream`
when the cursor is not at the root after the last bit (R213). -/
def runTwalk (s : State) : Result :=
  if s.node = [] then .raised (raise (dests .twalk) .state s)
  else
    match s.node[s.root.toNat]? with
    | none => .stopped (.refused .indexOutsideNode)
    | some (.leaf sym _) =>
      let o := rep sym s.bits.length
      commit .twalk (fits s.caps.outCap o.length) s { s with out := o }
    | some (.internal _ _ _) =>
      match treeWalk s.node s.root s.root s.bits with
      | none => .stopped (.refused .indexOutsideNode)
      | some (o, cur) =>
        if cur ≠ s.root then .raised (raise (dests .twalk) .truncatedStream s)
        else commit .twalk (fits s.caps.outCap o.length) s { s with out := o }

/-- `TWALK` (R211). -/
def execTwalk (s : State) : Host.Outcome State Fault Refusal := outcome (runTwalk s)

/-- The Decoder (R215): `ClearDerived`, then the four units in the order of R210; the first raise ends it (R216). -/
def runDecode (s : State) : Result :=
  let r1 := runHdrDec (clearDerived s)
  let r2 := andThen r1 runBuild
  let r3 := andThen r2 runUnpack
  andThen r3 runTwalk

/-- `DECODE` (R215). -/
def execDecode (s : State) : Host.Outcome State Fault Refusal := outcome (runDecode s)

end Sys2Proof.Machine
end

