-- ==== Sys2Proof/Machine/Frequency.lean ====
section
/-! DEFINITION. The FrequencyCounter, `COUNT` (spec/41_frequency_counter.md R130 to R134). -/

namespace Sys2Proof.Machine

/-- One step of the scan (R131): the entry of `b` counts one more, or `(b, 1)` is appended. The transient table's counts
are unbounded. -/
def tally : List (Byte × Nat) → Byte → List (Byte × Nat)
  | [], b => [(b, 1)]
  | (x, c) :: t, b => if x = b then (x, c + 1) :: t else (x, c) :: tally t b

/-- The transient table `T` of R131 after the whole scan. -/
def scan (input : List Byte) : List (Byte × Nat) := input.foldl tally []

/-- The FrequencyCounter (R131): `EmptyInput` (R133), then `AlphabetOverflow` for more than 255 distinct bytes or a count
above 65535 (R132), else `FT <- T`. -/
def runCount (s : State) : Result :=
  if s.inBuf = [] then .raised (raise (dests .count) .emptyInput s)
  else
    let t := scan s.inBuf
    if t.length > Config.nMax then .raised (raise (dests .count) .alphabetOverflow s)
    else if t.any (fun e => decide (e.2 > Config.cntMax)) then .raised (raise (dests .count) .alphabetOverflow s)
    else .done { s with ft := t.map (fun e => ⟨e.1, BitVec.ofNat 16 e.2⟩) }

/-- `COUNT` (R131). -/
def execCount (s : State) : Host.Outcome State Fault Refusal := outcome (runCount s)

end Sys2Proof.Machine
end

