-- ==== Sys2Proof/Machine/Encoder.lean ====
section
/-! DEFINITION. The Encoder: `XLATE`, `BLOB` and the composite `ENCODE` (spec/46_encoder.md R195 to R206). -/

namespace Sys2Proof.Machine

/-- The concatenation of the codes of the bytes, in order, or none if a byte has no code (R196, R197). -/
def translate (c : CodeTable) : List Byte → Option (List Bit)
  | [] => some []
  | b :: rest =>
    match codeOf c b, translate c rest with
    | some p, some q => some (p ++ q)
    | _, _ => none

/-- Bytes to bits (R196): a byte without a code raises `State` (R197). -/
def runXlate (s : State) : Result :=
  match translate s.ct s.inBuf with
  | none => .raised (raise (dests .xlate) .state s)
  | some b => commit .xlate (fits s.caps.bitsCap b.length) s { s with bits := b }

/-- `XLATE` (R196). -/
def execXlate (s : State) : Host.Outcome State Fault Refusal := outcome (runXlate s)

/-- Header and payload joined (R198): an empty header raises `State` (R199). -/
def runBlob (s : State) : Result :=
  if s.hdr = [] then .raised (raise (dests .blob) .state s)
  else
    let v := s.hdr ++ s.pay
    commit .blob (fits s.caps.outCap v.length) s { s with out := v }

/-- `BLOB` (R198). -/
def execBlob (s : State) : Host.Outcome State Fault Refusal := outcome (runBlob s)

/-- The Encoder (R200): `ClearDerived`, then the seven units in the order of R195; the first raise ends it (R202). -/
def runEncode (s : State) : Result :=
  let r1 := runCount (clearDerived s)
  let r2 := andThen r1 runBuild
  let r3 := andThen r2 runWalk
  let r4 := andThen r3 runXlate
  let r5 := andThen r4 runPack
  let r6 := andThen r5 runHdrEnc
  andThen r6 runBlob

/-- `ENCODE` (R200). -/
def execEncode (s : State) : Host.Outcome State Fault Refusal := outcome (runEncode s)

end Sys2Proof.Machine
end

