-- ==== Sys2Proof/Machine/HostCommands.lean ====
section
/-! DEFINITION. `NOP`, `RESET` and the five load commands (spec/40_host_commands.md R118 to R124). Each load appends at the
end of its buffer (R126); a load whose buffer would exceed a finite capacity raises `Capacity` (spec/60_exceptions.md R236). -/

namespace Sys2Proof.Machine

/-- `NOP` (R118): the state is unchanged. -/
def execNop (s : State) : Host.Outcome State Fault Refusal := .next s

/-- `RESET` (R119): `ResetState`, whatever `ERR` is. -/
def execReset (s : State) : Host.Outcome State Fault Refusal := .next (hardwareReset s)

/-- `IN_PUSH imm8` (R120): `IN <- IN ++ [imm8]`. -/
def execInPush (imm8 : Byte) (s : State) : Host.Outcome State Fault Refusal :=
  let v := s.inBuf ++ [imm8]
  outcome (commit (.inPush imm8) (fits s.caps.inCap v.length) s { s with inBuf := v })

/-- `FT_PUSH sym, cnt` (R121): a symbol already in the table raises `State`; a 256th entry raises `AlphabetOverflow`, tested
second (R237); else the entry is appended. -/
def execFtPush (sym : Byte) (cnt : Count) (s : State) : Host.Outcome State Fault Refusal :=
  if s.ft.any (fun e => e.sym == sym) then .next (raise (dests (.ftPush sym cnt)) .state s)
  else if s.ft.length = Config.nMax then .next (raise (dests (.ftPush sym cnt)) .alphabetOverflow s)
  else .next { s with ft := s.ft ++ [⟨sym, cnt⟩] }

/-- `BIT_PUSH bit` (R122): `BITS <- BITS ++ [bit]`. -/
def execBitPush (bit : Bit) (s : State) : Host.Outcome State Fault Refusal :=
  let v := s.bits ++ [bit]
  outcome (commit (.bitPush bit) (fits s.caps.bitsCap v.length) s { s with bits := v })

/-- `PAY_PUSH imm8` (R123): `PAY <- PAY ++ [imm8]`. -/
def execPayPush (imm8 : Byte) (s : State) : Host.Outcome State Fault Refusal :=
  let v := s.pay ++ [imm8]
  outcome (commit (.payPush imm8) (fits s.caps.payCap v.length) s { s with pay := v })

/-- `REM_SET rem3` (R124): `REM <- rem3`. -/
def execRemSet (rem3 : BitVec 3) (s : State) : Host.Outcome State Fault Refusal := .next { s with rem := rem3 }

end Sys2Proof.Machine
end

