-- ==== Sys2Proof/Machine/Dispatch.lean ====
section
/-! DEFINITION. `exec(S, c)` of spec/40_host_commands.md R115: one arm per command. -/

namespace Sys2Proof.Machine

def exec (i : Instr) (s : State) : Host.Outcome State Fault Refusal :=
  match i with
  | .nop => Sys2Proof.Machine.execNop s
  | .reset => Sys2Proof.Machine.execReset s
  | .inPush imm8 => Sys2Proof.Machine.execInPush imm8 s
  | .ftPush sym cnt => Sys2Proof.Machine.execFtPush sym cnt s
  | .bitPush bit => Sys2Proof.Machine.execBitPush bit s
  | .payPush imm8 => Sys2Proof.Machine.execPayPush imm8 s
  | .remSet rem3 => Sys2Proof.Machine.execRemSet rem3 s
  | .count => Sys2Proof.Machine.execCount s
  | .build => Sys2Proof.Machine.execBuild s
  | .walk => Sys2Proof.Machine.execWalk s
  | .xlate => Sys2Proof.Machine.execXlate s
  | .pack => Sys2Proof.Machine.execPack s
  | .hdrEnc => Sys2Proof.Machine.execHdrEnc s
  | .blob => Sys2Proof.Machine.execBlob s
  | .hdrDec => Sys2Proof.Machine.execHdrDec s
  | .unpack => Sys2Proof.Machine.execUnpack s
  | .twalk => Sys2Proof.Machine.execTwalk s
  | .encode => Sys2Proof.Machine.execEncode s
  | .decode => Sys2Proof.Machine.execDecode s

end Sys2Proof.Machine
end

