-- ==== Sys2Proof/Machine/Issue.lean ====
section
/-! DEFINITION. The spec's step function `step(S, w)` (spec/40_host_commands.md R115), and the delivery of the host's next
word (spec/00_scope.md R19, log entry 1). -/

namespace Sys2Proof.Machine

/-- `step(S, w)` (R115): `RESET` always runs; otherwise a set `ERR` makes the word ignored; an `Illegal` word raises
`IllegalCommand` with no destination (R232); a command runs. -/
def issue (w : Word) (s : State) : Host.Outcome State Fault Refusal :=
  match decode w with
  | .cmd i => if i = .reset ∨ noError s = true then exec i s else .next s
  | .illegal _ => if noError s then .next (raise [] .illegalCommand s) else .next s

/-- The next word the host writes, and the state once it is written; none when no word is pending. -/
def fetch (s : State) : Option (Word × State) :=
  match s.host with
  | [] => none
  | w :: rest => some (w, { s with host := rest })

/-- `w` is the next word the host writes, before those already pending. -/
def offer (w : Word) (s : State) : State := { s with host := w :: s.host }

end Sys2Proof.Machine
end

