-- ==== Sys2Proof/Machine/Step.lean ====
section
/-! DEFINITION. One step of the machine: the host writes its next word and the engine runs it
(spec/40_host_commands.md R115, spec/00_scope.md R16, R19). -/

namespace Sys2Proof.Machine

/-- One step. With no word pending the block holds its state ("between commands the block simply holds its state",
spec/60_exceptions.md R248; log entry 1). -/
def step (s : State) : Host.Outcome State Fault Refusal :=
  match fetch s with
  | none => .next s
  | some (w, s') => issue w s'

/-- The state in which the very next step runs the command word whose bits are `w` (log entry 1). -/
def State.withFetchWord (s : State) (nbits w : Nat) : State := offer (BitVec.ofNat 32 (w % 2 ^ nbits)) s

end Sys2Proof.Machine
end

