-- ==== Sys2Proof/WellFormed.lean ====
section
/-! DEFINITION. Which source commands have a word: "An operand outside its field's range is an assembly error, not a word"
(spec/30_encoding.md R92), with the field widths of R86. An `Instr` needs no check of its own: its operands have exactly
their field's width (R87), so every `Instr` is well formed and has one word. -/

namespace Sys2Proof

/-- The range check of R92 for each operand field (R86), element by element for the pseudo-instructions (R93): the text of
`IN_STR` is ASCII, the string of `BITS_STR` holds the digits 0 (code 48) and 1 (code 49). That one element out of range makes the whole pseudo-instruction an
assembly error is log entry 8. -/
def Source.wf : Source → Bool
  | .inPush v => decide (v < 256)
  | .ftPush s c => decide (s < 256) && decide (c < 65536)
  | .bitPush b => decide (b < 2)
  | .payPush v => decide (v < 256)
  | .remSet r => decide (r < 8)
  | .inBytes bs => bs.all (fun v => decide (v < 256))
  | .inStr t => t.all (fun v => decide (v < 128))
  | .payBytes bs => bs.all (fun v => decide (v < 256))
  | .bitsStr ds => ds.all (fun v => v == 48 || v == 49)
  | .nop | .reset | .count | .build | .walk | .xlate | .pack | .hdrEnc | .blob | .hdrDec | .unpack | .twalk
  | .encode | .decode => true

end Sys2Proof
end

