-- ==== Sys2Proof/Machine/Assembler.lean ====
section
/-! DEFINITION. The assembler syntax (spec/30_encoding.md R92) and the four pseudo-instructions (R93): from a source command
to commands, and from a line of text, given as its characters, to a source command. No behaviour of the block depends on it
(spec/92_eei_decisions.md D29). -/

namespace Sys2Proof.Machine

/-- A source command whose operands passed the range check, as real commands in order (R92, R93). -/
def expand : Source → List Instr
  | .nop => [.nop]
  | .reset => [.reset]
  | .inPush v => [.inPush (BitVec.ofNat 8 v)]
  | .ftPush s c => [.ftPush (BitVec.ofNat 8 s) (BitVec.ofNat 16 c)]
  | .bitPush b => [.bitPush (b == 1)]
  | .payPush v => [.payPush (BitVec.ofNat 8 v)]
  | .remSet r => [.remSet (BitVec.ofNat 3 r)]
  | .count => [.count]
  | .build => [.build]
  | .walk => [.walk]
  | .xlate => [.xlate]
  | .pack => [.pack]
  | .hdrEnc => [.hdrEnc]
  | .blob => [.blob]
  | .hdrDec => [.hdrDec]
  | .unpack => [.unpack]
  | .twalk => [.twalk]
  | .encode => [.encode]
  | .decode => [.decode]
  | .inBytes bs => bs.map (fun v => .inPush (BitVec.ofNat 8 v))
  | .inStr t => t.map (fun v => .inPush (BitVec.ofNat 8 v))
  | .payBytes bs => bs.map (fun v => .payPush (BitVec.ofNat 8 v))
  | .bitsStr ds => ds.map (fun v => .bitPush (v == 49))

/-- The commands of a source command, or none: an assembly error (R92). -/
def assemble (c : Source) : Option (List Instr) := if c.wf then some (expand c) else none

/-- The command words of a source command, in order, or none: an assembly error (R92). -/
def assembledWords (c : Source) : Option (List Word) := (assemble c).map (fun is => is.map encode)

/-- A lexical element of a line. -/
inductive Token where
  | word (cs : List Char)
  | num (v : Nat)
  | text (codes : List Nat)
  | comma
deriving DecidableEq, Repr

/-- Where the lexer is in a line. -/
inductive LexMode where
  | between
  | inWord (acc : List Char)
  | afterQuote
  | closeQuote (v : Nat)
  | inText (acc : List Nat)
deriving DecidableEq, Repr

/-- The tokens of a line, or none where it is malformed: blanks separate, a comma is a token, `#` (code 35) outside quotes
starts a comment, a printable ASCII character between single quotes (code 39) is its code, text stands between double quotes
(code 34). Log entry 8 names what R92 leaves open here. -/
def lex : LexMode → List Char → Option (List Token)
  | .between, [] => some []
  | .inWord acc, [] => some [.word acc]
  | .afterQuote, [] => none
  | .closeQuote _, [] => none
  | .inText _, [] => none
  | .between, c :: cs =>
    if c.toNat = 35 then some []
    else if c.toNat = 32 ∨ c.toNat = 9 then lex .between cs
    else if c.toNat = 44 then (lex .between cs).map (Token.comma :: ·)
    else if c.toNat = 39 then lex .afterQuote cs
    else if c.toNat = 34 then lex (.inText []) cs
    else lex (.inWord [c]) cs
  | .inWord acc, c :: cs =>
    if c.toNat = 35 then some [.word acc]
    else if c.toNat = 32 ∨ c.toNat = 9 then (lex .between cs).map (Token.word acc :: ·)
    else if c.toNat = 44 then (lex .between cs).map (fun t => Token.word acc :: Token.comma :: t)
    else if c.toNat = 39 ∨ c.toNat = 34 then none
    else lex (.inWord (acc ++ [c])) cs
  | .afterQuote, c :: cs => if 32 ≤ c.toNat ∧ c.toNat ≤ 126 then lex (.closeQuote c.toNat) cs else none
  | .closeQuote v, c :: cs => if c.toNat = 39 then (lex .between cs).map (Token.num v :: ·) else none
  | .inText acc, c :: cs =>
    if c.toNat = 34 then (lex .between cs).map (Token.text acc :: ·) else lex (.inText (acc ++ [c.toNat])) cs

/-- The value of a digit in a base up to 16. -/
def digitVal (base : Nat) (c : Char) : Option Nat :=
  let v :=
    if 48 ≤ c.toNat ∧ c.toNat ≤ 57 then c.toNat - 48
    else if 65 ≤ c.toNat ∧ c.toNat ≤ 70 then c.toNat - 55
    else if 97 ≤ c.toNat ∧ c.toNat ≤ 102 then c.toNat - 87
    else 16
  if v < base then some v else none

/-- The value of digits read after the value `acc`, at least one needed unless `acc` is already one. -/
def digitsVal (base : Nat) : Option Nat → List Char → Option Nat
  | acc, [] => acc
  | acc, c :: cs =>
    match digitVal base c with
    | none => none
    | some d => digitsVal base (some (acc.getD 0 * base + d)) cs

/-- A number: hexadecimal with `0x`, else decimal (R92). -/
def numberOf : List Char → Option Nat
  | '0' :: 'x' :: ds => digitsVal 16 none ds
  | ds => digitsVal 10 none ds

/-- A token as a number operand (R92). -/
def operandOf : Token → Option Nat
  | .word cs => numberOf cs
  | .num v => some v
  | .text _ => none
  | .comma => none

/-- Operands separated by commas; an empty list has no operand (R92, R93). The flag says that an operand must follow. -/
def operandList : Bool → List Token → Option (List Nat)
  | false, [] => some []
  | true, [] => none
  | _, [t] => (operandOf t).map (fun v => [v])
  | _, t :: .comma :: rest =>
    match operandOf t, operandList true rest with
    | some v, some vs => some (v :: vs)
    | _, _ => none
  | _, _ => none

/-- The source command of a mnemonic in capitals and its operand tokens (R88, R92, R93). -/
def sourceOf (m : List Char) (ops : List Token) : Option Source :=
  match m, operandList false ops, ops with
  | ['N', 'O', 'P'], some [], _ => some .nop
  | ['R', 'E', 'S', 'E', 'T'], some [], _ => some .reset
  | ['I', 'N', '_', 'P', 'U', 'S', 'H'], some [v], _ => some (.inPush v)
  | ['F', 'T', '_', 'P', 'U', 'S', 'H'], some [s, c], _ => some (.ftPush s c)
  | ['B', 'I', 'T', '_', 'P', 'U', 'S', 'H'], some [b], _ => some (.bitPush b)
  | ['P', 'A', 'Y', '_', 'P', 'U', 'S', 'H'], some [v], _ => some (.payPush v)
  | ['R', 'E', 'M', '_', 'S', 'E', 'T'], some [r], _ => some (.remSet r)
  | ['C', 'O', 'U', 'N', 'T'], some [], _ => some .count
  | ['B', 'U', 'I', 'L', 'D'], some [], _ => some .build
  | ['W', 'A', 'L', 'K'], some [], _ => some .walk
  | ['X', 'L', 'A', 'T', 'E'], some [], _ => some .xlate
  | ['P', 'A', 'C', 'K'], some [], _ => some .pack
  | ['H', 'D', 'R', '_', 'E', 'N', 'C'], some [], _ => some .hdrEnc
  | ['B', 'L', 'O', 'B'], some [], _ => some .blob
  | ['H', 'D', 'R', '_', 'D', 'E', 'C'], some [], _ => some .hdrDec
  | ['U', 'N', 'P', 'A', 'C', 'K'], some [], _ => some .unpack
  | ['T', 'W', 'A', 'L', 'K'], some [], _ => some .twalk
  | ['E', 'N', 'C', 'O', 'D', 'E'], some [], _ => some .encode
  | ['D', 'E', 'C', 'O', 'D', 'E'], some [], _ => some .decode
  | ['I', 'N', '_', 'B', 'Y', 'T', 'E', 'S'], some vs, _ => some (.inBytes vs)
  | ['P', 'A', 'Y', '_', 'B', 'Y', 'T', 'E', 'S'], some vs, _ => some (.payBytes vs)
  | ['I', 'N', '_', 'S', 'T', 'R'], _, [.text t] => some (.inStr t)
  | ['B', 'I', 'T', 'S', '_', 'S', 'T', 'R'], _, [.text t] => some (.bitsStr t)
  | _, _, _ => none

/-- The commands of one line of source, or none: an assembly error. A line with nothing but blanks and a comment has no
command (R92). -/
def assembleLine (line : List Char) : Option (List Instr) :=
  match lex .between line with
  | none => none
  | some [] => some []
  | some (.word m :: ops) => (sourceOf m ops).bind assemble
  | some _ => none

end Sys2Proof.Machine
end

