-- ==== Sys2Proof/Safety.lean ====
section
/-! DEFINITION. What counts as a safe state and run, and the vocabulary the statements use: the invariant of
spec/10_state.md R35, the form of the bounded buffers (spec/60_exceptions.md R236), agreement of two states on elements
(R37), paths and shapes of a tree (spec/43_code_table.md R160, spec/42_tree_builder.md R149), the order of removals
(R142 to R144) restated in the source's words, and runs (spec/00_scope.md R19). -/

namespace Sys2Proof.Machine

/-- A length is within a capacity (R236). -/
def Within (cap : Cap) (n : Nat) : Prop := ∀ c, cap = some c → n ≤ c

/-- No bounded buffer is longer than its capacity: the form every memory keeps (R236). The other memories have no form
beyond their type: a sequence is its own canonical form (log entry 4). -/
def Memory.wf (s : State) : Bool :=
  fits s.caps.inCap s.inBuf.length && fits s.caps.bitsCap s.bits.length &&
  fits s.caps.payCap s.pay.length && fits s.caps.outCap s.out.length

/-- R35 (a): at most 255 entries, symbols pairwise distinct. -/
def TableOk (t : List FreqEntry) : Prop := t.length ≤ 255 ∧ (t.map (fun e => e.sym)).Nodup

/-- The weight at an arena index, 0 outside. -/
def weightAt (n : List Node) (i : Nat) : Nat :=
  match n[i]? with
  | some x => (nodeWeight x).toNat
  | none => 0

/-- Record `i` is an internal record one of whose children is `c`. -/
def isParentOf (c : Nat) : Node → Bool
  | .leaf _ _ => false
  | .internal l r _ => l.toNat == c || r.toNat == c

/-- Record `i` of an arena with `k` leaves is as R35 (b) says: a leaf below `k`; from `k` on an internal record with two
distinct children of smaller index, whose weight is the exact sum of theirs. -/
def nodeOk (n : List Node) (k i : Nat) : Bool :=
  match n[i]? with
  | none => false
  | some (.leaf _ _) => decide (i < k)
  | some (.internal l r w) =>
    decide (k ≤ i) && decide (l.toNat < i) && decide (r.toNat < i) && decide (l ≠ r) &&
    (w.toNat == weightAt n l.toNat + weightAt n r.toNat)

/-- R35 (b): the arena is empty with `ROOT = 0`, or is a well-formed tree in the layout of R147 with `k` leaves. -/
def treeOk (n : List Node) (root : NodeIdx) : Bool :=
  let k := (n.length + 1) / 2
  (n.isEmpty && root == 0#9) ||
  (decide (1 ≤ k) && decide (k ≤ 255) && (n.length + 1 == 2 * k) && (root.toNat + 1 == n.length) &&
    (List.range n.length).all (nodeOk n k) &&
    (List.range (n.length - 1)).all (fun c => n.countP (isParentOf c) == 1))

/-- The symbols of the arena's leaves, in index order. -/
def leafSyms (n : List Node) : List Byte :=
  n.filterMap (fun x => match x with
    | .leaf sym _ => some sym
    | .internal _ _ _ => none)

/-- The invariants of R35 (a) to (e), with the distinctness of the leaves' symbols that R28 and R147 give. -/
structure Inv (s : State) : Prop where
  table : TableOk s.ft
  tree : treeOk s.node s.root = true
  leaves : (leafSyms s.node).Nodup
  codes : ∀ b p, codeOf s.ct b = some p → 1 ≤ p.length ∧ p.length ≤ 254
  header : s.hdr = [] ∨ ∃ n, 1 ≤ n ∧ n ≤ 255 ∧ s.hdr.length = 2 + 3 * n
  offset : s.poff = 0#10 ∨ ∃ n, 1 ≤ n ∧ n ≤ 255 ∧ s.poff.toNat = 2 + 3 * n

/-- A safe state: the invariants hold and every bounded buffer is within its capacity. -/
def Safe (s : State) : Prop := Inv s ∧ Memory.wf s = true

/-- The elements a command reads, the second column of R37, for statements. -/
def readTable : Instr → List Elem
  | .nop => []
  | .reset => []
  | .inPush _ => [.inBuf]
  | .ftPush _ _ => [.ft]
  | .bitPush _ => [.bits]
  | .payPush _ => [.pay]
  | .remSet _ => []
  | .count => [.inBuf]
  | .build => [.ft]
  | .walk => [.node, .root]
  | .xlate => [.inBuf, .ct]
  | .pack => [.bits]
  | .hdrEnc => [.ft, .rem]
  | .blob => [.hdr, .pay]
  | .hdrDec => [.inBuf]
  | .unpack => [.pay, .rem]
  | .twalk => [.node, .root, .bits]
  | .encode => [.inBuf]
  | .decode => [.inBuf]

/-- The destination elements of a command, the third column of R37, written out for statements without the model's own
`dests`, which they hold to it. -/
def destTable : Instr → List Elem
  | .nop => []
  | .reset => [.inBuf, .ft, .node, .root, .ct, .bits, .pay, .rem, .hdr, .poff, .out, .err]
  | .inPush _ => [.inBuf]
  | .ftPush _ _ | .count => [.ft]
  | .bitPush _ | .xlate | .unpack => [.bits]
  | .payPush _ => [.pay]
  | .remSet _ => [.rem]
  | .build => [.node, .root]
  | .walk => [.ct]
  | .pack => [.pay, .rem]
  | .hdrEnc => [.hdr]
  | .blob | .twalk => [.out]
  | .hdrDec => [.ft, .rem, .poff, .pay]
  | .encode | .decode => [.ft, .node, .root, .ct, .bits, .pay, .rem, .hdr, .poff, .out]

/-- Two states agree on an element. -/
def Same (s t : State) : Elem → Prop
  | .inBuf => s.inBuf = t.inBuf
  | .ft => s.ft = t.ft
  | .node => s.node = t.node
  | .root => s.root = t.root
  | .ct => s.ct = t.ct
  | .bits => s.bits = t.bits
  | .pay => s.pay = t.pay
  | .rem => s.rem = t.rem
  | .hdr => s.hdr = t.hdr
  | .poff => s.poff = t.poff
  | .out => s.out = t.out
  | .err => s.err = t.err

/-- A frame: `t` differs from `s` at most in the listed elements; the words pending and the capacities are the same. -/
def UnchangedOutside (es : List Elem) (s t : State) : Prop :=
  (∀ e, e ∉ es → Same s t e) ∧ t.host = s.host ∧ t.caps = s.caps

/-- The node at the end of a path from node `i`: 0 goes left, 1 goes right, and only internal nodes have a way on (R160). -/
def follow (n : List Node) : NodeIdx → Code → Option Node
  | i, [] => n[i.toNat]?
  | i, b :: p =>
    match n[i.toNat]? with
    | some (.internal l r _) => follow n (if b then r else l) p
    | _ => none

/-- A leaf with symbol `sym` stands at the end of path `p` from the root. -/
def LeadsTo (n : List Node) (root : NodeIdx) (p : Code) (sym : Byte) : Prop := ∃ w, follow n root p = some (.leaf sym w)

/-- The node at `i` is a leaf. -/
def isLeafAt (n : List Node) (i : NodeIdx) : Bool :=
  match n[i.toNat]? with
  | some (.leaf _ _) => true
  | _ => false

/-- Node `a` at index `i` is removed before node `b` at index `j`, in the source's words (R143): ascending weight, then
ascending symbol value with internal nodes after all leaves of equal weight, then creation order. -/
def RemovedBefore (i : Nat) (a : Node) (j : Nat) (b : Node) : Prop :=
  (nodeWeight a).toNat < (nodeWeight b).toNat ∨
  ((nodeWeight a).toNat = (nodeWeight b).toNat ∧
    match a, b with
    | .leaf x _, .leaf y _ => x.toNat < y.toNat ∨ (x = y ∧ i < j)
    | .leaf _ _, .internal _ _ _ => True
    | .internal _ _ _, .leaf _ _ => False
    | .internal _ _ _, .internal _ _ _ => i < j)

/-- Index `i` is in the collection before merge `m` of an arena with `k` leaves: it exists then, and no earlier merge
removed it (R142). -/
def InPool (n : List Node) (k m i : Nat) : Prop :=
  i < k + m ∧ ∀ j x, j < m → n[k + j]? = some x → isParentOf i x = false

/-- Merge `m` of an arena with `k` leaves is the one R142 to R145 ask for: its left child is removed before everything else
in the collection, its right child before everything else but the left, and its weight is their exact sum. -/
def MergeOk (n : List Node) (k m : Nat) : Prop :=
  ∃ l r w a b, n[k + m]? = some (.internal l r w) ∧ n[l.toNat]? = some a ∧ n[r.toNat]? = some b ∧
    w.toNat = (nodeWeight a).toNat + (nodeWeight b).toNat ∧
    InPool n k m l.toNat ∧ InPool n k m r.toNat ∧ RemovedBefore l.toNat a r.toNat b ∧
    ∀ i x, InPool n k m i → n[i]? = some x → i ≠ l.toNat → i ≠ r.toNat → RemovedBefore r.toNat b i x

/-- `n` is the arena of a table (R141 to R147): the leaves in table order with their counts as weights, then one internal node
per merge, each merge the one R142 to R145 ask for. -/
def ArenaOf (t : List FreqEntry) (n : List Node) : Prop :=
  n.length = 2 * t.length - 1 ∧
  (∀ (i : Nat) (e : FreqEntry), t[i]? = some e → n[i]? = some (Node.leaf e.sym (e.cnt.setWidth 24))) ∧
  ∀ m, m < t.length - 1 → MergeOk n t.length m

/-- A tree without arena indices (R149). -/
inductive Shape where
  | leaf (sym : Byte) (w : Weight)
  | node (left right : Shape) (w : Weight)
deriving DecidableEq, Repr

/-- The shape below an index, to a depth bound. -/
def shapeAt (n : List Node) : Nat → NodeIdx → Option Shape
  | 0, _ => none
  | k + 1, i =>
    match n[i.toNat]? with
    | some (.leaf sym w) => some (.leaf sym w)
    | some (.internal l r w) =>
      match shapeAt n k l, shapeAt n k r with
      | some a, some b => some (.node a b w)
      | _, _ => none
    | none => none

/-- The inputs an encode accepts (R132, R133): not empty, at most 255 distinct bytes, no byte more than 65535 times. -/
def ValidInput (input : List Byte) : Prop :=
  input ≠ [] ∧ input.eraseDups.length ≤ 255 ∧ ∀ b, input.count b ≤ 65535

/-- A blob whose header `HDR_DEC` refuses, by the five tests of spec/44_header_codec.md R176. -/
def HeaderBad (b : List Byte) : Prop :=
  b.length < 2 ∨ ∃ n r, b[0]? = some n ∧ b[1]? = some r ∧
    (n.toNat = 0 ∨ b.length < 2 + 3 * n.toNat ∨ r.toNat > 7 ∨
      ∃ i j, i < j ∧ j < n.toNat ∧ b[2 + 3 * i]? = b[2 + 3 * j]?)

/-- `t` is the table of the first `n` header entries of a blob (spec/30_encoding.md R96). -/
def HeaderTable (blob : List Byte) (n : Nat) (t : List FreqEntry) : Prop :=
  t.length = n ∧
  ∀ i, i < n → ∃ a lo hi c, blob[2 + 3 * i]? = some a ∧ blob[3 + 3 * i]? = some lo ∧ blob[4 + 3 * i]? = some hi ∧
    c.toNat = lo.toNat + 256 * hi.toNat ∧ t[i]? = some ⟨a, c⟩

/-- `b` is the bits of a payload, bit 7 of each byte first, without the last `r` (spec/45_bit_packer.md R189). -/
def UnpackedBits (pay : List Byte) (r : Nat) (b : List Bit) : Prop :=
  b.length = 8 * pay.length - r ∧ ∀ i, i < b.length → b[i]? = pay[i / 8]?.map (fun p => p.getLsbD (7 - i % 8))

/-- `b` is paths from the root to the leaves of the symbols, one after the other (spec/47_decoder.md R211). -/
def IsPathsOf (n : List Node) (root : NodeIdx) (b : List Bit) (pairs : List (Byte × Code)) : Prop :=
  (∀ p ∈ pairs, LeadsTo n root p.2 p.1) ∧ b = pairs.flatMap (fun p => p.2)

/-- Commands one after the other, each as the step function runs it on the state the one before left: once `ERR` is set the
rest is skipped (spec/40_host_commands.md R115). -/
def execSeq : List Instr → State → Host.Outcome State Fault Refusal
  | [], s => .next s
  | i :: rest, s =>
    if s.err = 0#3 then
      match exec i s with
      | .next t => execSeq rest t
      | .fault r => .fault r
      | .refused r => .refused r
    else .next s

/-- `s` with all derived state at reset values (R201). -/
def withDerivedCleared (s : State) : State :=
  { s with
    ft := [], node := [], root := 0#9, ct := Vector.replicate 256 none, bits := [], pay := [], rem := 0#3, hdr := [],
    poff := 0#10, out := [] }

/-- The run of a list of command words (R19): the host has exactly these words to write, and each is one step. -/
def runWords (ws : List Word) (s : State) : Host.Outcome State Fault Refusal :=
  Sys2Proof.core.run ws.length { s with host := ws }

/-- The words of the protocol of R263: `RESET`, one `IN_PUSH` per byte in order, and the composite. -/
def protocolWords (input : List Byte) (composite : Instr) : List Word :=
  encode .reset :: input.map (fun b => encode (.inPush b)) ++ [encode composite]

end Sys2Proof.Machine
end

