-- ==== Sys2Proof/Certificates/Slice0/Obligations.lean ====
section
/-! DEFINITION. The statements for the provers. Each docstring names the rules of spec/ it formalises; where a statement
rests on a choice of the model's, the docstring names the log entry. -/

open Sys2Proof Sys2Proof.Machine

/-! ### The command word -/

/-- R86 to R89: the word of a command decodes to that command, every operand at every value its field admits. -/
def Obligations.EncodedCommandDecodesToItself : Prop :=
  ∀ i : Instr, decode (encode i) = .cmd i

/-- R87, R89: a word that decodes to a command is that command's word, so no bit of a legal word is ignored and no two
words mean one command. -/
def Obligations.LegalWordIsTheEncodingOfItsCommand : Prop :=
  ∀ (w : Word) (i : Instr), decode w = .cmd i → encode i = w

/-- R88, R89: the decoder accepts exactly the words that spell a row of the opcode map, with that row's opcode, and no word
spells two rows. -/
def Obligations.DecoderAcceptsExactlyTheOpcodeMap : Prop :=
  ∀ w : Word,
    (∀ i, decode w = .cmd i → ∃ r ∈ opcodeMap, r.spells w = true ∧ r.op = opcode i) ∧
    (∀ r ∈ opcodeMap, r.spells w = true → ∃ i, decode w = .cmd i ∧ opcode i = r.op) ∧
    (∀ r ∈ opcodeMap, ∀ r' ∈ opcodeMap, r.spells w = true → r'.spells w = true → r = r')

/-- R88, R90 and the words of spec/95_test_vectors.md 2.1, written out: one command of each format, and illegal words of
both kinds. -/
def Obligations.WrittenOutWordsDecode : Prop :=
  decode 0x20000000#32 = .cmd .count ∧ decode 0x100000FF#32 = .cmd (.inPush 0xFF#8) ∧
  decode 0x11610003#32 = .cmd (.ftPush 0x61#8 3#16) ∧ decode 0x12000001#32 = .cmd (.bitPush true) ∧
  decode 0x14000007#32 = .cmd (.remSet 7#3) ∧ decode 0x20000001#32 = .illegal .nonzeroReserved ∧
  decode 0x10000100#32 = .illegal .nonzeroReserved ∧ decode 0x12000002#32 = .illegal .nonzeroReserved ∧
  decode 0x14000008#32 = .illegal .nonzeroReserved ∧ decode 0x15000000#32 = .illegal .undefinedOpcode

/-- R92, R93, R86, R88: every source command with operands in range assembles to its word, and out of range it is an assembly
error; each of the four pseudo-instructions expands to one word per element, in order, no element giving no word. That a
pseudo-instruction with an element out of range (a number above a byte, a text code of 128 or more, a `BITS_STR` character
other than 0 and 1) assembles to nothing as a whole is the model's choice, log entry 8. -/
def Obligations.SourceAssemblesToItsWords : Prop :=
  (∀ p ∈ [(Source.nop, 0x00000000#32), (.reset, 0x01000000#32), (.count, 0x20000000#32), (.build, 0x21000000#32),
      (.walk, 0x22000000#32), (.xlate, 0x23000000#32), (.pack, 0x24000000#32), (.hdrEnc, 0x25000000#32),
      (.blob, 0x26000000#32), (.hdrDec, 0x27000000#32), (.unpack, 0x28000000#32), (.twalk, 0x29000000#32),
      (.encode, 0x30000000#32), (.decode, 0x31000000#32)], assembledWords p.1 = some [p.2]) ∧
  (∀ v w : Nat,
    assembledWords (.inPush v) = (if v < 256 then some [BitVec.ofNat 32 (0x10000000 + v)] else none) ∧
    assembledWords (.ftPush v w) =
      (if v < 256 ∧ w < 65536 then some [BitVec.ofNat 32 (0x11000000 + 65536 * v + w)] else none) ∧
    assembledWords (.bitPush v) = (if v < 2 then some [BitVec.ofNat 32 (0x12000000 + v)] else none) ∧
    assembledWords (.payPush v) = (if v < 256 then some [BitVec.ofNat 32 (0x13000000 + v)] else none) ∧
    assembledWords (.remSet v) = (if v < 8 then some [BitVec.ofNat 32 (0x14000000 + v)] else none)) ∧
  ∀ vs : List Nat,
    assembledWords (.inBytes vs) =
      (if ∀ v ∈ vs, v < 256 then some (vs.map (fun v => BitVec.ofNat 32 (0x10000000 + v))) else none) ∧
    assembledWords (.inStr vs) =
      (if ∀ v ∈ vs, v < 128 then some (vs.map (fun v => BitVec.ofNat 32 (0x10000000 + v))) else none) ∧
    assembledWords (.payBytes vs) =
      (if ∀ v ∈ vs, v < 256 then some (vs.map (fun v => BitVec.ofNat 32 (0x13000000 + v))) else none) ∧
    assembledWords (.bitsStr vs) =
      (if ∀ v ∈ vs, v = 48 ∨ v = 49 then some (vs.map (fun v => BitVec.ofNat 32 (0x12000000 + (v - 48)))) else none)

/-! ### The step function -/

/-- R115: with a word pending, a step takes it and does what `step(S, w)` says: `RESET` or any command while `ERR = 0` is
`exec` of it; while `ERR` is set every other word leaves the state as it is; an illegal word with `ERR = 0` sets `ERR` to 5.
That a step takes the word from the list `host` is log entry 1. -/
def Obligations.StepRunsTheDecodedCommand : Prop :=
  ∀ (s : State) (w : Word) (rest : List Word), s.host = w :: rest →
    (∀ i, decode w = .cmd i → (i = .reset ∨ s.err = 0#3) → step s = exec i { s with host := rest }) ∧
    (decode w ≠ .cmd .reset → s.err ≠ 0#3 → step s = .next { s with host := rest }) ∧
    (∀ why, decode w = .illegal why → s.err = 0#3 → step s = .next { s with host := rest, err := 5#3 })

/-- The model's choice, log entry 1 (R115, R248, R261): `withFetchWord` makes a word the next one the host writes, so the
very next step runs it on the state as it was; with no word pending a step holds the state. -/
def Obligations.OfferedWordIsTheNextToRun : Prop :=
  ∀ s : State, (∀ w : Nat, w < 2 ^ 32 → step (s.withFetchWord 32 w) = issue (BitVec.ofNat 32 w) s) ∧
    (s.host = [] → step s = .next s)

/-- R232: an illegal word with `ERR = 0` sets `ERR` to 5 and changes nothing else. -/
def Obligations.IllegalWordSetsOnlyErr : Prop :=
  ∀ (s : State) (w : Word) (why : IllegalReason), decode w = .illegal why → s.err = 0#3 →
    issue w s = .next { s with err := 5#3 }

/-- R16, R115: the step function is total; in every state that meets the invariant a step has a next state. -/
def Obligations.StepIsTotalOnInvariantStates : Prop :=
  ∀ s : State, Inv s → ∃ t, step s = .next t

/-- R35: the invariants (a) to (e), with the distinctness of the leaves' symbols, are kept by every step. -/
def Obligations.EveryStepKeepsTheInvariant : Prop :=
  ∀ s t : State, Inv s → step s = .next t → Inv t

/-- R35, R39: the reset state meets the invariants. -/
def Obligations.ResetMeetsTheInvariant : Prop :=
  Inv State.reset ∧ Memory.wf State.reset = true

/-- R236: a step keeps every bounded buffer within its capacity. -/
def Obligations.EveryStepKeepsBuffersWithinCapacity : Prop :=
  ∀ s t : State, Memory.wf s = true → step s = .next t → Memory.wf t = true

/-- R39: after reset every element holds its reset value. -/
def Obligations.ResetValues : Prop :=
  State.reset.inBuf = [] ∧ State.reset.ft = [] ∧ State.reset.node = [] ∧ State.reset.bits = [] ∧
  State.reset.pay = [] ∧ State.reset.hdr = [] ∧ State.reset.out = [] ∧
  (∀ b, codeOf State.reset.ct b = none) ∧ State.reset.root = 0#9 ∧ State.reset.rem = 0#3 ∧
  State.reset.poff = 0#10 ∧ State.reset.err = 0#3

/-- R226 (last column), R203: a command that runs with `ERR = 0` leaves in `ERR` 0 or a code that command can raise; in
particular no `State` exception arises inside a composite. -/
def Obligations.ErrTakesOnlyCodesTheCommandRaises : Prop :=
  ∀ (i : Instr) (s t : State), s.err = 0#3 → exec i s = .next t →
    t.err ∈ (match i with
      | .nop | .reset | .remSet _ => [0#3]
      | .inPush _ | .bitPush _ | .payPush _ | .pack => [0#3, 7#3]
      | .ftPush _ _ => [0#3, 2#3, 6#3]
      | .count => [0#3, 1#3, 2#3]
      | .build | .hdrEnc => [0#3, 1#3]
      | .walk => [0#3, 6#3]
      | .xlate | .blob => [0#3, 6#3, 7#3]
      | .hdrDec | .unpack => [0#3, 3#3, 7#3]
      | .twalk => [0#3, 4#3, 6#3, 7#3]
      | .encode => [0#3, 1#3, 2#3, 7#3]
      | .decode => [0#3, 3#3, 4#3, 7#3])

/-- R231 for the commands that are no composite: when one raises (`ERR` was 0 and is not after it), each of its destination
elements (R37) has its reset value, and every other element but `ERR` is as before. -/
def Obligations.RaiseClearsTheDestinationsAndKeepsTheRest : Prop :=
  ∀ (i : Instr) (s t : State), i ≠ .encode → i ≠ .decode → s.err = 0#3 → exec i s = .next t → t.err ≠ 0#3 →
    (∀ e ∈ destTable i, Same t State.reset e) ∧ UnchangedOutside (.err :: destTable i) s t

/-- R37, R116, the frame of the control and load commands: `NOP` changes nothing, a load command nothing but its buffer or
`REM` and, where it raises, `ERR`. The clause of `RESET` is the model's choice, log entries 1 and 2: it leaves the words
pending and the capacities, which are none of the twelve elements. -/
def Obligations.LoadCommandFrames : Prop :=
  ∀ s t : State,
    (exec .nop s = .next t → UnchangedOutside [] s t) ∧
    (exec .reset s = .next t → t.host = s.host ∧ t.caps = s.caps) ∧
    (∀ b, exec (.inPush b) s = .next t → UnchangedOutside [.inBuf, .err] s t) ∧
    (∀ x c, exec (.ftPush x c) s = .next t → UnchangedOutside [.ft, .err] s t) ∧
    (∀ b, exec (.bitPush b) s = .next t → UnchangedOutside [.bits, .err] s t) ∧
    (∀ b, exec (.payPush b) s = .next t → UnchangedOutside [.pay, .err] s t) ∧
    (∀ r, exec (.remSet r) s = .next t → UnchangedOutside [.rem] s t)

/-- R37, R116, the frame of the unit commands: each changes nothing but its destination elements and, where it raises,
`ERR`. -/
def Obligations.UnitCommandFrames : Prop :=
  ∀ s t : State,
    (exec .count s = .next t → UnchangedOutside [.ft, .err] s t) ∧
    (exec .build s = .next t → UnchangedOutside [.node, .root, .err] s t) ∧
    (exec .walk s = .next t → UnchangedOutside [.ct, .err] s t) ∧
    (exec .xlate s = .next t → UnchangedOutside [.bits, .err] s t) ∧
    (exec .pack s = .next t → UnchangedOutside [.pay, .rem, .err] s t) ∧
    (exec .hdrEnc s = .next t → UnchangedOutside [.hdr, .err] s t) ∧
    (exec .blob s = .next t → UnchangedOutside [.out, .err] s t) ∧
    (exec .hdrDec s = .next t → UnchangedOutside [.ft, .rem, .poff, .pay, .err] s t) ∧
    (exec .unpack s = .next t → UnchangedOutside [.bits, .err] s t) ∧
    (exec .twalk s = .next t → UnchangedOutside [.out, .err] s t)

/-- R37, R116, the frame of the composites: `ENCODE` and `DECODE` leave `IN` as it is, whatever happens inside; `ENCODE`
leaves `POFF` at 0, `DECODE` leaves `HDR` empty and no code in `CT` (R200, R215). -/
def Obligations.CompositeCommandFrames : Prop :=
  ∀ s t : State,
    (exec .encode s = .next t → t.inBuf = s.inBuf ∧ t.host = s.host ∧ t.caps = s.caps ∧ t.poff = 0#10) ∧
    (exec .decode s = .next t → t.inBuf = s.inBuf ∧ t.host = s.host ∧ t.caps = s.caps ∧ t.hdr = [] ∧
      ∀ b, codeOf t.ct b = none)

/-- R116, R37: a command reads only the elements of its row, so two states that agree on these, on `ERR` and on the
capacities agree after it on its destination elements and on `ERR`. -/
def Obligations.CommandsReadOnlyTheirOperands : Prop :=
  ∀ (i : Instr) (s s' t t' : State), (∀ e ∈ readTable i, Same s s' e) → s.err = s'.err → s.caps = s'.caps →
    exec i s = .next t → exec i s' = .next t' → (∀ e ∈ destTable i, Same t t' e) ∧ t.err = t'.err

/-- R67: with `ERR = 0`, issuing one of these words twice leaves the same state as issuing it once. -/
def Obligations.IdempotentCommands : Prop :=
  ∀ (i : Instr) (s t : State),
    (match i with
      | .inPush _ | .ftPush _ _ | .bitPush _ | .payPush _ => False
      | _ => True) →
    s.err = 0#3 → issue (encode i) s = .next t → issue (encode i) t = .next t

/-! ### The host commands -/

/-- R118: `NOP`, word 0x00000000, leaves the state as it is in every state. -/
def Obligations.NopChangesNothing : Prop :=
  decode 0x00000000#32 = .cmd .nop ∧ ∀ s : State, exec .nop s = .next s ∧ issue 0x00000000#32 s = .next s

/-- R119: `RESET`, word 0x01000000, gives the reset value of every element whatever `ERR` is; a word with opcode 0x01 and a
nonzero operand is illegal; while `ERR` is set no other word does anything, so `RESET` alone
clears it. That the words pending and the capacities stay is the model's choice, log entries 1 and 2. -/
def Obligations.ResetClearsEveryElement : Prop :=
  decode 0x01000000#32 = .cmd .reset ∧
  (∀ s : State, issue 0x01000000#32 s = exec .reset s ∧
    exec .reset s = .next
      { inBuf := [], ft := [], node := [], root := 0#9, ct := Vector.replicate 256 none, bits := [], pay := [],
        rem := 0#3, hdr := [], poff := 0#10, out := [], err := 0#3, host := s.host, caps := s.caps }) ∧
  (∀ w : Word, w.extractLsb' 24 8 = 0x01#8 → w ≠ 0x01000000#32 → ∃ why, decode w = .illegal why) ∧
  ∀ (w : Word) (s : State), decode w ≠ .cmd .reset → s.err ≠ 0#3 → issue w s = .next s

/-- R120, R236: `IN_PUSH imm8` appends the byte to `IN`; beyond a finite `IN_CAP` it raises `Capacity`. -/
def Obligations.InPushAppends : Prop :=
  ∀ (s : State) (b : Byte), decode (0x10000000#32 ||| b.setWidth 32) = .cmd (.inPush b) ∧
    (Within s.caps.inCap (s.inBuf.length + 1) → exec (.inPush b) s = .next { s with inBuf := s.inBuf ++ [b] }) ∧
    (¬ Within s.caps.inCap (s.inBuf.length + 1) → exec (.inPush b) s = .next { s with inBuf := [], err := 7#3 })

/-- R121: `FT_PUSH sym, cnt`: a symbol already present raises `State`; a new one into 255 entries raises
`AlphabetOverflow`; otherwise the entry is appended. -/
def Obligations.FtPushAppendsOrRaises : Prop :=
  ∀ (s : State) (sym : Byte) (cnt : Count),
    decode (0x11000000#32 ||| (sym.setWidth 32 <<< 16) ||| cnt.setWidth 32) = .cmd (.ftPush sym cnt) ∧
    ((∃ e ∈ s.ft, e.sym = sym) → exec (.ftPush sym cnt) s = .next { s with ft := [], err := 6#3 }) ∧
    ((∀ e ∈ s.ft, e.sym ≠ sym) → s.ft.length = 255 →
      exec (.ftPush sym cnt) s = .next { s with ft := [], err := 2#3 }) ∧
    ((∀ e ∈ s.ft, e.sym ≠ sym) → s.ft.length ≠ 255 →
      exec (.ftPush sym cnt) s = .next { s with ft := s.ft ++ [⟨sym, cnt⟩] })

/-- R122, R236: `BIT_PUSH bit` appends the bit to `BITS`. -/
def Obligations.BitPushAppends : Prop :=
  ∀ (s : State) (b : Bit), decode (0x12000000#32 ||| (BitVec.ofBool b).setWidth 32) = .cmd (.bitPush b) ∧
    (Within s.caps.bitsCap (s.bits.length + 1) → exec (.bitPush b) s = .next { s with bits := s.bits ++ [b] }) ∧
    (¬ Within s.caps.bitsCap (s.bits.length + 1) → exec (.bitPush b) s = .next { s with bits := [], err := 7#3 })

/-- R123, R236: `PAY_PUSH imm8` appends the byte to `PAY`. -/
def Obligations.PayPushAppends : Prop :=
  ∀ (s : State) (b : Byte), decode (0x13000000#32 ||| b.setWidth 32) = .cmd (.payPush b) ∧
    (Within s.caps.payCap (s.pay.length + 1) → exec (.payPush b) s = .next { s with pay := s.pay ++ [b] }) ∧
    (¬ Within s.caps.payCap (s.pay.length + 1) → exec (.payPush b) s = .next { s with pay := [], err := 7#3 })

/-- R124: `REM_SET rem3` writes `REM`; a word with opcode 0x14 and a value above 7 is illegal. -/
def Obligations.RemSetWritesRem : Prop :=
  (∀ (s : State) (r : BitVec 3), decode (0x14000000#32 ||| r.setWidth 32) = .cmd (.remSet r) ∧
    exec (.remSet r) s = .next { s with rem := r }) ∧
  ∀ w : Word, 0x14000008#32 ≤ w → w < 0x15000000#32 → ∃ why, decode w = .illegal why

/-! ### The FrequencyCounter -/

/-- R130: on an input the counter accepts, `COUNT` leaves in `FT` the distinct bytes in the order of their first occurrence,
each with the number of its occurrences, and changes nothing else. -/
def Obligations.CountGivesFirstSeenFrequencies : Prop :=
  decode 0x20000000#32 = .cmd .count ∧
  ∀ s : State, ValidInput s.inBuf →
    exec .count s = .next
      { s with ft := s.inBuf.eraseDups.map (fun b => ⟨b, BitVec.ofNat 16 (s.inBuf.count b)⟩) }

/-- R132, R133: `COUNT` on an empty input raises `EmptyInput`; on more than 255 distinct bytes, or a byte more than 65535
times, `AlphabetOverflow`; `FT` is then empty. -/
def Obligations.CountRejects : Prop :=
  ∀ s : State,
    (s.inBuf = [] → exec .count s = .next { s with ft := [], err := 1#3 }) ∧
    (s.inBuf.eraseDups.length > 255 → exec .count s = .next { s with ft := [], err := 2#3 }) ∧
    (∀ b, s.inBuf.count b > 65535 → exec .count s = .next { s with ft := [], err := 2#3 })

/-- R134: the facts of a successful `COUNT`. -/
def Obligations.SuccessfulCountFacts : Prop :=
  ∀ s t : State, s.err = 0#3 → exec .count s = .next t → t.err = 0#3 →
    1 ≤ t.ft.length ∧ t.ft.length ≤ 255 ∧ (t.ft.map (fun e => e.sym)).Nodup ∧
    (∀ e ∈ t.ft, 1 ≤ e.cnt.toNat ∧ e.cnt.toNat ≤ 65535) ∧
    (t.ft.map (fun e => e.cnt.toNat)).sum = s.inBuf.length ∧ s.inBuf.length ≤ 16711425 ∧
    t.ft.head?.map (fun e => e.sym) = s.inBuf.head?

/-! ### The TreeBuilder -/

/-- R141 to R147: on a table of 1 to 255 entries `BUILD` gives the arena of `2n - 1` records: the leaves in table order with
their counts as weights, then, for each merge, the internal node whose children are the two nodes removed first in the order
of R143 from what remains, the first the left child, its weight their exact sum; `ROOT` is the last index. -/
def Obligations.BuildMergesTheTwoLeastEachTime : Prop :=
  decode 0x21000000#32 = .cmd .build ∧
  ∀ s : State, s.ft ≠ [] → s.ft.length ≤ 255 →
    ∃ n : List Node,
      exec .build s = .next { s with node := n, root := BitVec.ofNat 9 (2 * s.ft.length - 2) } ∧ ArenaOf s.ft n

/-- R151, R145: the tree `BUILD` makes is well formed in the sense of R35 (b), and the root's weight is the sum of all
counts: no addition wraps. -/
def Obligations.BuiltTreeIsWellFormedAndWeighsTheTable : Prop :=
  ∀ s : State, s.ft ≠ [] → s.ft.length ≤ 255 →
    ∃ t, exec .build s = .next t ∧ treeOk t.node t.root = true ∧
      weightAt t.node t.root.toNat = (s.ft.map (fun e => e.cnt.toNat)).sum

/-- R149: the shape of the tree, without arena indices, does not depend on the order of the table. -/
def Obligations.TreeShapeIgnoresTableOrder : Prop :=
  ∀ s s' : State, TableOk s.ft → s.ft ≠ [] → s.ft.Perm s'.ft →
    ∃ t t' sh, exec .build s = .next t ∧ exec .build s' = .next t' ∧
      shapeAt t.node t.node.length t.root = some sh ∧ shapeAt t'.node t'.node.length t'.root = some sh

/-! ### The CodeTableGenerator -/

/-- R160, R161, R162: on a tree that meets the invariant `WALK` gives each leaf's symbol the path from the root to it, and
no other symbol a code; under a leaf root the one code is the single bit 0. -/
def Obligations.WalkGivesThePathsFromTheRoot : Prop :=
  decode 0x22000000#32 = .cmd .walk ∧
  ∀ s : State, Inv s → s.node ≠ [] →
    ∃ c : CodeTable, exec .walk s = .next { s with ct := c } ∧
      (isLeafAt s.node s.root = false → ∀ b p, codeOf c b = some p ↔ LeadsTo s.node s.root p b) ∧
      (∀ sym w, s.node[s.root.toNat]? = some (.leaf sym w) →
        ∀ b, codeOf c b = if b = sym then some [false] else none)

/-- R163: after a successful `WALK` no code is a prefix of another symbol's code. -/
def Obligations.WalkedCodesArePrefixFree : Prop :=
  ∀ s t : State, Inv s → s.node ≠ [] → exec .walk s = .next t →
    ∀ a b p q, a ≠ b → codeOf t.ct a = some p → codeOf t.ct b = some q → ¬ p <+: q

/-- R165: after a successful `WALK` on a tree with `n` leaves exactly `n` symbols have codes, each of 1 to `max(1, n - 1)`
bits, and for `n >= 2` the powers `2^(-length)` add up to 1 (here scaled by `2^254`). -/
def Obligations.WalkedCodesFillTheTree : Prop :=
  ∀ s t : State, Inv s → s.node ≠ [] → exec .walk s = .next t →
    t.ct.toList.countP (fun c => c.isSome) = (leafSyms s.node).length ∧
    (∀ b p, codeOf t.ct b = some p → 1 ≤ p.length ∧ p.length ≤ max 1 ((leafSyms s.node).length - 1)) ∧
    (2 ≤ (leafSyms s.node).length →
      (t.ct.toList.map (fun c => match c with
        | some p => 2 ^ (254 - p.length)
        | none => 0)).sum = 2 ^ 254)

/-! ### The bit packer -/

/-- R185, R186, R187, R61: `PACK` leaves `REM = (8 - L mod 8) mod 8` and the bytes of the zero-padded bit string, logical
bit `8j + k` in bit `7 - k` of byte `j`; beyond a finite `PAY_CAP` it raises `Capacity` (R236). -/
def Obligations.PackPlacesEveryBit : Prop :=
  decode 0x24000000#32 = .cmd .pack ∧
  ∀ (s : State) (r : Nat), r = (8 - s.bits.length % 8) % 8 →
    ∃ p : List Byte, p.length = (s.bits.length + r) / 8 ∧
      (∀ j k b, k < 8 → p[j]? = some b → (s.bits ++ List.replicate r false)[8 * j + k]? = some (b.getLsbD (7 - k))) ∧
      (Within s.caps.payCap p.length → exec .pack s = .next { s with pay := p, rem := BitVec.ofNat 3 r }) ∧
      (¬ Within s.caps.payCap p.length → exec .pack s = .next { s with pay := [], rem := 0#3, err := 7#3 })

/-- R189, R190, R191: `UNPACK` gives the payload's bits, bit 7 of each byte first, without the last `REM`; with more padding
than bits it raises `Format`; beyond a finite `BITS_CAP`, `Capacity` (R236). -/
def Obligations.UnpackExpandsAndDropsThePadding : Prop :=
  decode 0x28000000#32 = .cmd .unpack ∧
  ∀ s : State,
    (8 * s.pay.length < s.rem.toNat → exec .unpack s = .next { s with bits := [], err := 3#3 }) ∧
    (s.rem.toNat ≤ 8 * s.pay.length →
      ∃ b : List Bit, UnpackedBits s.pay s.rem.toNat b ∧
        (Within s.caps.bitsCap b.length → exec .unpack s = .next { s with bits := b }) ∧
        (¬ Within s.caps.bitsCap b.length → exec .unpack s = .next { s with bits := [], err := 7#3 }))

/-- R192: what `PACK` made of a bit sequence, `UNPACK` turns back into it. -/
def Obligations.UnpackUndoesPack : Prop :=
  ∀ s : State, Within s.caps.payCap ((s.bits.length + 7) / 8) →
    ∃ t, exec .pack s = .next t ∧
      ∀ u : State, u.pay = t.pay → u.rem = t.rem → Within u.caps.bitsCap s.bits.length →
        exec .unpack u = .next { u with bits := s.bits }

/-- R193: packing an unpacked payload gives the same `REM` and the payload with the low `REM` bits of its last byte
cleared; so exactly the same payload when these bits are zeros. -/
def Obligations.PackAfterUnpackClearsThePadding : Prop :=
  ∀ s : State, s.rem.toNat ≤ 8 * s.pay.length → Within s.caps.bitsCap (8 * s.pay.length - s.rem.toNat) →
    Within s.caps.payCap s.pay.length →
    ∃ t u, exec .unpack s = .next t ∧ exec .pack t = .next u ∧ u.rem = s.rem ∧
      u.pay.length = s.pay.length ∧ (∀ j, j + 1 < s.pay.length → u.pay[j]? = s.pay[j]?) ∧
      (∀ b, s.pay.getLast? = some b → u.pay.getLast? = some (b &&& (0xFF#8 <<< s.rem.toNat))) ∧
      (u.pay = s.pay ↔ ∀ b, s.pay.getLast? = some b → b.toNat % 2 ^ s.rem.toNat = 0)

/-! ### The header codec -/

/-- R172, R173, R174: `HDR_ENC` writes `n`, `REM` and, for each entry in table order, symbol, count low byte, count high byte;
on an empty table it raises `EmptyInput`. -/
def Obligations.HdrEncWritesTheLayout : Prop :=
  decode 0x25000000#32 = .cmd .hdrEnc ∧
  ∀ s : State,
    (s.ft = [] → exec .hdrEnc s = .next { s with hdr := [], err := 1#3 }) ∧
    (s.ft ≠ [] → s.ft.length ≤ 255 →
      ∃ h : List Byte, exec .hdrEnc s = .next { s with hdr := h } ∧ h.length = 2 + 3 * s.ft.length ∧
        h[0]?.map BitVec.toNat = some s.ft.length ∧ h[1]?.map BitVec.toNat = some s.rem.toNat ∧
        ∀ (i : Nat) (e : FreqEntry), s.ft[i]? = some e →
          h[2 + 3 * i]? = some e.sym ∧ h[3 + 3 * i]?.map BitVec.toNat = some (e.cnt.toNat % 256) ∧
          h[4 + 3 * i]?.map BitVec.toNat = some (e.cnt.toNat / 256))

/-- R175: on a blob that passes the five tests `HDR_DEC` gives the entries of the header, the padding count, the payload
offset `2 + 3n` and the bytes from there on; beyond a finite `PAY_CAP` it raises `Capacity` (R236, log entry 3). -/
def Obligations.HdrDecReadsTheLayout : Prop :=
  decode 0x27000000#32 = .cmd .hdrDec ∧
  ∀ (s : State) (n r : Byte), ¬ HeaderBad s.inBuf → s.inBuf[0]? = some n → s.inBuf[1]? = some r →
    ∃ t : List FreqEntry, HeaderTable s.inBuf n.toNat t ∧
      (Within s.caps.payCap (s.inBuf.length - (2 + 3 * n.toNat)) →
        exec .hdrDec s = .next
          { s with
            ft := t, rem := r.setWidth 3, poff := BitVec.ofNat 10 (2 + 3 * n.toNat),
            pay := s.inBuf.drop (2 + 3 * n.toNat) }) ∧
      (¬ Within s.caps.payCap (s.inBuf.length - (2 + 3 * n.toNat)) →
        exec .hdrDec s = .next { s with ft := [], rem := 0#3, poff := 0#10, pay := [], err := 7#3 })

/-- R176: `HDR_DEC` raises `Format` on a blob shorter than 2 bytes, with `n = 0`, shorter than `2 + 3n`, with `rem` above 7,
or with a repeated symbol; its four destinations are then at their reset values. -/
def Obligations.HdrDecRejectsBadHeaders : Prop :=
  ∀ s : State, HeaderBad s.inBuf →
    exec .hdrDec s = .next { s with ft := [], rem := 0#3, poff := 0#10, pay := [], err := 3#3 }

/-- R178: a header made by `HDR_ENC`, followed by any bytes `P`, is read back by `HDR_DEC` as the same table, the same
`REM`, `POFF = |H|` and `PAY = P`. -/
def Obligations.HeaderRoundTrip : Prop :=
  ∀ s : State, TableOk s.ft → s.ft ≠ [] →
    ∃ t, exec .hdrEnc s = .next t ∧
      ∀ (u : State) (p : List Byte), u.inBuf = t.hdr ++ p → Within u.caps.payCap p.length →
        exec .hdrDec u = .next
          { u with ft := s.ft, rem := s.rem, poff := BitVec.ofNat 10 t.hdr.length, pay := p }

/-! ### The Encoder -/

/-- R196, R197: `XLATE` gives the concatenation of the codes of the bytes of `IN`, in order; a byte without a code raises
`State`; beyond a finite `BITS_CAP` it raises `Capacity` (R236). -/
def Obligations.XlateConcatenatesTheCodes : Prop :=
  decode 0x23000000#32 = .cmd .xlate ∧
  ∀ s : State,
    (∀ f : Byte → Code, (∀ b ∈ s.inBuf, codeOf s.ct b = some (f b)) →
      (Within s.caps.bitsCap (s.inBuf.flatMap f).length → exec .xlate s = .next { s with bits := s.inBuf.flatMap f }) ∧
      (¬ Within s.caps.bitsCap (s.inBuf.flatMap f).length → exec .xlate s = .next { s with bits := [], err := 7#3 })) ∧
    ((∃ b ∈ s.inBuf, codeOf s.ct b = none) → exec .xlate s = .next { s with bits := [], err := 6#3 })

/-- R198, R199: `BLOB` gives `HDR ++ PAY`; with no header it raises `State`; beyond a finite `OUT_CAP`, `Capacity`. -/
def Obligations.BlobJoinsHeaderAndPayload : Prop :=
  decode 0x26000000#32 = .cmd .blob ∧
  ∀ s : State,
    (s.hdr = [] → exec .blob s = .next { s with out := [], err := 6#3 }) ∧
    (s.hdr ≠ [] → Within s.caps.outCap (s.hdr.length + s.pay.length) →
      exec .blob s = .next { s with out := s.hdr ++ s.pay }) ∧
    (s.hdr ≠ [] → ¬ Within s.caps.outCap (s.hdr.length + s.pay.length) →
      exec .blob s = .next { s with out := [], err := 7#3 })

/-- R200, R203: with unbounded buffers `ENCODE` completes on every accepted input: no step raises, `IN` and `ERR` are as
before, `FT` is the table of R130, `POFF` is 0, and `OUT` is `HDR ++ PAY`. -/
def Obligations.EncodeCompletesOnEveryAcceptedInput : Prop :=
  decode 0x30000000#32 = .cmd .encode ∧
  ∀ s : State, ValidInput s.inBuf → s.caps = Caps.unbounded →
    ∃ t, exec .encode s = .next t ∧
      UnchangedOutside [.ft, .node, .root, .ct, .bits, .pay, .rem, .hdr, .poff, .out] s t ∧
      t.ft = s.inBuf.eraseDups.map (fun b => ⟨b, BitVec.ofNat 16 (s.inBuf.count b)⟩) ∧ t.poff = 0#10 ∧
      t.out = t.hdr ++ t.pay

/-- R206: after a successful `ENCODE`, with `n = |FT|` and `L = |BITS|`, `OUT` has `2 + 3n + ceil(L / 8)` bytes and begins
with `n` and `REM = (8 - L mod 8) mod 8`, and `L` is the sum of count times code length. -/
def Obligations.SuccessfulEncodeSizes : Prop :=
  ∀ s t : State, s.err = 0#3 → exec .encode s = .next t → t.err = 0#3 →
    t.out.length = 2 + 3 * t.ft.length + (t.bits.length + 7) / 8 ∧
    t.out[0]?.map BitVec.toNat = some t.ft.length ∧ t.out[1]?.map BitVec.toNat = some t.rem.toNat ∧
    t.rem.toNat = (8 - t.bits.length % 8) % 8 ∧
    t.bits.length = (t.ft.map (fun e => e.cnt.toNat * ((codeOf t.ct e.sym).getD []).length)).sum

/-- R202 with unbounded buffers, R132, R133: `ENCODE` on an input it does not accept leaves all derived state at reset values
and `ERR` 1 for an empty input, 2 otherwise. -/
def Obligations.EncodeRejectsWithoutPartialResults : Prop :=
  ∀ s : State,
    (s.inBuf = [] → exec .encode s = .next { withDerivedCleared s with err := 1#3 }) ∧
    (s.inBuf ≠ [] → ¬ ValidInput s.inBuf → exec .encode s = .next { withDerivedCleared s with err := 2#3 })

/-- R204, R200: with `ERR = 0`, `ENCODE` leaves the state that its seven unit commands leave, issued in order from the state
with all derived state at reset values. -/
def Obligations.EncodeIsItsUnitCommandsInSequence : Prop :=
  ∀ s : State, s.err = 0#3 →
    exec .encode s = execSeq [.count, .build, .walk, .xlate, .pack, .hdrEnc, .blob] (withDerivedCleared s)

/-- R205: what `ENCODE` leaves in `OUT`, and in each of the nine other derived elements (R17), is a function of `IN` alone. -/
def Obligations.EncodeDependsOnInAlone : Prop :=
  ∀ s s' t t' : State, s.inBuf = s'.inBuf → s.caps = s'.caps → exec .encode s = .next t → exec .encode s' = .next t' →
    t.out = t'.out ∧ t.ft = t'.ft ∧ t.node = t'.node ∧ t.root = t'.root ∧ t.ct = t'.ct ∧ t.bits = t'.bits ∧
    t.pay = t'.pay ∧ t.rem = t'.rem ∧ t.hdr = t'.hdr ∧ t.poff = t'.poff

/-- R179: in the blob of a successful `ENCODE` the first byte is the number of distinct bytes of the input, and the counts
of the entries add up to its length. -/
def Obligations.EncodedHeaderIsSelfConsistent : Prop :=
  ∀ s t : State, s.err = 0#3 → exec .encode s = .next t → t.err = 0#3 →
    t.out[0]?.map BitVec.toNat = some s.inBuf.eraseDups.length ∧
    ((List.range s.inBuf.eraseDups.length).map
      (fun i => (t.out.getD (3 + 3 * i) 0#8).toNat ||| ((t.out.getD (4 + 3 * i) 0#8).toNat <<< 8))).sum = s.inBuf.length

/-! ### The Decoder -/

/-- R211: under an internal root, when the bits are the paths from the root to leaves, one after the other, `TWALK` gives the
leaves' symbols in order (none for no bits); beyond a finite `OUT_CAP` it raises `Capacity` (R236). -/
def Obligations.TwalkDecodesPathsFromTheRoot : Prop :=
  decode 0x29000000#32 = .cmd .twalk ∧
  ∀ (s : State) (pairs : List (Byte × Code)), Inv s → s.node ≠ [] → isLeafAt s.node s.root = false →
    IsPathsOf s.node s.root s.bits pairs →
    (Within s.caps.outCap pairs.length → exec .twalk s = .next { s with out := pairs.map (fun p => p.1) }) ∧
    (¬ Within s.caps.outCap pairs.length → exec .twalk s = .next { s with out := [], err := 7#3 })

/-- R213: under an internal root, when the bits are no sequence of paths from the root to leaves, the last bit did not
complete a symbol and `TWALK` raises `TruncatedStream`, delivering nothing. -/
def Obligations.TwalkRaisesOnATruncatedStream : Prop :=
  ∀ s : State, Inv s → s.node ≠ [] → isLeafAt s.node s.root = false →
    (∀ pairs, ¬ IsPathsOf s.node s.root s.bits pairs) →
    exec .twalk s = .next { s with out := [], err := 4#3 }

/-- R212: under a leaf root `TWALK` gives one copy of its symbol per bit, whatever the bits are;
only a finite `OUT_CAP` can make it raise (R236). -/
def Obligations.TwalkUnderALeafRootCopiesTheSymbol : Prop :=
  ∀ (s : State) (sym : Byte) (w : Weight), s.node[s.root.toNat]? = some (.leaf sym w) →
    (Within s.caps.outCap s.bits.length →
      exec .twalk s = .next { s with out := List.replicate s.bits.length sym }) ∧
    (¬ Within s.caps.outCap s.bits.length → exec .twalk s = .next { s with out := [], err := 7#3 })

/-- R148, R164, R214: `BUILD` of an empty table raises `EmptyInput` and leaves the empty tree; `WALK` of the empty tree
raises `State` and no symbol has a code then; `TWALK` without a tree raises `State`. -/
def Obligations.UnitsWithoutTheirElementRaise : Prop :=
  ∀ s : State,
    (s.ft = [] → exec .build s = .next { s with node := [], root := 0#9, err := 1#3 }) ∧
    (s.node = [] → exec .walk s = .next { s with ct := Vector.replicate 256 none, err := 6#3 }) ∧
    (s.node = [] → exec .twalk s = .next { s with out := [], err := 6#3 })

/-- R215, R212: with unbounded buffers `DECODE` of a one-symbol blob whose padding is inside its payload gives the symbol
once per payload bit that is no padding, with every intermediate result; `HDR` is empty and `CT` has no code. -/
def Obligations.DecodeOfAOneSymbolBlob : Prop :=
  decode 0x31000000#32 = .cmd .decode ∧
  ∀ (s : State) (sym : Byte) (cnt : Count) (rem : BitVec 3) (p : List Byte), s.caps = Caps.unbounded →
    rem.toNat ≤ 8 * p.length →
    s.inBuf = [1#8, rem.setWidth 8, sym, cnt.extractLsb' 0 8, cnt.extractLsb' 8 8] ++ p →
    ∃ b : List Bit, b.length = 8 * p.length - rem.toNat ∧
      exec .decode s = .next
        { s with
          ft := [⟨sym, cnt⟩], node := [.leaf sym (cnt.setWidth 24)], root := 0#9, ct := Vector.replicate 256 none,
          bits := b, pay := p, rem := rem, hdr := [], poff := 5#10, out := List.replicate b.length sym }

/-- R215, R216, R211 to R213: every way `DECODE` ends with unbounded buffers, from the blob alone. A bad header leaves all
derived state at reset values and `ERR` 3. Else `FT` is the header's table, `NODE` its tree, and `PAY` the bytes after the
header. With more padding than payload bits `UNPACK` raises `Format`. Else `BITS` is the payload's bits without the padding,
and `OUT` is, under a leaf root (one entry), one copy of the symbol per bit; under an internal root, the symbols of the paths
the bits are, or, where they are no sequence of paths to leaves, nothing and `ERR` 4. -/
def Obligations.DecodeEndsAsTheBlobSays : Prop :=
  ∀ s : State,
    (HeaderBad s.inBuf → exec .decode s = .next { withDerivedCleared s with err := 3#3 }) ∧
    ∀ n r : Byte, s.caps = Caps.unbounded → ¬ HeaderBad s.inBuf → s.inBuf[0]? = some n → s.inBuf[1]? = some r →
      ∃ (ft : List FreqEntry) (node : List Node), HeaderTable s.inBuf n.toNat ft ∧ ArenaOf ft node ∧
        ∀ (pay : List Byte) (root : NodeIdx) (t : State),
          pay = s.inBuf.drop (2 + 3 * n.toNat) → root = BitVec.ofNat 9 (2 * n.toNat - 2) →
          t = { withDerivedCleared s with
                ft := ft, node := node, root := root, rem := r.setWidth 3, poff := BitVec.ofNat 10 (2 + 3 * n.toNat),
                pay := pay } →
          (8 * pay.length < r.toNat → exec .decode s = .next { t with err := 3#3 }) ∧
          (r.toNat ≤ 8 * pay.length →
            ∃ b : List Bit, UnpackedBits pay r.toNat b ∧
              (∀ e, ft = [e] → exec .decode s = .next { t with bits := b, out := List.replicate b.length e.sym }) ∧
              (n.toNat ≠ 1 →
                (∀ pairs, IsPathsOf node root b pairs →
                  exec .decode s = .next { t with bits := b, out := pairs.map (fun p => p.1) }) ∧
                ((∀ pairs, ¬ IsPathsOf node root b pairs) → exec .decode s = .next { t with bits := b, err := 4#3 })))

/-- R218, R215: with `ERR = 0`, `DECODE` leaves the state that its four unit commands leave, issued in order from the state
with all derived state at reset values. -/
def Obligations.DecodeIsItsUnitCommandsInSequence : Prop :=
  ∀ s : State, s.err = 0#3 →
    exec .decode s = execSeq [.hdrDec, .build, .unpack, .twalk] (withDerivedCleared s)

/-- R219: from reset, loading `S` and issuing `ENCODE` succeeds exactly for the inputs with 1 to 255 distinct bytes, none
more than 65535 times; and then, from reset, loading the `OUT` it left and issuing `DECODE` gives `ERR = 0` and `OUT = S`. -/
def Obligations.DecodeOfEncodeIsTheInput : Prop :=
  ∀ input : List Byte,
    ∃ t, runWords (protocolWords input .encode) State.reset = .next t ∧ (t.err = 0#3 ↔ ValidInput input) ∧
      (ValidInput input →
        ∃ u, runWords (protocolWords t.out .decode) State.reset = .next u ∧ u.err = 0#3 ∧ u.out = input)
end

