-- ==== Sys2Proof/Laws/BitPacker.lean ====
section
/-! SUPPORT. Packing and unpacking (spec/45_bit_packer.md R185 to R194). -/

namespace Sys2Proof.Machine

@[simp] theorem bitsOfByte_byteOfBits (b0 b1 b2 b3 b4 b5 b6 b7 : Bit) :
    bitsOfByte (byteOfBits b0 b1 b2 b3 b4 b5 b6 b7) = [b0, b1, b2, b3, b4, b5, b6, b7] := by
  revert b0 b1 b2 b3 b4 b5 b6 b7
  decide

@[simp] theorem length_bitsOfByte (p : Byte) : (bitsOfByte p).length = 8 := rfl

theorem byteOfBits_bitsOfByte (p : Byte) :
    byteOfBits (p.getLsbD 7) (p.getLsbD 6) (p.getLsbD 5) (p.getLsbD 4) (p.getLsbD 3) (p.getLsbD 2) (p.getLsbD 1)
      (p.getLsbD 0) = p := by
  revert p
  decide +kernel

/-- Bit `i` of a byte's bits is its bit `7 - i` (spec/20_memory.md R61). -/
theorem bitsOfByte_getElem? (p : Byte) (i : Nat) (hi : i < 8) : (bitsOfByte p)[i]? = some (p.getLsbD (7 - i)) := by
  interval_cases i <;> rfl

@[simp] theorem length_payloadBits (p : List Byte) : (payloadBits p).length = 8 * p.length := by
  induction p with
  | nil => rfl
  | cons b p ih =>
    have : payloadBits (b :: p) = bitsOfByte b ++ payloadBits p := rfl
    simp [this, ih]
    omega

/-- Bit `i` of the payload's bits is bit `7 - i mod 8` of byte `i div 8`. -/
theorem payloadBits_getElem? (p : List Byte) (i : Nat) :
    (payloadBits p)[i]? = p[i / 8]?.map (fun b => b.getLsbD (7 - i % 8)) := by
  induction p generalizing i with
  | nil => simp [payloadBits]
  | cons b p ih =>
    have hc : payloadBits (b :: p) = bitsOfByte b ++ payloadBits p := rfl
    rw [hc]
    by_cases h : i < 8
    · rw [List.getElem?_append_left (by simpa using h), bitsOfByte_getElem? b i h]
      have h0 : i / 8 = 0 := by omega
      have h1 : i % 8 = i := by omega
      simp [h0, h1]
    · rw [List.getElem?_append_right (by simpa using h), length_bitsOfByte, ih]
      have h0 : i / 8 = (i - 8) / 8 + 1 := by omega
      have h1 : i % 8 = (i - 8) % 8 := by omega
      simp [h0, h1]

/-- A padded bit string has a whole number of bytes (R185). -/
theorem length_padded (b : List Bit) : (padded b).length = b.length + padCount b.length := by simp [padded, rep]

theorem padCount_le (n : Nat) : padCount n ≤ 7 := by simp [padCount]; omega

theorem padded_mod (n : Nat) : (n + padCount n) % 8 = 0 := by simp only [padCount]; omega

/-- Grouping and expanding are inverse on whole bytes. -/
theorem payloadBits_groupBytes (k : Nat) (b : List Bit) (h : b.length = 8 * k) :
    payloadBits (groupBytes b) = b ∧ (groupBytes b).length = k := by
  induction k generalizing b with
  | zero =>
    have : b = [] := List.length_eq_zero_iff.1 (by omega)
    subst this
    exact ⟨rfl, rfl⟩
  | succ k ih =>
    match b, h with
    | b0 :: b1 :: b2 :: b3 :: b4 :: b5 :: b6 :: b7 :: rest, h =>
      simp only [List.length_cons] at h
      obtain ⟨h1, h2⟩ := ih rest (by omega)
      have hc : payloadBits (byteOfBits b0 b1 b2 b3 b4 b5 b6 b7 :: groupBytes rest) =
          bitsOfByte (byteOfBits b0 b1 b2 b3 b4 b5 b6 b7) ++ payloadBits (groupBytes rest) := rfl
      exact ⟨by rw [groupBytes, hc, h1, bitsOfByte_byteOfBits]; rfl, by simp [groupBytes, h2]⟩
    | [], h => simp at h
    | [_], h => simp at h; omega
    | [_, _], h => simp at h; omega
    | [_, _, _], h => simp at h; omega
    | [_, _, _, _], h => simp at h; omega
    | [_, _, _, _, _], h => simp at h; omega
    | [_, _, _, _, _, _], h => simp at h; omega
    | [_, _, _, _, _, _, _], h => simp at h; omega

theorem groupBytes_payloadBits (p : List Byte) : groupBytes (payloadBits p) = p := by
  induction p with
  | nil => rfl
  | cons b p ih =>
    have hc : payloadBits (b :: p) =
        b.getLsbD 7 :: b.getLsbD 6 :: b.getLsbD 5 :: b.getLsbD 4 :: b.getLsbD 3 :: b.getLsbD 2 :: b.getLsbD 1 ::
          b.getLsbD 0 :: payloadBits p := rfl
    rw [hc, groupBytes, ih, byteOfBits_bitsOfByte]

/-- The packed bytes hold the padded bits, and are `ceil(L / 8)` of them (R185, R97). -/
theorem groupBytes_padded (b : List Bit) :
    payloadBits (groupBytes (padded b)) = padded b ∧
      (groupBytes (padded b)).length = (b.length + padCount b.length) / 8 := by
  apply payloadBits_groupBytes
  have := padded_mod b.length
  rw [length_padded]
  omega

end Sys2Proof.Machine
end

