-- ==== Sys2Proof/Laws/State.lean ====
section
/-! SUPPORT. What reset, clearing an element and taking an exception do to each field of the state. -/

namespace Sys2Proof.Machine

/-! The reset value of each element (R39), and of the two fields beside them. -/

@[simp] theorem reset_block : State.reset.toBlockState = BlockState.reset := rfl
@[simp] theorem reset_inBuf : BlockState.reset.inBuf = [] := rfl
@[simp] theorem reset_ft : BlockState.reset.ft = [] := rfl
@[simp] theorem reset_node : BlockState.reset.node = [] := rfl
@[simp] theorem reset_root : BlockState.reset.root = 0#9 := rfl
@[simp] theorem reset_ct : BlockState.reset.ct = noCodes := rfl
@[simp] theorem reset_bits : BlockState.reset.bits = [] := rfl
@[simp] theorem reset_pay : BlockState.reset.pay = [] := rfl
@[simp] theorem reset_rem : BlockState.reset.rem = 0#3 := rfl
@[simp] theorem reset_hdr : BlockState.reset.hdr = [] := rfl
@[simp] theorem reset_poff : BlockState.reset.poff = 0#10 := rfl
@[simp] theorem reset_out : BlockState.reset.out = [] := rfl
@[simp] theorem reset_err : BlockState.reset.err = 0#3 := rfl
@[simp] theorem reset_host : State.reset.host = [] := rfl
@[simp] theorem reset_caps : State.reset.caps = Caps.unbounded := rfl

/-- `RESET` gives the block its reset state and touches nothing else (R260). -/
@[simp] theorem hardwareReset_block (s : State) : (hardwareReset s).toBlockState = BlockState.reset := rfl
@[simp] theorem hardwareReset_host (s : State) : (hardwareReset s).host = s.host := rfl
@[simp] theorem hardwareReset_caps (s : State) : (hardwareReset s).caps = s.caps := rfl

/-! Clearing an element. -/

@[simp] theorem clear_inBuf (s : State) : clear s .inBuf = { s with inBuf := [] } := rfl
@[simp] theorem clear_ft (s : State) : clear s .ft = { s with ft := [] } := rfl
@[simp] theorem clear_node (s : State) : clear s .node = { s with node := [] } := rfl
@[simp] theorem clear_root (s : State) : clear s .root = { s with root := 0#9 } := rfl
@[simp] theorem clear_ct (s : State) : clear s .ct = { s with ct := noCodes } := rfl
@[simp] theorem clear_bits (s : State) : clear s .bits = { s with bits := [] } := rfl
@[simp] theorem clear_pay (s : State) : clear s .pay = { s with pay := [] } := rfl
@[simp] theorem clear_rem (s : State) : clear s .rem = { s with rem := 0#3 } := rfl
@[simp] theorem clear_hdr (s : State) : clear s .hdr = { s with hdr := [] } := rfl
@[simp] theorem clear_poff (s : State) : clear s .poff = { s with poff := 0#10 } := rfl
@[simp] theorem clear_out (s : State) : clear s .out = { s with out := [] } := rfl
@[simp] theorem clear_err (s : State) : clear s .err = { s with err := 0#3 } := rfl

@[simp] theorem clearAll_nil (s : State) : clearAll [] s = s := rfl
@[simp] theorem clearAll_cons (e : Elem) (es : List Elem) (s : State) :
    clearAll (e :: es) s = clearAll es (clear s e) := rfl

/-- Clearing elements touches neither the words pending nor the capacities. -/
@[simp] theorem clear_host (s : State) (e : Elem) : (clear s e).host = s.host := by cases e <;> rfl
@[simp] theorem clear_caps (s : State) (e : Elem) : (clear s e).caps = s.caps := by cases e <;> rfl
@[simp] theorem clearAll_host (es : List Elem) (s : State) : (clearAll es s).host = s.host := by
  induction es generalizing s with
  | nil => rfl
  | cons e es ih => simp [ih]
@[simp] theorem clearAll_caps (es : List Elem) (s : State) : (clearAll es s).caps = s.caps := by
  induction es generalizing s with
  | nil => rfl
  | cons e es ih => simp [ih]

/-- What a raise does: the code in `ERR`, the destinations cleared, the rest kept (spec/60_exceptions.md R231). -/
@[simp] theorem raise_err (es : List Elem) (e : Exc) (s : State) : (raise es e s).err = errCode e := rfl
@[simp] theorem raise_host (es : List Elem) (e : Exc) (s : State) : (raise es e s).host = s.host := by simp [raise]
@[simp] theorem raise_caps (es : List Elem) (e : Exc) (s : State) : (raise es e s).caps = s.caps := by simp [raise]
theorem raise_nil (e : Exc) (s : State) : raise [] e s = { s with err := errCode e } := rfl
theorem raise_inBuf (e : Exc) (s : State) : raise [.inBuf] e s = { s with inBuf := [], err := errCode e } := rfl
theorem raise_ft (e : Exc) (s : State) : raise [.ft] e s = { s with ft := [], err := errCode e } := rfl
theorem raise_tree (e : Exc) (s : State) :
    raise [.node, .root] e s = { s with node := [], root := 0#9, err := errCode e } := rfl
theorem raise_ct (e : Exc) (s : State) : raise [.ct] e s = { s with ct := noCodes, err := errCode e } := rfl
theorem raise_bits (e : Exc) (s : State) : raise [.bits] e s = { s with bits := [], err := errCode e } := rfl
theorem raise_pay (e : Exc) (s : State) : raise [.pay] e s = { s with pay := [], err := errCode e } := rfl
theorem raise_packed (e : Exc) (s : State) :
    raise [.pay, .rem] e s = { s with pay := [], rem := 0#3, err := errCode e } := rfl
theorem raise_hdr (e : Exc) (s : State) : raise [.hdr] e s = { s with hdr := [], err := errCode e } := rfl
theorem raise_out (e : Exc) (s : State) : raise [.out] e s = { s with out := [], err := errCode e } := rfl
theorem raise_parsed (e : Exc) (s : State) :
    raise [.ft, .rem, .poff, .pay] e s =
      { s with ft := [], rem := 0#3, poff := 0#10, pay := [], err := errCode e } := rfl

/-- `ClearDerived` written out (spec/46_encoder.md R201). -/
theorem clearDerived_eq (s : State) :
    clearDerived s =
      { s with
        ft := [], node := [], root := 0#9, ct := noCodes, bits := [], pay := [], rem := 0#3, hdr := [], poff := 0#10,
        out := [] } := rfl
@[simp] theorem clearDerived_inBuf (s : State) : (clearDerived s).inBuf = s.inBuf := rfl
@[simp] theorem clearDerived_err (s : State) : (clearDerived s).err = s.err := rfl
@[simp] theorem clearDerived_host (s : State) : (clearDerived s).host = s.host := rfl
@[simp] theorem clearDerived_caps (s : State) : (clearDerived s).caps = s.caps := rfl

/-- A code never is 0: a raise sets `ERR`. -/
@[simp] theorem errCode_ne_zero (e : Exc) : errCode e ≠ 0#3 := by cases e <;> decide

/-- Distinct exceptions have distinct codes. -/
theorem errCode_injective {e e' : Exc} (h : errCode e = errCode e') : e = e' := by
  cases e <;> cases e' <;> first | rfl | exact absurd h (by decide)

end Sys2Proof.Machine
end

