-- ==== Sys2Proof/Laws/Ops.lean ====
section
/-! SUPPORT. What each shared operation can do: the capacity test, the end of a command, running units one after another,
the code table's entries; and that every write of a bounded buffer keeps `Memory.wf`. -/

namespace Sys2Proof.Machine

@[simp] theorem fits_none (n : Nat) : fits none n = true := rfl

/-- The test of the model is the condition of R236. -/
theorem fits_iff_within (cap : Cap) (n : Nat) : fits cap n = true ↔ Within cap n := by
  cases cap with
  | none => simp [Within]
  | some c => simp [fits, Within]

theorem fits_zero (cap : Cap) : fits cap 0 = true := by cases cap <;> simp [fits]

/-- The two ends of a command whose pseudocode ran through. -/
theorem commit_cases (i : Instr) (fit : Bool) (s t : State) :
    (fit = true ∧ commit i fit s t = .done t) ∨
    (fit = false ∧ commit i fit s t = .raised (raise (dests i) .capacity s)) := by
  cases fit <;> simp [commit]

@[simp] theorem commit_true (i : Instr) (s t : State) : commit i true s t = .done t := rfl
@[simp] theorem commit_false (i : Instr) (s t : State) :
    commit i false s t = .raised (raise (dests i) .capacity s) := rfl

@[simp] theorem andThen_done (s : State) (f : State → Result) : andThen (.done s) f = f s := rfl
@[simp] theorem andThen_raised (s : State) (f : State → Result) : andThen (.raised s) f = .raised s := rfl
@[simp] theorem andThen_stopped (x : Stop) (f : State → Result) : andThen (.stopped x) f = .stopped x := rfl

/-- How two units one after the other can end. -/
theorem andThen_cases (r : Result) (f : State → Result) :
    (∃ s, r = .done s ∧ andThen r f = f s) ∨ (∃ s, r = .raised s ∧ andThen r f = .raised s) ∨
    (∃ x, r = .stopped x ∧ andThen r f = .stopped x) := by
  cases r with
  | done s => exact .inl ⟨s, rfl, rfl⟩
  | raised s => exact .inr (.inl ⟨s, rfl, rfl⟩)
  | stopped x => exact .inr (.inr ⟨x, rfl, rfl⟩)

@[simp] theorem outcome_done (s : State) : outcome (.done s) = .next s := rfl
@[simp] theorem outcome_raised (s : State) : outcome (.raised s) = .next s := rfl

/-- A command has a next state exactly when its run completes or raises. -/
theorem outcome_next_iff (r : Result) (t : State) : outcome r = .next t ↔ r = .done t ∨ r = .raised t := by
  cases r with
  | done s => simp [outcome]
  | raised s => simp [outcome]
  | stopped x => cases x <;> simp [outcome]

/-- The end of a bounded write, as the host sees it. -/
theorem outcome_commit (i : Instr) (fit : Bool) (s t : State) :
    outcome (commit i fit s t) = .next (if fit then t else raise (dests i) .capacity s) := by
  cases fit <;> rfl

/-- An entry of the table by its index. -/
theorem codeOf_eq_getElem (t : CodeTable) (b : Byte) (h : b.toNat < 256) : codeOf t b = t[b.toNat] := rfl

@[simp] theorem codeOf_noCodes (b : Byte) : codeOf noCodes b = none := by
  rw [codeOf_eq_getElem _ _ b.isLt]
  simp [noCodes]

@[simp] theorem codeOf_setCode_same (c : CodeTable) (b : Byte) (p : Code) : codeOf (setCode c b p) b = some p := by
  rw [codeOf_eq_getElem _ _ b.isLt]
  simp [setCode]

/-- Writing the code of one symbol leaves every other symbol's code. -/
theorem codeOf_setCode_ne (c : CodeTable) {a b : Byte} (p : Code) (h : a ≠ b) :
    codeOf (setCode c a p) b = codeOf c b := by
  have hne : a.toNat ≠ b.toNat := fun e => h (BitVec.eq_of_toNat_eq e)
  rw [codeOf_eq_getElem _ _ b.isLt, codeOf_eq_getElem _ _ b.isLt]
  simp [setCode, hne]

theorem codeOf_setCode (c : CodeTable) (a b : Byte) (p : Code) :
    codeOf (setCode c a p) b = if a = b then some p else codeOf c b := by
  by_cases h : a = b
  · subst h; simp
  · simp [h, codeOf_setCode_ne c p h]

/-- Two code tables with the same entries are the same table. -/
theorem codeTable_ext {c d : CodeTable} (h : ∀ b : Byte, codeOf c b = codeOf d b) : c = d := by
  apply Vector.ext
  intro i hi
  have hb : (BitVec.ofNat 8 i).toNat = i := by simp; omega
  have := h (BitVec.ofNat 8 i)
  rw [codeOf_eq_getElem _ _ (BitVec.isLt _), codeOf_eq_getElem _ _ (BitVec.isLt _)] at this
  simpa only [hb] using this

/-! Every write of a bounded buffer that passes the capacity test keeps the form of the memories, and so does clearing. -/

theorem wf_write_in {s : State} (v : List Byte) (h : Memory.wf s = true) (hv : fits s.caps.inCap v.length = true) :
    Memory.wf { s with inBuf := v } = true := by
  simp only [Memory.wf, Bool.and_eq_true] at h ⊢
  exact ⟨⟨⟨hv, h.1.1.2⟩, h.1.2⟩, h.2⟩

theorem wf_write_bits {s : State} (v : List Bit) (h : Memory.wf s = true) (hv : fits s.caps.bitsCap v.length = true) :
    Memory.wf { s with bits := v } = true := by
  simp only [Memory.wf, Bool.and_eq_true] at h ⊢
  exact ⟨⟨⟨h.1.1.1, hv⟩, h.1.2⟩, h.2⟩

theorem wf_write_pay {s : State} (v : List Byte) (h : Memory.wf s = true) (hv : fits s.caps.payCap v.length = true) :
    Memory.wf { s with pay := v } = true := by
  simp only [Memory.wf, Bool.and_eq_true] at h ⊢
  exact ⟨⟨h.1.1, hv⟩, h.2⟩

theorem wf_write_out {s : State} (v : List Byte) (h : Memory.wf s = true) (hv : fits s.caps.outCap v.length = true) :
    Memory.wf { s with out := v } = true := by
  simp only [Memory.wf, Bool.and_eq_true] at h ⊢
  exact ⟨h.1, hv⟩

theorem wf_clear {s : State} (e : Elem) (h : Memory.wf s = true) : Memory.wf (clear s e) = true := by
  cases e
  case inBuf => exact wf_write_in [] h (fits_zero _)
  case bits => exact wf_write_bits [] h (fits_zero _)
  case pay => exact wf_write_pay [] h (fits_zero _)
  case out => exact wf_write_out [] h (fits_zero _)
  all_goals exact h

theorem wf_clearAll (es : List Elem) {s : State} (h : Memory.wf s = true) : Memory.wf (clearAll es s) = true := by
  induction es generalizing s with
  | nil => exact h
  | cons e es ih => exact ih (wf_clear e h)

theorem wf_raise (es : List Elem) (e : Exc) {s : State} (h : Memory.wf s = true) :
    Memory.wf (raise es e s) = true := wf_clearAll es h

end Sys2Proof.Machine
end

