-- ==== Sys2Proof/Laws/Block.lean ====
section
/-! SUPPORT. The block's state is its twelve elements and nothing else (spec/10_state.md R20): no command and no word reads or
writes the words pending, so the spec's step function is a function of the block's state and the capacities. -/

namespace Sys2Proof.Machine

/-- The same block and capacities, with other words pending. -/
def State.withHost (h : List Word) (s : State) : State := { s with host := h }

/-- A run with its state changed by `f`. -/
def Result.map (f : State → State) : Result → Result
  | .done s => .done (f s)
  | .raised s => .raised (f s)
  | .stopped x => .stopped x

/-- An outcome with its state changed by `f`. -/
def mapNext (f : State → State) : Host.Outcome State Fault Refusal → Host.Outcome State Fault Refusal
  | .next s => .next (f s)
  | .fault r => .fault r
  | .refused r => .refused r

@[simp] theorem withHost_block (h : List Word) (s : State) : (s.withHost h).toBlockState = s.toBlockState := rfl
@[simp] theorem withHost_host (h : List Word) (s : State) : (s.withHost h).host = h := rfl
@[simp] theorem withHost_caps (h : List Word) (s : State) : (s.withHost h).caps = s.caps := rfl
@[simp] theorem withHost_self (s : State) : s.withHost s.host = s := rfl

theorem clear_withHost (h : List Word) (s : State) (e : Elem) : clear (s.withHost h) e = (clear s e).withHost h := by
  cases e <;> rfl

theorem clearAll_withHost (h : List Word) (es : List Elem) (s : State) :
    clearAll es (s.withHost h) = (clearAll es s).withHost h := by
  induction es generalizing s with
  | nil => rfl
  | cons e es ih => simp only [clearAll_cons, clear_withHost, ih]

theorem raise_withHost (h : List Word) (es : List Elem) (e : Exc) (s : State) :
    raise es e (s.withHost h) = (raise es e s).withHost h := by
  simp only [raise, clearAll_withHost]; rfl

theorem commit_withHost {h : List Word} {i : Instr} {fit : Bool} {s t u : State} (hu : u = t.withHost h) :
    commit i fit (s.withHost h) u = (commit i fit s t).map (State.withHost h) := by
  subst hu
  cases fit <;> simp [Result.map, raise_withHost]

theorem outcome_map (f : State → State) (r : Result) : outcome (r.map f) = mapNext f (outcome r) := by
  cases r with
  | stopped x => cases x <;> rfl
  | _ => rfl

/-- A unit that ignores the words pending. -/
def IgnoresHost (run : State → Result) : Prop :=
  ∀ h s, run (State.withHost h s) = (run s).map (State.withHost h)

theorem IgnoresHost.andThen {f g : State → Result} (hf : IgnoresHost f) (hg : IgnoresHost g) :
    IgnoresHost (fun s => Sys2Proof.Machine.andThen (f s) g) := by
  intro h s
  simp only [hf h s]
  cases f s <;> simp [Result.map, Sys2Proof.Machine.andThen, hg h]

theorem runCount_ignoresHost : IgnoresHost runCount := by
  intro h s
  simp only [runCount, raise_withHost, withHost_block]
  split
  · rfl
  · split
    · rfl
    · split <;> rfl

theorem runBuild_ignoresHost : IgnoresHost runBuild := by
  intro h s
  simp only [runBuild, raise_withHost, withHost_block]
  split <;> rfl

theorem runWalk_ignoresHost : IgnoresHost runWalk := by
  intro h s
  simp only [runWalk, raise_withHost, withHost_block]
  split
  · rfl
  · split
    · rfl
    · rfl
    · split <;> rfl

theorem runXlate_ignoresHost : IgnoresHost runXlate := by
  intro h s
  simp only [runXlate, raise_withHost, withHost_block, withHost_caps]
  split
  · rfl
  · exact commit_withHost rfl

theorem runPack_ignoresHost : IgnoresHost runPack := fun _ _ => commit_withHost rfl

theorem runHdrEnc_ignoresHost : IgnoresHost runHdrEnc := by
  intro h s
  simp only [runHdrEnc, raise_withHost, withHost_block]
  split <;> rfl

theorem runBlob_ignoresHost : IgnoresHost runBlob := by
  intro h s
  simp only [runBlob, raise_withHost, withHost_block, withHost_caps]
  split
  · rfl
  · exact commit_withHost rfl

theorem runHdrDec_ignoresHost : IgnoresHost runHdrDec := by
  intro h s
  simp only [runHdrDec, raise_withHost, withHost_block, withHost_caps]
  split
  · split
    · rfl
    · split
      · rfl
      · split
        · rfl
        · split
          · rfl
          · exact commit_withHost rfl
  · rfl

theorem runUnpack_ignoresHost : IgnoresHost runUnpack := by
  intro h s
  simp only [runUnpack, raise_withHost, withHost_block, withHost_caps]
  split
  · rfl
  · exact commit_withHost rfl

theorem runTwalk_ignoresHost : IgnoresHost runTwalk := by
  intro h s
  simp only [runTwalk, raise_withHost, withHost_block, withHost_caps]
  split
  · rfl
  · split
    · rfl
    · exact commit_withHost rfl
    · split
      · rfl
      · split
        · rfl
        · exact commit_withHost rfl

theorem runEncode_ignoresHost : IgnoresHost runEncode := by
  intro h s
  have := (runCount_ignoresHost.andThen runBuild_ignoresHost |>.andThen runWalk_ignoresHost
    |>.andThen runXlate_ignoresHost |>.andThen runPack_ignoresHost |>.andThen runHdrEnc_ignoresHost
    |>.andThen runBlob_ignoresHost) h (clearDerived s)
  rw [← show clearDerived (s.withHost h) = (clearDerived s).withHost h from clearAll_withHost h _ s] at this
  exact this

theorem runDecode_ignoresHost : IgnoresHost runDecode := by
  intro h s
  have := (runHdrDec_ignoresHost.andThen runBuild_ignoresHost |>.andThen runUnpack_ignoresHost
    |>.andThen runTwalk_ignoresHost) h (clearDerived s)
  rw [← show clearDerived (s.withHost h) = (clearDerived s).withHost h from clearAll_withHost h _ s] at this
  exact this

theorem outcome_ignoresHost {run : State → Result} (hr : IgnoresHost run) (h : List Word) (s : State) :
    outcome (run (s.withHost h)) = mapNext (State.withHost h) (outcome (run s)) := by
  rw [hr, outcome_map]

/-- No command reads or writes the words pending: the block's next state is a function of its twelve elements and the
capacities. -/
theorem exec_withHost (i : Instr) (h : List Word) (s : State) :
    exec i (s.withHost h) = mapNext (State.withHost h) (exec i s) := by
  cases i with
  | nop => rfl
  | reset => rfl
  | inPush b =>
    simp only [exec, execInPush, ← outcome_map]
    exact congrArg outcome (commit_withHost rfl)
  | ftPush x c =>
    simp only [exec, execFtPush, withHost_block, raise_withHost]
    split
    · rfl
    · split <;> rfl
  | bitPush b =>
    simp only [exec, execBitPush, ← outcome_map]
    exact congrArg outcome (commit_withHost rfl)
  | payPush b =>
    simp only [exec, execPayPush, ← outcome_map]
    exact congrArg outcome (commit_withHost rfl)
  | remSet r => rfl
  | count => exact outcome_ignoresHost runCount_ignoresHost h s
  | build => exact outcome_ignoresHost runBuild_ignoresHost h s
  | walk => exact outcome_ignoresHost runWalk_ignoresHost h s
  | xlate => exact outcome_ignoresHost runXlate_ignoresHost h s
  | pack => exact outcome_ignoresHost runPack_ignoresHost h s
  | hdrEnc => exact outcome_ignoresHost runHdrEnc_ignoresHost h s
  | blob => exact outcome_ignoresHost runBlob_ignoresHost h s
  | hdrDec => exact outcome_ignoresHost runHdrDec_ignoresHost h s
  | unpack => exact outcome_ignoresHost runUnpack_ignoresHost h s
  | twalk => exact outcome_ignoresHost runTwalk_ignoresHost h s
  | encode => exact outcome_ignoresHost runEncode_ignoresHost h s
  | decode => exact outcome_ignoresHost runDecode_ignoresHost h s

/-- The step function of R115 neither reads nor writes the words pending. -/
theorem issue_withHost (w : Word) (h : List Word) (s : State) :
    issue w (s.withHost h) = mapNext (State.withHost h) (issue w s) := by
  have hn : noError (s.withHost h) = noError s := rfl
  simp only [issue, hn]
  split
  · split
    · exact exec_withHost _ h s
    · rfl
  · split
    · rfl
    · rfl

/-- The block's next state is a function of its twelve elements and the capacities: from a state with the same ones the step
function answers the same, with that state's words pending (R16, R20). -/
theorem issue_of_same_block (w : Word) {s s' : State} (hb : s'.toBlockState = s.toBlockState) (hc : s'.caps = s.caps) :
    issue w s' = mapNext (State.withHost s'.host) (issue w s) := by
  obtain ⟨b, h, c⟩ := s
  obtain ⟨b', h', c'⟩ := s'
  simp only at hb hc
  subst hb hc
  exact issue_withHost w h' ⟨b', h, c'⟩

end Sys2Proof.Machine
end

