-- ==== Sys2Proof/Laws/Encoder.lean ====
section
/-! SUPPORT. Translation of bytes to bits (spec/46_encoder.md R196, R197). -/

namespace Sys2Proof.Machine

/-- Where every byte has its code in `f`, the result is the concatenation of the codes. -/
theorem translate_eq_flatMap (t : CodeTable) (l : List Byte) (f : Byte → Code)
    (h : ∀ b ∈ l, codeOf t b = some (f b)) : translate t l = some (l.flatMap f) := by
  induction l with
  | nil => rfl
  | cons b l ih =>
    have hb := h b (by simp)
    have hl := ih (fun x hx => h x (by simp [hx]))
    simp [translate, hb, hl]

/-- Translation fails exactly on a byte without a code. -/
theorem translate_eq_none_iff (t : CodeTable) (l : List Byte) :
    translate t l = none ↔ ∃ b ∈ l, codeOf t b = none := by
  induction l with
  | nil => simp [translate]
  | cons b l ih =>
    cases hb : codeOf t b with
    | none => simp [translate, hb]
    | some p =>
      cases hl : translate t l with
      | none =>
        obtain ⟨x, hx, hn⟩ := ih.1 hl
        simp only [translate, hb, hl, true_iff]
        exact ⟨x, by simp [hx], hn⟩
      | some q =>
        have : ¬ ∃ b ∈ l, codeOf t b = none := fun h => by simpa [hl] using ih.2 h
        simp only [translate, hb, hl, List.mem_cons]
        constructor
        · intro h; cases h
        · rintro ⟨x, rfl | hx, hn⟩
          · simp [hb] at hn
          · exact absurd ⟨x, hx, hn⟩ this

end Sys2Proof.Machine
end

