-- ==== Sys2Proof/Laws/Frequency.lean ====
section
/-! SUPPORT. The scan of the FrequencyCounter: its table lists the distinct bytes in first-seen order with their counts
(spec/41_frequency_counter.md R130). -/

namespace Sys2Proof.Machine

/-- One step of the scan on a table whose symbols are distinct. -/
theorem tally_map (l : List Byte) (f : Byte → Nat) (b : Byte) (hl : l.Nodup) :
    tally (l.map (fun x => (x, f x))) b =
      if b ∈ l then l.map (fun x => (x, if x = b then f x + 1 else f x))
      else l.map (fun x => (x, f x)) ++ [(b, 1)] := by
  induction l with
  | nil => rfl
  | cons a l ih =>
    have hl' := List.nodup_cons.1 hl
    by_cases hab : a = b
    · subst hab
      have hkeep : l.map (fun x => (x, if x = a then f x + 1 else f x)) = l.map (fun x => (x, f x)) := by
        apply List.map_congr_left
        intro x hx
        have : x ≠ a := fun e => hl'.1 (e ▸ hx)
        simp [this]
      simp [tally, hkeep]
    · simp only [List.map_cons, tally, hab, if_false, ih hl'.2, List.mem_cons]
      by_cases hb : b ∈ l
      · simp [hb]
      · have : ¬ b = a := fun h => hab h.symm
        simp [hb, this]

/-- The distinct bytes of a longer input, in first-seen order. -/
theorem eraseDups_append_singleton (l : List Byte) (b : Byte) :
    (l ++ [b]).eraseDups = if b ∈ l then l.eraseDups else l.eraseDups ++ [b] := by
  rw [List.eraseDups_append]
  by_cases h : b ∈ l <;> simp [h, List.removeAll, List.eraseDups_cons]

/-- No byte is listed twice. -/
theorem nodup_eraseDups (l : List Byte) : l.eraseDups.Nodup := by
  induction l using List.reverseRecOn with
  | nil => simp
  | append_singleton l b ih =>
    rw [eraseDups_append_singleton]
    by_cases hb : b ∈ l
    · simp [hb, ih]
    · simp only [hb, if_false]
      exact List.nodup_append.2 ⟨ih, by simp, by
        rintro x hx y hy rfl
        exact hb (by simpa [List.mem_singleton.1 hy] using hx)⟩

/-- The scan's table: each distinct byte, in first-seen order, with the number of its occurrences. -/
theorem scan_eq (l : List Byte) : scan l = l.eraseDups.map (fun b => (b, l.count b)) := by
  induction l using List.reverseRecOn with
  | nil => rfl
  | append_singleton l b ih =>
    have hstep : scan (l ++ [b]) = tally (scan l) b := by simp [scan, List.foldl_append]
    rw [hstep, ih, tally_map _ _ _ (nodup_eraseDups _), eraseDups_append_singleton]
    simp only [List.mem_eraseDups]
    by_cases hb : b ∈ l
    · simp only [hb, if_true]
      apply List.map_congr_left
      intro x _
      by_cases hx : x = b
      · subst hx; simp
      · have : ¬ b = x := fun h => hx h.symm
        simp [hx, List.count_append, this]
    · simp only [hb, if_false, List.map_append, List.map_cons, List.map_nil, List.count_append]
      congr 1
      · apply List.map_congr_left
        intro x hx
        have : ¬ b = x := fun h => hb (h ▸ List.mem_eraseDups.1 hx)
        simp [this]
      · simp [List.count_eq_zero_of_not_mem hb]

end Sys2Proof.Machine
end

