-- ==== Sys2Proof/Laws/Header.lean ====
section
/-! SUPPORT. The header's bytes and their parsing (spec/44_header_codec.md R172, R175). -/

namespace Sys2Proof.Machine

/-- A count is put together again from its two bytes (spec/20_memory.md R60). -/
@[simp] theorem countOf_halves (c : Count) : countOf (countLo c) (countHi c) = c := by
  apply BitVec.eq_of_getLsbD_eq
  intro i hi
  interval_cases i <;> simp [countOf, countLo, countHi]

/-- The number of a count, from its bytes. -/
theorem countOf_toNat (lo hi : Byte) : (countOf lo hi).toNat = lo.toNat + 256 * hi.toNat := by
  have h1 := lo.isLt
  have h2 := hi.isLt
  have h3 : hi.toNat <<< 8 % 2 ^ 16 = 2 ^ 8 * hi.toNat := by
    rw [Nat.shiftLeft_eq]
    omega
  simp only [countOf, BitVec.toNat_or, BitVec.toNat_shiftLeft, BitVec.toNat_setWidth]
  rw [Nat.mod_eq_of_lt (show lo.toNat < 2 ^ 16 by omega), Nat.mod_eq_of_lt (show hi.toNat < 2 ^ 16 by omega), h3,
    Nat.or_comm, ← Nat.two_pow_add_eq_or_of_lt h1]
  omega

theorem countLo_toNat (c : Count) : (countLo c).toNat = c.toNat % 256 := by
  simp [countLo, BitVec.extractLsb'_toNat]

theorem countHi_toNat (c : Count) : (countHi c).toNat = c.toNat / 256 := by
  have := c.isLt
  simp [countHi, BitVec.extractLsb'_toNat, Nat.shiftRight_eq_div_pow]
  omega

@[simp] theorem length_entryBytes (e : FreqEntry) : (entryBytes e).length = 3 := rfl

theorem length_flatMap_entryBytes (t : List FreqEntry) : (t.flatMap entryBytes).length = 3 * t.length := by
  induction t with
  | nil => rfl
  | cons e t ih => simp [ih]; omega

/-- The header of `n` entries has `2 + 3n` bytes (spec/30_encoding.md R95). -/
@[simp] theorem length_headerBytes (t : List FreqEntry) (r : BitVec 3) :
    (headerBytes t r).length = 2 + 3 * t.length := by
  simp only [headerBytes, List.length_cons, length_flatMap_entryBytes]
  omega

/-- Parsing reverses writing, whatever follows. -/
theorem parseEntries_flatMap (t : List FreqEntry) (p : List Byte) :
    parseEntries t.length (t.flatMap entryBytes ++ p) = t := by
  induction t with
  | nil => rfl
  | cons e t ih => simp [parseEntries, entryBytes, ih]

/-- With enough bytes, `n` entries are parsed. -/
theorem length_parseEntries (n : Nat) (b : List Byte) (h : 3 * n ≤ b.length) : (parseEntries n b).length = n := by
  induction n generalizing b with
  | zero => rfl
  | succ n ih =>
    match b, h with
    | x :: y :: z :: rest, h =>
      simp only [List.length_cons] at h
      simp [parseEntries, ih rest (by omega)]
    | [], h => simp at h
    | [_], h => simp at h; omega
    | [_, _], h => simp at h; omega

/-- Entry `i` comes from bytes `3i` to `3i + 2` (spec/30_encoding.md R96). -/
theorem parseEntries_getElem? (n : Nat) (b : List Byte) (h : 3 * n ≤ b.length) (i : Nat) (hi : i < n) :
    ∃ x lo hi', b[3 * i]? = some x ∧ b[3 * i + 1]? = some lo ∧ b[3 * i + 2]? = some hi' ∧
      (parseEntries n b)[i]? = some ⟨x, countOf lo hi'⟩ := by
  induction n generalizing b i with
  | zero => omega
  | succ n ih =>
    match b, h with
    | x :: y :: z :: rest, h =>
      simp only [List.length_cons] at h
      cases i with
      | zero => exact ⟨x, y, z, rfl, rfl, rfl, rfl⟩
      | succ i =>
        obtain ⟨a, lo, hi', h1, h2, h3, h4⟩ := ih rest (by omega) i (by omega)
        exact ⟨a, lo, hi', h1, h2, h3, h4⟩
    | [], h => simp at h
    | [_], h => simp at h; omega
    | [_, _], h => simp at h; omega

/-- The test for repeated symbols is the distinctness of R28. -/
theorem distinctSyms_iff (t : List FreqEntry) : distinctSyms t = true ↔ (t.map (fun e => e.sym)).Nodup := by
  induction t with
  | nil => simp [distinctSyms]
  | cons e t ih => simp [distinctSyms, ih, List.nodup_cons]

end Sys2Proof.Machine
end

