-- ==== Sys2Proof/Laws/PerInstr.lean ====
section
/-! SUPPORT. Per-instruction laws. `WordSpelling`: the word of a command spells the row of the opcode map with its opcode
(spec/30_encoding.md R88). -/

namespace Sys2Proof.Laws.WordSpelling

/-- Some row of the opcode map has the command's opcode and is spelt by the command's word. -/
def Statement (i : Instr) : Prop :=
  ∃ r, r ∈ opcodeMap ∧ r.op = opcode i ∧ r.spells (encode i) = true

/-- The law from the row's place in the map. -/
theorem of_row (i : Instr) (k : Nat) (r : OpcodeRow) (hk : opcodeMap[k]? = some r) (ho : r.op = opcode i)
    (hw : encode i &&& r.mask = r.pattern) : Statement i :=
  ⟨r, List.mem_of_getElem? hk, ho, by simpa [OpcodeRow.spells] using hw⟩

theorem nop : Statement .nop := of_row _ 0 _ rfl rfl rfl
theorem reset : Statement .reset := of_row _ 1 _ rfl rfl rfl
theorem inPush (imm8 : Byte) : Statement (.inPush imm8) := of_row _ 2 _ rfl rfl (by
  apply BitVec.eq_of_getLsbD_eq
  intro i hi
  interval_cases i <;> simp [encode])
theorem ftPush (sym : Byte) (cnt : Count) : Statement (.ftPush sym cnt) := of_row _ 3 _ rfl rfl (by
  apply BitVec.eq_of_getLsbD_eq
  intro i hi
  interval_cases i <;> simp [encode])
theorem bitPush (bit : Bit) : Statement (.bitPush bit) := of_row _ 4 _ rfl rfl (by cases bit <;> decide)
theorem payPush (imm8 : Byte) : Statement (.payPush imm8) := of_row _ 5 _ rfl rfl (by
  apply BitVec.eq_of_getLsbD_eq
  intro i hi
  interval_cases i <;> simp [encode])
theorem remSet (rem3 : BitVec 3) : Statement (.remSet rem3) := of_row _ 6 _ rfl rfl (by revert rem3; decide)
theorem count : Statement .count := of_row _ 7 _ rfl rfl rfl
theorem build : Statement .build := of_row _ 8 _ rfl rfl rfl
theorem walk : Statement .walk := of_row _ 9 _ rfl rfl rfl
theorem xlate : Statement .xlate := of_row _ 10 _ rfl rfl rfl
theorem pack : Statement .pack := of_row _ 11 _ rfl rfl rfl
theorem hdrEnc : Statement .hdrEnc := of_row _ 12 _ rfl rfl rfl
theorem blob : Statement .blob := of_row _ 13 _ rfl rfl rfl
theorem hdrDec : Statement .hdrDec := of_row _ 14 _ rfl rfl rfl
theorem unpack : Statement .unpack := of_row _ 15 _ rfl rfl rfl
theorem twalk : Statement .twalk := of_row _ 16 _ rfl rfl rfl
theorem encode : Statement .encode := of_row _ 17 _ rfl rfl rfl
theorem decode : Statement .decode := of_row _ 18 _ rfl rfl rfl

end Sys2Proof.Laws.WordSpelling
end

