-- ==== Sys2Proof/Laws/Tree.lean ====
section
/-! SUPPORT. The order of removals and the merge loop (spec/42_tree_builder.md R141 to R147). -/

namespace Sys2Proof.Machine

/-- The order on keys, written out. -/
theorem keyLt_iff (a b : Key) :
    keyLt a b = true ↔
      a.w < b.w ∨ (a.w = b.w ∧ (a.tag < b.tag ∨ (a.tag = b.tag ∧ (a.sym < b.sym ∨ (a.sym = b.sym ∧ a.idx < b.idx))))) := by
  simp [keyLt]

theorem keyLt_irrefl (a : Key) : keyLt a a = false := by
  rw [Bool.eq_false_iff]
  simp [keyLt_iff]

theorem keyLt_trans {a b c : Key} (h : keyLt a b = true) (h' : keyLt b c = true) : keyLt a c = true := by
  rw [keyLt_iff] at *
  omega

/-- The order is total: the fourth component is unique per node (R143). -/
theorem keyLt_of_not {a b : Key} (h : keyLt a b = false) (hi : a.idx ≠ b.idx) : keyLt b a = true := by
  rw [Bool.eq_false_iff, Ne, keyLt_iff] at h
  rw [keyLt_iff]
  omega

/-- The key order is the source's order of removals (R143). -/
theorem keyLt_iff_removedBefore (i j : Nat) (a b : Node) :
    keyLt (keyOf i a) (keyOf j b) = true ↔ RemovedBefore i a j b := by
  cases a <;> cases b <;>
    simp [keyLt_iff, keyOf, RemovedBefore, nodeWeight, BitVec.toNat_inj]

/-- What `takeLeast` answers: a member of the collection that no other precedes, and the others. -/
theorem takeLeast_spec (q : List Item) (m : Item) (rest : List Item) (h : takeLeast q = some (m, rest)) :
    q.Perm (m :: rest) ∧ ∀ x ∈ rest, keyLt (itemKey x) (itemKey m) = false := by
  induction q generalizing m rest with
  | nil => simp [takeLeast] at h
  | cons x xs ih =>
    rw [takeLeast] at h
    cases hx : takeLeast xs with
    | none =>
      have hnil : xs = [] := by
        cases xs with
        | nil => rfl
        | cons y ys =>
          simp only [takeLeast] at hx
          split at hx
          · cases hx
          · split at hx <;> cases hx
      simp only [hx, Option.some.injEq, Prod.mk.injEq] at h
      obtain ⟨rfl, rfl⟩ := h
      subst hnil
      exact ⟨List.Perm.refl _, by simp⟩
    | some mr =>
      obtain ⟨m', rest'⟩ := mr
      obtain ⟨hp, hle⟩ := ih m' rest' hx
      simp only [hx] at h
      by_cases hlt : keyLt (itemKey x) (itemKey m') = true
      · simp only [hlt, if_true, Option.some.injEq, Prod.mk.injEq] at h
        obtain ⟨rfl, rfl⟩ := h
        refine ⟨List.Perm.refl _, fun y hy => ?_⟩
        rcases List.mem_cons.1 (hp.mem_iff.1 hy) with rfl | hy'
        · rw [Bool.eq_false_iff]
          intro hyx
          simpa [keyLt_irrefl] using keyLt_trans hlt hyx
        · rw [Bool.eq_false_iff]
          intro hyx
          simpa [hle y hy'] using keyLt_trans hyx hlt
      · rw [if_neg hlt] at h
        cases h
        refine ⟨(hp.cons x).trans (List.Perm.swap _ _ _), fun y hy => ?_⟩
        rcases List.mem_cons.1 hy with rfl | hy'
        · simpa using hlt
        · exact hle y hy'

/-- A non-empty collection has a least member. -/
theorem takeLeast_isSome (x : Item) (xs : List Item) : ∃ m rest, takeLeast (x :: xs) = some (m, rest) := by
  rw [takeLeast]
  cases takeLeast xs with
  | none => exact ⟨x, [], rfl⟩
  | some mr =>
    by_cases h : keyLt (itemKey x) (itemKey mr.1) = true
    · exact ⟨x, xs, by simp [h]⟩
    · exact ⟨mr.1, x :: mr.2, by simp [h]⟩

/-- Taking one member leaves one fewer. -/
theorem takeLeast_length {q : List Item} {m : Item} {rest : List Item} (h : takeLeast q = some (m, rest)) :
    q.length = rest.length + 1 := by
  simpa using (takeLeast_spec q m rest h).1.length_eq

/-- A round of the merge loop, on a collection of at least two. -/
theorem mergeAll_round (k : Nat) (n : List Node) (q : List Item) (h : 2 ≤ q.length) :
    ∃ a b q1 q2, takeLeast q = some (a, q1) ∧ takeLeast q1 = some (b, q2) ∧
      mergeAll (k + 1) n q = mergeAll k (n ++ [mergeNode a b]) (q2 ++ [⟨n.length, mergeNode a b⟩]) := by
  match q, h with
  | x :: y :: t, h =>
    obtain ⟨a, q1, h1⟩ := takeLeast_isSome x (y :: t)
    have hl := takeLeast_length h1
    match q1, hl, h1 with
    | z :: q1', hl, h1 =>
      obtain ⟨b, q2, h2⟩ := takeLeast_isSome z q1'
      exact ⟨a, b, z :: q1', q2, h1, h2, by simp [mergeAll, h1, h2]⟩
    | [], hl, h1 => simp at hl
  | [], h => simp at h
  | [_], h => simp at h

/-- The loop stops when one node remains. -/
theorem mergeAll_single (k : Nat) (n : List Node) (x : Item) : mergeAll k n [x] = (n, [x]) := by
  cases k <;> rfl

/-- A collection of `m + 1` nodes has `m` merges (R142): the arena grows by `m` records after those it had, and the one
remaining node is the last record made (R147), or the one node there was. -/
theorem mergeAll_shape (m k : Nat) (n : List Node) (q : List Item) (hq : q.length = m + 1) (hk : m ≤ k) :
    ∃ more r, mergeAll k n q = (n ++ more, [r]) ∧ more.length = m ∧
      (∀ x ∈ more, ∃ a b w, x = .internal a b w) ∧
      (0 < m → r.idx = n.length + m - 1 ∧ (n ++ more)[r.idx]? = some r.node) ∧ (m = 0 → q = [r]) := by
  induction m generalizing k n q with
  | zero =>
    obtain ⟨x, rfl⟩ := List.length_eq_one_iff.1 hq
    exact ⟨[], x, by simp [mergeAll_single], rfl, by simp, by simp, by simp⟩
  | succ m ih =>
    obtain ⟨k, rfl⟩ : ∃ k', k = k' + 1 := ⟨k - 1, by omega⟩
    obtain ⟨a, b, q1, q2, h1, h2, hr⟩ := mergeAll_round k n q (by omega)
    have l1 := takeLeast_length h1
    have l2 := takeLeast_length h2
    obtain ⟨more, r, hm, hlen, hint, hidx, hone⟩ :=
      ih k (n ++ [mergeNode a b]) (q2 ++ [⟨n.length, mergeNode a b⟩]) (by simp; omega) (by omega)
    refine ⟨mergeNode a b :: more, r, by rw [hr, hm]; simp, by simp [hlen], ?_, fun _ => ?_, by simp⟩
    · intro x hx
      rcases List.mem_cons.1 hx with rfl | hx
      · exact ⟨_, _, _, rfl⟩
      · exact hint x hx
    · rcases Nat.eq_zero_or_pos m with rfl | hpos
      · have hq2 : q2 = [] := List.length_eq_zero_iff.1 (by omega)
        have hr' := hone rfl
        rw [hq2] at hr'
        have : r = ⟨n.length, mergeNode a b⟩ := by simpa using hr'.symm
        subst this
        simp
      · have := hidx hpos
        simp only [List.append_assoc, List.singleton_append, List.length_append, List.length_singleton] at this
        exact ⟨by omega, this.2⟩

@[simp] theorem length_leafItems (i : Nat) (t : List FreqEntry) : (leafItems i t).length = t.length := by
  induction t generalizing i with
  | nil => rfl
  | cons e t ih => simp [leafItems, ih]

/-- Arena layout after `BUILD` (R147): the leaves in table order, then `n - 1` internal records, `ROOT` the last. -/
theorem buildTree_layout (t : List FreqEntry) (ht : t ≠ []) :
    ∃ more, (buildTree t).1 = t.map leafOf ++ more ∧ more.length = t.length - 1 ∧
      (∀ x ∈ more, ∃ a b w, x = .internal a b w) ∧ (buildTree t).2 = BitVec.ofNat 9 (2 * t.length - 2) := by
  have hpos : 0 < t.length := List.length_pos_iff.2 ht
  obtain ⟨more, r, hm, hlen, hint, hidx, hone⟩ :=
    mergeAll_shape (t.length - 1) t.length (t.map leafOf) (leafItems 0 t) (by simp; omega) (by omega)
  have hb : buildTree t = (t.map leafOf ++ more, BitVec.ofNat 9 r.idx) := by simp [buildTree, hm]
  refine ⟨more, by rw [hb], hlen, hint, ?_⟩
  rw [hb]
  rcases Nat.eq_zero_or_pos (t.length - 1) with h0 | hp
  · have hr := hone h0
    obtain ⟨e, rfl⟩ := List.length_eq_one_iff.1 (show t.length = 1 by omega)
    have : r = ⟨0, leafOf e⟩ := by simpa [leafItems] using hr.symm
    subst this
    rfl
  · have := (hidx hp).1
    simp only [List.length_map] at this
    simp only [this]
    congr 1
    omega

end Sys2Proof.Machine
end

