-- ==== Sys2Proof/Laws/Walks.lean ====
section
/-! SUPPORT. Paths in a tree, the code-table walk and the decoder's tree walk (spec/43_code_table.md R161,
spec/47_decoder.md R211). -/

namespace Sys2Proof.Machine

/-- Following a path in two parts. -/
theorem follow_append (n : List Node) (i : NodeIdx) (p q : Code) (l r : NodeIdx) (w : Weight) (j : NodeIdx)
    (hp : follow n i p = some (.internal l r w)) (hj : n[j.toNat]? = some (.internal l r w)) :
    follow n i (p ++ q) = follow n j q := by
  induction p generalizing i with
  | nil =>
    rw [follow] at hp
    cases q with
    | nil => rw [List.nil_append, follow, follow, hp, hj]
    | cons b q => simp only [List.nil_append, follow, hp, hj]
  | cons b p ih =>
    rw [follow] at hp
    cases hn : n[i.toNat]? with
    | none => simp [hn] at hp
    | some x =>
      cases x with
      | leaf s v => simp [hn] at hp
      | internal l' r' w' =>
        simp only [hn] at hp
        simp only [List.cons_append, follow, hn]
        exact ih _ hp

/-- A path cannot go on from a leaf, so no path to a leaf is a prefix of another (R163). -/
theorem follow_leaf_append (n : List Node) (i : NodeIdx) (p q : Code) (s : Byte) (w : Weight)
    (hp : follow n i p = some (.leaf s w)) (hq : q ≠ []) : follow n i (p ++ q) = none := by
  induction p generalizing i with
  | nil =>
    rw [follow] at hp
    cases q with
    | nil => exact absurd rfl hq
    | cons b q => simp [follow, hp]
  | cons b p ih =>
    rw [follow] at hp
    cases hn : n[i.toNat]? with
    | none => simp [hn] at hp
    | some x =>
      cases x with
      | leaf s' v => simp [hn] at hp
      | internal l r w' =>
        simp only [hn] at hp
        simp only [List.cons_append, follow, hn]
        exact ih _ hp

/-- On an arena whose children have smaller indices, the walk from an index below its depth bound ends (R161). -/
theorem visit_ok (n : List Node)
    (hn : ∀ (i : Nat) (l r : NodeIdx) (w : Weight), n[i]? = some (Node.internal l r w) → l.toNat < i ∧ r.toNat < i)
    (k : Nat) (i : NodeIdx) (path : Code) (t : CodeTable) (hi : i.toNat < n.length) (hk : i.toNat < k) :
    ∃ t', visit n k i path t = .ok t' := by
  induction k generalizing i path t with
  | zero => omega
  | succ k ih =>
    rw [visit]
    have hs : n[i.toNat]? = some n[i.toNat] := List.getElem?_eq_getElem hi
    cases hx : n[i.toNat] with
    | leaf s w => simp [hs, hx]
    | internal l r w =>
      obtain ⟨hl, hr⟩ := hn i.toNat l r w (by rw [hs, hx])
      obtain ⟨t1, h1⟩ := ih l (path ++ [false]) t (by omega) (by omega)
      obtain ⟨t2, h2⟩ := ih r (path ++ [true]) t1 (by omega) (by omega)
      exact ⟨t2, by simp [hs, hx, h1, h2]⟩

/-- Every code the walk leaves was there before, or is the path to its symbol's leaf. -/
theorem visit_sound (n : List Node) (k : Nat) (i : NodeIdx) (path : Code) (t t' : CodeTable)
    (h : visit n k i path t = .ok t') (b : Byte) (p : Code) (hp : codeOf t' b = some p) :
    codeOf t b = some p ∨ ∃ q w, p = path ++ q ∧ follow n i q = some (.leaf b w) := by
  induction k generalizing i path t t' p with
  | zero => simp [visit] at h
  | succ k ih =>
    rw [visit] at h
    cases hn : n[i.toNat]? with
    | none => simp [hn] at h
    | some x =>
      cases x with
      | leaf s w =>
        simp only [hn, Except.ok.injEq] at h
        subst h
        rw [codeOf_setCode] at hp
        by_cases hb : s = b
        · subst hb
          simp only [if_true, Option.some.injEq] at hp
          exact .inr ⟨[], w, by simp [hp], by simp [follow, hn]⟩
        · simp only [hb, if_false] at hp
          exact .inl hp
      | internal l r w =>
        simp only [hn] at h
        cases h1 : visit n k l (path ++ [false]) t with
        | error x => simp [h1] at h
        | ok t1 =>
          simp only [h1] at h
          rcases ih r _ t1 t' h p hp with hp1 | ⟨q, w', rfl, hq⟩
          · rcases ih l _ t t1 h1 p hp1 with hp0 | ⟨q, w', rfl, hq⟩
            · exact .inl hp0
            · exact .inr ⟨false :: q, w', by simp, by simpa [follow, hn] using hq⟩
          · exact .inr ⟨true :: q, w', by simp, by simpa [follow, hn] using hq⟩

/-- The walk leaves a code for every leaf it can reach within its depth bound. -/
theorem visit_complete (n : List Node) (k : Nat) (i : NodeIdx) (path : Code) (t t' : CodeTable)
    (h : visit n k i path t = .ok t') (q : Code) (b : Byte) (w : Weight) (hq : follow n i q = some (.leaf b w)) :
    (codeOf t' b).isSome = true := by
  have keep : ∀ (k : Nat) (i : NodeIdx) (path : Code) (t t' : CodeTable), visit n k i path t = .ok t' →
      (codeOf t b).isSome = true → (codeOf t' b).isSome = true := by
    intro k
    induction k with
    | zero => intro i path t t' h; simp [visit] at h
    | succ k ih =>
      intro i path t t' h hs
      rw [visit] at h
      cases hn : n[i.toNat]? with
      | none => simp [hn] at h
      | some x =>
        cases x with
        | leaf s v =>
          simp only [hn, Except.ok.injEq] at h
          subst h
          rw [codeOf_setCode]
          split <;> simp [hs]
        | internal l r v =>
          simp only [hn] at h
          cases h1 : visit n k l (path ++ [false]) t with
          | error x => simp [h1] at h
          | ok t1 =>
            simp only [h1] at h
            exact ih r _ t1 t' h (ih l _ t t1 h1 hs)
  induction k generalizing i path t t' q with
  | zero => simp [visit] at h
  | succ k ih =>
    rw [visit] at h
    cases q with
    | nil =>
      rw [follow] at hq
      simp only [hq, Except.ok.injEq] at h
      subst h
      simp
    | cons c q =>
      rw [follow] at hq
      cases hn : n[i.toNat]? with
      | none => simp [hn] at h
      | some x =>
        cases x with
        | leaf s v => simp [hn] at hq
        | internal l r v =>
          simp only [hn] at h hq
          cases h1 : visit n k l (path ++ [false]) t with
          | error x => simp [h1] at h
          | ok t1 =>
            simp only [h1] at h
            cases c with
            | false => exact keep k r _ t1 t' h (ih l _ t t1 h1 q (by simpa using hq))
            | true => exact ih r _ t1 t' h q (by simpa using hq)

/-- The bits of a path to a leaf, consumed below an internal root, emit its symbol and take the cursor back to the root. -/
theorem treeWalk_path (n : List Node) (root i : NodeIdx) (p : Code) (bs : List Bit) (s : Byte) (w : Weight)
    (hp : follow n i p = some (.leaf s w)) (hne : p ≠ []) :
    treeWalk n root i (p ++ bs) = (treeWalk n root root bs).map (fun x => (s :: x.1, x.2)) := by
  induction p generalizing i with
  | nil => exact absurd rfl hne
  | cons b p ih =>
    rw [follow] at hp
    cases hn : n[i.toNat]? with
    | none => simp [hn] at hp
    | some x =>
      cases x with
      | leaf s' v => simp [hn] at hp
      | internal l r v =>
        simp only [hn] at hp
        cases p with
        | nil =>
          rw [follow] at hp
          simp only [List.singleton_append, treeWalk, hn, hp]
          cases treeWalk n root root bs <;> rfl
        | cons c p =>
          have hint : ∃ l' r' v', n[(if b then r else l).toNat]? = some (.internal l' r' v') := by
            rw [follow] at hp
            cases hc : n[(if b then r else l).toNat]? with
            | none => simp [hc] at hp
            | some y =>
              cases y with
              | leaf s' v' => simp [hc] at hp
              | internal l' r' v' => exact ⟨l', r', v', rfl⟩
          obtain ⟨l', r', v', hc⟩ := hint
          rw [List.cons_append, treeWalk]
          simp only [hn, hc]
          exact ih _ hp (by simp)

end Sys2Proof.Machine
end

