-- ==== Sys2Proof/Tests/Slice0.lean ====
section
/-! SUPPORT. The model's own tests. Expected results are from spec/95_test_vectors.md and the examples of the commands'
rules. First the decoder and the range checks, then one or two one-step tests per command, then a concrete state and
operands that meet the hypotheses of each statement of Certificates/Slice0/Obligations.lean. -/

namespace Sys2Proof.Tests
open Sys2Proof Sys2Proof.Machine

/-! ### Range checks (R92): one ill-formed source command per check, refused. -/

theorem test_illformed_inPush : Source.wf (.inPush 256) = false := by decide
theorem test_illformed_ftPush_sym : Source.wf (.ftPush 256 0) = false := by decide
theorem test_illformed_ftPush_cnt : Source.wf (.ftPush 0 65536) = false := by decide
theorem test_illformed_bitPush : Source.wf (.bitPush 2) = false := by decide
theorem test_illformed_payPush : Source.wf (.payPush 256) = false := by decide
theorem test_illformed_remSet : Source.wf (.remSet 8) = false := by decide
theorem test_illformed_inBytes : Source.wf (.inBytes [1, 256]) = false := by decide
theorem test_illformed_inStr : Source.wf (.inStr [97, 128]) = false := by decide
theorem test_illformed_payBytes : Source.wf (.payBytes [256]) = false := by decide
theorem test_illformed_bitsStr : Source.wf (.bitsStr [49, 50]) = false := by decide

/-! ### Decoding (R86, R88): every constructor's word, written out from the encoding of its rule. -/

theorem test_decode_nop : decode 0b00000000000000000000000000000000#32 = .cmd .nop := by decide
theorem test_decode_reset : decode 0b00000001000000000000000000000000#32 = .cmd .reset := by decide
theorem test_decode_inPush : decode 0b00010000000000000000000001100001#32 = .cmd (.inPush 0x61#8) := by decide
theorem test_decode_ftPush : decode 0b00010001011000100001001000110100#32 = .cmd (.ftPush 0x62#8 0x1234#16) := by decide
theorem test_decode_bitPush : decode 0b00010010000000000000000000000001#32 = .cmd (.bitPush true) := by decide
theorem test_decode_payPush : decode 0b00010011000000000000000011100000#32 = .cmd (.payPush 0xE0#8) := by decide
theorem test_decode_remSet : decode 0b00010100000000000000000000000100#32 = .cmd (.remSet 4#3) := by decide
theorem test_decode_count : decode 0b00100000000000000000000000000000#32 = .cmd .count := by decide
theorem test_decode_build : decode 0b00100001000000000000000000000000#32 = .cmd .build := by decide
theorem test_decode_walk : decode 0b00100010000000000000000000000000#32 = .cmd .walk := by decide
theorem test_decode_xlate : decode 0b00100011000000000000000000000000#32 = .cmd .xlate := by decide
theorem test_decode_pack : decode 0b00100100000000000000000000000000#32 = .cmd .pack := by decide
theorem test_decode_hdrEnc : decode 0b00100101000000000000000000000000#32 = .cmd .hdrEnc := by decide
theorem test_decode_blob : decode 0b00100110000000000000000000000000#32 = .cmd .blob := by decide
theorem test_decode_hdrDec : decode 0b00100111000000000000000000000000#32 = .cmd .hdrDec := by decide
theorem test_decode_unpack : decode 0b00101000000000000000000000000000#32 = .cmd .unpack := by decide
theorem test_decode_twalk : decode 0b00101001000000000000000000000000#32 = .cmd .twalk := by decide
theorem test_decode_encode : decode 0b00110000000000000000000000000000#32 = .cmd .encode := by decide
theorem test_decode_decode : decode 0b00110001000000000000000000000000#32 = .cmd .decode := by decide
theorem test_decode_undefined : decode 0x2A000000#32 = .illegal .undefinedOpcode := by decide
theorem test_decode_reset_operand : decode 0x01000001#32 = .illegal .nonzeroReserved := by decide
theorem test_decodeBytes_truncated : decodeBytes [0x61#8, 0x00#8, 0x00#8] = .truncatedWord := by decide
/-- R62: `0x10000061` is stored as the bytes 61 00 00 10. -/
theorem test_decodeBytes : decodeBytes [0x61#8, 0x00#8, 0x00#8, 0x10#8] = .word (.cmd (.inPush 0x61#8)) [] := by decide
theorem test_decodeTableWord : decodeTableWord 32 0x11610003 = some (.ftPush 0x61#8 3#16) := by decide

/-! ### The assembler (R92, R93) -/

/-- R92's example: `FT_PUSH 'a', 3` assembles to 0x11610003. -/
theorem test_assemble_ftPush :
    (assembleLine ['F', 'T', '_', 'P', 'U', 'S', 'H', ' ', Char.ofNat 39, 'a', Char.ofNat 39, ',', ' ', '3']).map
      (fun is => is.map encode) = some [0x11610003#32] := by decide +kernel
theorem test_assemble_remSet_8 : assembleLine ['R', 'E', 'M', '_', 'S', 'E', 'T', ' ', '8'] = none := by decide +kernel

/-! ### One step of each command -/

/-- A field of the next state, none where there is none. -/
def after {α : Type} (o : Host.Outcome State Fault Refusal) (f : State → α) : Option α :=
  match o with
  | .next t => some (f t)
  | _ => none

theorem next_of_after {α : Type} {o : Host.Outcome State Fault Refusal} {f : State → α} {x : α}
    (h : after o f = some x) : ∃ t, o = .next t ∧ f t = x := by
  cases o <;> simp_all [after]

/-- The command has a next state. -/
def completes (i : Instr) (s : State) : Bool := (after (exec i s) (fun _ => ())).isSome

/-- The state with this input and nothing else. -/
def withIn (b : List Byte) : State := { State.reset with inBuf := b }

/-- The state with this table and nothing else. -/
def withFt (t : List FreqEntry) : State := { State.reset with ft := t }

/-- The source's two-symbol tree (spec/95_test_vectors.md T2). -/
def twoLeaves : State :=
  { State.reset with node := [.leaf 0x61#8 3#24, .leaf 0x62#8 1#24, .internal 1#9 0#9 4#24], root := 2#9 }

/-- The tree T8 of spec/95_test_vectors.md: codes 63 "0", 61 "10", 62 "11". -/
def threeLeaves : State :=
  { State.reset with
    node := [.leaf 0x61#8 1#24, .leaf 0x62#8 1#24, .leaf 0x63#8 2#24, .internal 0#9 1#9 2#24, .internal 2#9 3#9 4#24],
    root := 4#9 }

/-- A leaf root (T1). -/
def oneLeaf : State := { State.reset with node := [.leaf 0x61#8 4#24] }

/-- The source's input "aaab". -/
def aaab : List Byte := [0x61#8, 0x61#8, 0x61#8, 0x62#8]

/-- The source's blob of "aaab" (S2). -/
def blobAaab : List Byte := [0x02#8, 0x04#8, 0x61#8, 0x03#8, 0x00#8, 0x62#8, 0x01#8, 0x00#8, 0xE0#8]

theorem test_nop : after (exec .nop (withIn aaab)) (fun t => t.inBuf) = some aaab := by decide
theorem test_reset : after (exec .reset { withIn aaab with err := 5#3 }) (fun t => (t.inBuf, t.err)) = some ([], 0#3) := by
  decide
theorem test_inPush : after (exec (.inPush 0x62#8) (withIn [0x61#8])) (fun t => t.inBuf) = some [0x61#8, 0x62#8] := by
  decide
theorem test_inPush_capacity :
    after (exec (.inPush 0x62#8) { withIn [0x61#8] with caps := ⟨some 1, none, none, none⟩ }) (fun t => (t.inBuf, t.err)) =
      some ([], 7#3) := by decide
theorem test_ftPush :
    after (exec (.ftPush 0x62#8 1#16) (withFt [⟨0x61#8, 3#16⟩])) (fun t => t.ft) =
      some [⟨0x61#8, 3#16⟩, ⟨0x62#8, 1#16⟩] := by decide
theorem test_ftPush_repeated :
    after (exec (.ftPush 0x61#8 2#16) (withFt [⟨0x61#8, 1#16⟩])) (fun t => (t.ft, t.err)) = some ([], 6#3) := by decide
theorem test_bitPush :
    after (exec (.bitPush false) { State.reset with bits := [true] }) (fun t => t.bits) = some [true, false] := by decide
theorem test_payPush : after (exec (.payPush 0xE0#8) State.reset) (fun t => t.pay) = some [0xE0#8] := by decide
theorem test_remSet : after (exec (.remSet 0#3) { State.reset with rem := 4#3 }) (fun t => t.rem) = some 0#3 := by decide
theorem test_count_first_seen :
    after (exec .count (withIn [0x62#8, 0x61#8, 0x62#8])) (fun t => t.ft) =
      some [⟨0x62#8, 2#16⟩, ⟨0x61#8, 1#16⟩] := by decide
theorem test_count_empty : after (exec .count State.reset) (fun t => t.err) = some 1#3 := by decide
/-- The trace of R152 (T11): every kind of tie. -/
theorem test_build_ties :
    after (exec .build (withFt [⟨0x63#8, 2#16⟩, ⟨0x61#8, 1#16⟩, ⟨0x62#8, 1#16⟩, ⟨0x64#8, 2#16⟩, ⟨0x65#8, 2#16⟩]))
      (fun t => (t.node.drop 5, t.root)) =
      some ([.internal 1#9 2#9 2#24, .internal 0#9 3#9 4#24, .internal 4#9 5#9 4#24, .internal 6#9 7#9 8#24], 8#9) := by
  decide +kernel
/-- T15: the sum of the largest counts is exact. -/
theorem test_build_largest :
    after (exec .build (withFt [⟨0x61#8, 65535#16⟩, ⟨0x62#8, 65535#16⟩])) (fun t => t.node.getLast?) =
      some (some (.internal 0#9 1#9 131070#24)) := by decide +kernel
theorem test_walk :
    after (exec .walk twoLeaves) (fun t => (codeOf t.ct 0x61#8, codeOf t.ct 0x62#8, codeOf t.ct 0x63#8)) =
      some (some [true], some [false], none) := by decide +kernel
theorem test_walk_leaf_root : after (exec .walk oneLeaf) (fun t => codeOf t.ct 0x61#8) = some (some [false]) := by
  decide +kernel
theorem test_xlate :
    after (exec .xlate { withIn aaab with ct := setCode (setCode noCodes 0x61#8 [true]) 0x62#8 [false] })
      (fun t => t.bits) = some [true, true, true, false] := by decide +kernel
theorem test_xlate_no_code : after (exec .xlate (withIn [0x61#8])) (fun t => (t.bits, t.err)) = some ([], 6#3) := by
  decide +kernel
theorem test_pack :
    after (exec .pack { State.reset with bits := [true, true, true, true, true, true, true, true, true] })
      (fun t => (t.pay, t.rem)) = some ([0xFF#8, 0x80#8], 7#3) := by decide
theorem test_pack_order :
    after (exec .pack { State.reset with bits := [false, false, false, true, true, false, true, true] })
      (fun t => (t.pay, t.rem)) = some ([0x1B#8], 0#3) := by decide
theorem test_hdrEnc_little_endian :
    after (exec .hdrEnc { withFt [⟨0x61#8, 258#16⟩, ⟨0x00#8, 4660#16⟩] with rem := 2#3 }) (fun t => t.hdr) =
      some [0x02#8, 0x02#8, 0x61#8, 0x02#8, 0x01#8, 0x00#8, 0x34#8, 0x12#8] := by decide
theorem test_blob :
    after (exec .blob { State.reset with hdr := [0x01#8, 0x00#8, 0x61#8, 0x01#8, 0x00#8] }) (fun t => t.out.length) =
      some 5 := by decide
theorem test_hdrDec :
    after (exec .hdrDec (withIn blobAaab)) (fun t => (t.ft, t.rem, t.poff, t.pay)) =
      some ([⟨0x61#8, 3#16⟩, ⟨0x62#8, 1#16⟩], 4#3, 8#10, [0xE0#8]) := by decide
theorem test_hdrDec_repeated :
    after (exec .hdrDec (withIn [0x02#8, 0x00#8, 0x61#8, 0x01#8, 0x00#8, 0x61#8, 0x02#8, 0x00#8, 0x00#8]))
      (fun t => (t.ft, t.pay, t.err)) = some ([], [], 3#3) := by decide
theorem test_unpack_ignores_padding :
    after (exec .unpack { State.reset with pay := [0xEF#8], rem := 4#3 }) (fun t => t.bits) =
      some [true, true, true, false] := by decide
theorem test_unpack_too_much_padding :
    after (exec .unpack { State.reset with rem := 3#3 }) (fun t => (t.rem, t.err)) = some (3#3, 3#3) := by decide
theorem test_twalk :
    after (exec .twalk { threeLeaves with bits := [false, true, true, false] }) (fun t => t.out) =
      some [0x63#8, 0x62#8, 0x63#8] := by decide
theorem test_twalk_truncated :
    after (exec .twalk { threeLeaves with bits := [false, true, true, true] }) (fun t => (t.out, t.err)) =
      some ([], 4#3) := by decide
theorem test_encode : after (exec .encode (withIn aaab)) (fun t => t.out) = some blobAaab := by decide +kernel
theorem test_encode_one_symbol :
    after (exec .encode (withIn [0x61#8])) (fun t => t.out) =
      some [0x01#8, 0x07#8, 0x61#8, 0x01#8, 0x00#8, 0x00#8] := by decide +kernel
theorem test_decode : after (exec .decode (withIn blobAaab)) (fun t => t.out) = some aaab := by decide +kernel
/-- P5: the bits end mid-path. -/
theorem test_decode_truncated :
    after (exec .decode (withIn [0x03#8, 0x07#8, 0x61#8, 0x01#8, 0x00#8, 0x62#8, 0x01#8, 0x00#8, 0x63#8, 0x02#8, 0x00#8,
      0x80#8])) (fun t => (t.bits, t.out, t.err)) = some ([true], [], 4#3) := by decide +kernel
theorem test_step_after_reset :
    after (step (State.reset.withFetchWord 32 0x11610003)) (fun t => (t.ft, t.host)) =
      some ([⟨0x61#8, 3#16⟩], []) := by decide +kernel

/-! ### A witness for the hypotheses of each statement -/

theorem inv_of_tree (n : List Node) (r : NodeIdx) (h : treeOk n r = true) (hl : (leafSyms n).Nodup) :
    Inv { State.reset with node := n, root := r } where
  table := ⟨Nat.zero_le _, List.nodup_nil⟩
  tree := h
  leaves := hl
  codes := fun b p hp => by
    have : codeOf noCodes b = some p := hp
    simp at this
  header := .inl rfl
  offset := .inl rfl

theorem inv_twoLeaves : Inv twoLeaves := inv_of_tree _ _ (by decide) (by decide)
theorem inv_threeLeaves : Inv threeLeaves := inv_of_tree _ _ (by decide) (by decide)
theorem inv_oneLeaf : Inv oneLeaf := inv_of_tree _ _ (by decide) (by decide)
theorem inv_pending : Inv { State.reset with host := [0x20000000#32] } :=
  ⟨⟨by decide, by decide⟩, by decide, by decide,
    fun b p hp => by
      have : codeOf noCodes b = some p := hp
      simp at this,
    .inl rfl, .inl rfl⟩

/-- 255 entries with distinct symbols 00 to FE. -/
def fullTable : List FreqEntry := (List.range 255).map (fun i => ⟨BitVec.ofNat 8 i, 1#16⟩)

/-- All 256 bytes, once each: one more than a header can represent. -/
def allBytes : List Byte := (List.range 256).map (BitVec.ofNat 8)

theorem eraseDups_of_nodup (l : List Byte) (h : l.Nodup) : l.eraseDups = l := by
  induction l using List.reverseRecOn with
  | nil => simp
  | append_singleton l b ih =>
    have hb := List.nodup_append.1 h
    have : b ∉ l := fun hm => hb.2.2 b hm b (by simp) rfl
    rw [eraseDups_append_singleton, if_neg this, ih hb.1]

theorem allBytes_length : allBytes.eraseDups.length = 256 := by
  rw [eraseDups_of_nodup]
  · simp [allBytes]
  · refine List.Nodup.map_on ?_ List.nodup_range
    intro x hx y hy h
    have := congrArg BitVec.toNat h
    simp only [BitVec.toNat_ofNat, List.mem_range] at *
    omega

theorem validInput_aaab : ValidInput aaab :=
  ⟨by decide, by decide, fun b => le_trans (List.count_le_length) (by decide)⟩

theorem witness_LegalWordIsTheEncodingOfItsCommand : decode 0x110000FF#32 = .cmd (.ftPush 0x00#8 0xFF#16) := by decide
theorem witness_DecoderAcceptsExactlyTheOpcodeMap :
    opcodeMap.any (fun r => r.spells 0x14000007#32 && r.op == 0x14#8) = true := by decide
theorem witness_SourceAssemblesToItsWords :
    assembledWords (.remSet 7) = some [0x14000007#32] ∧ assembledWords (.ftPush 256 65535) = none ∧
    assembledWords (.inStr [0x61, 0x7F]) = some [0x10000061#32, 0x1000007F#32] ∧ assembledWords (.inStr [0x80]) = none ∧
    assembledWords (.bitsStr [0x31, 0x30]) = some [0x12000001#32, 0x12000000#32] ∧ assembledWords (.bitsStr []) = some [] := by
  decide
theorem witness_StepRunsTheDecodedCommand :
    (∃ s : State, s.host = 0x20000000#32 :: [] ∧ decode 0x20000000#32 = .cmd .count ∧ s.err = 0#3) ∧
    (∃ s : State, s.host = 0x01000000#32 :: [] ∧ decode 0x01000000#32 = .cmd .reset ∧ s.err = 7#3) ∧
    (∃ s : State, s.host = 0x01000001#32 :: [] ∧ decode 0x01000001#32 ≠ .cmd .reset ∧ s.err ≠ 0#3) ∧
    (∃ s : State, s.host = 0x02000000#32 :: [] ∧ decode 0x02000000#32 = .illegal .undefinedOpcode ∧ s.err = 0#3) :=
  ⟨⟨{ State.reset with host := [0x20000000#32] }, rfl, by decide, rfl⟩,
    ⟨{ State.reset with host := [0x01000000#32], err := 7#3 }, rfl, by decide, rfl⟩,
    ⟨{ State.reset with host := [0x01000001#32], err := 1#3 }, rfl, by decide, by decide⟩,
    ⟨{ State.reset with host := [0x02000000#32] }, rfl, by decide, rfl⟩⟩
theorem witness_OfferedWordIsTheNextToRun :
    (0xFFFFFFFF : Nat) < 2 ^ 32 ∧ (0 : Nat) < 2 ^ 32 ∧ State.reset.host = [] := ⟨by decide, by decide, rfl⟩
theorem witness_IllegalWordSetsOnlyErr :
    decode 0x14000008#32 = .illegal .nonzeroReserved ∧ (withIn aaab).err = 0#3 := by decide
theorem witness_StepIsTotalOnInvariantStates : ∃ s : State, Inv s ∧ s.host ≠ [] := ⟨_, inv_pending, by decide⟩
theorem witness_EveryStepKeepsTheInvariant : ∃ s t : State, Inv s ∧ s.host ≠ [] ∧ step s = .next t :=
  ⟨_, _, inv_pending, by decide, rfl⟩
theorem witness_EveryStepKeepsBuffersWithinCapacity :
    ∃ s t : State, Memory.wf s = true ∧ s.caps.inCap = some 1 ∧ step s = .next t :=
  ⟨{ withIn [0x61#8] with caps := ⟨some 1, none, none, none⟩, host := [0x10000062#32] }, _, by decide, rfl, rfl⟩
theorem witness_ErrTakesOnlyCodesTheCommandRaises :
    (withIn aaab).err = 0#3 ∧ completes .encode (withIn aaab) = true ∧ completes .decode (withIn aaab) = true := by
  decide +kernel
theorem witness_RaiseClearsTheDestinationsAndKeepsTheRest :
    ∃ s t : State, s.err = 0#3 ∧ s.node ≠ [] ∧ exec .build s = .next t ∧ t.err ≠ 0#3 :=
  ⟨twoLeaves, { twoLeaves with node := [], root := 0#9, err := 1#3 }, rfl, by decide, rfl, by decide⟩
theorem witness_LoadCommandFrames :
    completes .nop twoLeaves && completes .reset twoLeaves && completes (.inPush 0xFF#8) twoLeaves &&
    completes (.ftPush 0xFF#8 0xFFFF#16) twoLeaves && completes (.bitPush true) twoLeaves &&
    completes (.payPush 0xFF#8) twoLeaves && completes (.remSet 7#3) twoLeaves = true := by decide
theorem witness_UnitCommandFrames :
    completes .count twoLeaves && completes .build twoLeaves && completes .walk twoLeaves &&
    completes .xlate twoLeaves && completes .pack twoLeaves && completes .hdrEnc twoLeaves && completes .blob twoLeaves &&
    completes .hdrDec twoLeaves && completes .unpack twoLeaves && completes .twalk twoLeaves = true := by decide +kernel
theorem witness_CompositeCommandFrames :
    completes .encode (withIn aaab) && completes .decode (withIn blobAaab) = true := by decide +kernel
theorem witness_CommandsReadOnlyTheirOperands :
    ∃ s s' t t' : State, s ≠ s' ∧ (∀ e ∈ readTable .count, Same s s' e) ∧ s.err = s'.err ∧ s.caps = s'.caps ∧
      exec .count s = .next t ∧ exec .count s' = .next t' :=
  ⟨withIn aaab, { withIn aaab with rem := 3#3 }, _, _,
    fun h => absurd (congrArg (fun t => t.rem) h) (by decide),
    fun e he => by rw [List.mem_singleton.1 he]; rfl, rfl, rfl, rfl, rfl⟩
theorem witness_IdempotentCommands :
    ∃ t, (withIn aaab).err = 0#3 ∧ issue (encode .count) (withIn aaab) = .next t := ⟨_, rfl, rfl⟩
theorem witness_ResetClearsEveryElement :
    ((0x01FFFFFF#32).extractLsb' 24 8 = 0x01#8 ∧ 0x01FFFFFF#32 ≠ 0x01000000#32) ∧
    (decode 0x10000061#32 ≠ .cmd .reset ∧ ({ withIn aaab with err := 5#3 } : State).err ≠ 0#3) := by decide
theorem witness_InPushAppends : Within (some 1) (0 + 1) ∧ ¬ Within (some 0) (0 + 1) := by simp [Within]
theorem witness_FtPushAppendsOrRaises :
    (∃ e ∈ (withFt [⟨0x61#8, 1#16⟩]).ft, e.sym = 0x61#8) ∧
    ((∀ e ∈ fullTable, e.sym ≠ 0xFF#8) ∧ fullTable.length = 255) ∧
    ((∀ e ∈ (withFt []).ft, e.sym ≠ 0x61#8) ∧ (withFt []).ft.length ≠ 255) := by decide +kernel
theorem witness_BitPushAppends : Within none (0 + 1) ∧ ¬ Within (some 0) (0 + 1) := by simp [Within]
theorem witness_PayPushAppends : Within (some 5) (4 + 1) ∧ ¬ Within (some 4) (4 + 1) := by simp [Within]
theorem witness_RemSetWritesRem :
    (0x14000008#32 ≤ 0x14000008#32 ∧ 0x14000008#32 < 0x15000000#32) ∧
    (0x14000008#32 ≤ 0x14FFFFFF#32 ∧ 0x14FFFFFF#32 < 0x15000000#32) := by decide
theorem witness_CountGivesFirstSeenFrequencies : ValidInput (withIn aaab).inBuf := validInput_aaab
theorem witness_CountRejects :
    (withIn []).inBuf = [] ∧ allBytes.eraseDups.length > 255 ∧
    (List.replicate 65536 0x61#8).count 0x61#8 > 65535 :=
  ⟨rfl, by rw [allBytes_length]; decide, by rw [List.count_replicate_self]; decide⟩
theorem witness_SuccessfulCountFacts :
    ∃ t, (withIn aaab).err = 0#3 ∧ exec .count (withIn aaab) = .next t ∧ t.err = 0#3 := ⟨_, rfl, rfl, rfl⟩
theorem witness_BuildMergesTheTwoLeastEachTime :
    ((withFt [⟨0x61#8, 4#16⟩]).ft ≠ [] ∧ (withFt [⟨0x61#8, 4#16⟩]).ft.length ≤ 255) ∧
    ((withFt fullTable).ft ≠ [] ∧ (withFt fullTable).ft.length = 255) := by decide +kernel
theorem witness_BuiltTreeIsWellFormedAndWeighsTheTable :
    (withFt fullTable).ft ≠ [] ∧ (withFt fullTable).ft.length ≤ 255 := by decide +kernel
theorem witness_TreeShapeIgnoresTableOrder :
    TableOk [⟨0x61#8, 1#16⟩, ⟨0x62#8, 1#16⟩] ∧
    List.Perm (α := FreqEntry) [⟨0x61#8, 1#16⟩, ⟨0x62#8, 1#16⟩] [⟨0x62#8, 1#16⟩, ⟨0x61#8, 1#16⟩] :=
  ⟨⟨by decide, by decide⟩, List.Perm.swap _ _ _⟩
theorem witness_WalkGivesThePathsFromTheRoot :
    (Inv twoLeaves ∧ twoLeaves.node ≠ [] ∧ isLeafAt twoLeaves.node twoLeaves.root = false) ∧
    (Inv oneLeaf ∧ oneLeaf.node ≠ [] ∧ oneLeaf.node[oneLeaf.root.toNat]? = some (.leaf 0x61#8 4#24)) :=
  ⟨⟨inv_twoLeaves, by decide, by decide⟩, ⟨inv_oneLeaf, by decide, by decide⟩⟩
theorem witness_WalkedCodesArePrefixFree :
    ∃ t, Inv twoLeaves ∧ twoLeaves.node ≠ [] ∧ exec .walk twoLeaves = .next t ∧
      codeOf t.ct 0x61#8 = some [true] ∧ codeOf t.ct 0x62#8 = some [false] :=
  ⟨{ twoLeaves with ct := setCode (setCode noCodes 0x62#8 [false]) 0x61#8 [true] }, inv_twoLeaves, by decide, rfl, by
    simp, by rw [codeOf_setCode_ne _ _ (by decide)]; simp⟩
theorem witness_WalkedCodesFillTheTree :
    ∃ t, Inv threeLeaves ∧ threeLeaves.node ≠ [] ∧ exec .walk threeLeaves = .next t ∧
      2 ≤ (leafSyms threeLeaves.node).length :=
  ⟨_, inv_threeLeaves, by decide, rfl, by decide⟩
theorem witness_PackPlacesEveryBit :
    (7 : Nat) = (8 - ({ State.reset with bits := [true] } : State).bits.length % 8) % 8 ∧ Within (some 1) 1 ∧
    ¬ Within (some 0) 1 := by simp [Within]
theorem witness_UnpackExpandsAndDropsThePadding :
    (8 * ([] : List Byte).length < (1#3).toNat) ∧ ((0#3).toNat ≤ 8 * ([] : List Byte).length) ∧
    ((7#3).toNat ≤ 8 * [0xFF#8].length) ∧ Within (some 1) 1 ∧ ¬ Within (some 0) 1 := by simp [Within]
theorem witness_UnpackUndoesPack :
    ∃ s t u : State, Within s.caps.payCap ((s.bits.length + 7) / 8) ∧ s.bits ≠ [] ∧ exec .pack s = .next t ∧ u.pay = t.pay ∧ u.rem = t.rem ∧
      Within u.caps.bitsCap s.bits.length :=
  ⟨{ State.reset with bits := [true] }, _, _, by simp [Within, Caps.unbounded, State.reset], by decide, rfl, rfl, rfl,
    by simp [Within, Caps.unbounded, State.reset]⟩
theorem witness_PackAfterUnpackClearsThePadding :
    ∃ s : State, s.pay = [0xEF#8] ∧ s.rem.toNat ≤ 8 * s.pay.length ∧
      Within s.caps.bitsCap (8 * s.pay.length - s.rem.toNat) ∧ Within s.caps.payCap s.pay.length :=
  ⟨{ State.reset with pay := [0xEF#8], rem := 7#3 }, rfl, by decide, by simp [Within, Caps.unbounded, State.reset],
    by simp [Within, Caps.unbounded, State.reset]⟩
theorem witness_HdrEncWritesTheLayout :
    (withFt []).ft = [] ∧ (withFt fullTable).ft ≠ [] ∧ (withFt fullTable).ft.length ≤ 255 := by decide +kernel

/-- A header-only blob that passes the five tests. -/
theorem good_header : ¬ HeaderBad [0x01#8, 0x07#8, 0x61#8, 0x01#8, 0x00#8] := by
  rintro (h | ⟨n, r, hn, hr, h⟩)
  · simp at h
  · simp only [List.getElem?_cons_zero, Option.some.injEq] at hn
    simp only [List.getElem?_cons_succ, List.getElem?_cons_zero, Option.some.injEq] at hr
    subst hn hr
    rcases h with h | h | h | ⟨i, j, hij, hj, -⟩
    · simp at h
    · simp at h
    · simp at h
    · simp at hj
      omega

theorem witness_HdrDecReadsTheLayout :
    ¬ HeaderBad (withIn [0x01#8, 0x07#8, 0x61#8, 0x01#8, 0x00#8]).inBuf ∧ Within (some 0) (5 - (2 + 3 * 1)) ∧
    ¬ Within (some 0) (6 - (2 + 3 * 1)) := ⟨good_header, by simp [Within], by simp [Within]⟩
theorem witness_HdrDecRejectsBadHeaders :
    HeaderBad [0x01#8] ∧ HeaderBad [0x00#8, 0x00#8] ∧ HeaderBad [0x01#8, 0x00#8, 0x61#8, 0x01#8] ∧
    HeaderBad [0x01#8, 0x08#8, 0x61#8, 0x01#8, 0x00#8] ∧
    HeaderBad [0x02#8, 0x00#8, 0x61#8, 0x01#8, 0x00#8, 0x61#8, 0x02#8, 0x00#8] :=
  ⟨.inl (by decide), .inr ⟨_, _, rfl, rfl, .inl rfl⟩, .inr ⟨_, _, rfl, rfl, .inr (.inl (by decide))⟩,
    .inr ⟨_, _, rfl, rfl, .inr (.inr (.inl (by decide)))⟩,
    .inr ⟨_, _, rfl, rfl, .inr (.inr (.inr ⟨0, 1, by decide, by decide, rfl⟩))⟩⟩
theorem witness_HeaderRoundTrip :
    ∃ t, TableOk (withFt [⟨0x61#8, 4#16⟩]).ft ∧ (withFt [⟨0x61#8, 4#16⟩]).ft ≠ [] ∧
      exec .hdrEnc (withFt [⟨0x61#8, 4#16⟩]) = .next t ∧ (withIn (t.hdr ++ [0x00#8])).inBuf = t.hdr ++ [0x00#8] ∧
      Within (withIn (t.hdr ++ [0x00#8])).caps.payCap 1 :=
  ⟨_, ⟨by decide, by decide⟩, by decide, rfl, rfl, by simp [Within, withIn, State.reset, Caps.unbounded]⟩
theorem witness_XlateConcatenatesTheCodes :
    (∀ b ∈ [0x61#8], codeOf (setCode noCodes 0x61#8 [true]) b = some [true]) ∧
    (∃ b ∈ (withIn [0x61#8]).inBuf, codeOf (withIn [0x61#8]).ct b = none) ∧ Within (some 1) 1 ∧ ¬ Within (some 0) 1 :=
  ⟨fun b hb => by rw [List.mem_singleton.1 hb]; simp,
    ⟨0x61#8, by simp [withIn], codeOf_noCodes _⟩, by simp [Within], by simp [Within]⟩
theorem witness_BlobJoinsHeaderAndPayload :
    State.reset.hdr = [] ∧ ({ State.reset with hdr := blobAaab } : State).hdr ≠ [] ∧ Within (some 9) (9 + 0) ∧
    ¬ Within (some 8) (9 + 0) := ⟨rfl, by decide, by simp [Within], by simp [Within]⟩
theorem witness_EncodeCompletesOnEveryAcceptedInput :
    ValidInput (withIn aaab).inBuf ∧ (withIn aaab).caps = Caps.unbounded := ⟨validInput_aaab, rfl⟩
theorem witness_SuccessfulEncodeSizes :
    (withIn aaab).err = 0#3 ∧ after (exec .encode (withIn aaab)) (fun t => (t.err, t.bits.length)) = some (0#3, 4) := by
  decide +kernel
theorem witness_EncodeRejectsWithoutPartialResults :
    (withIn []).inBuf = [] ∧ allBytes ≠ [] ∧ ¬ ValidInput allBytes :=
  ⟨rfl, by decide, fun h => absurd h.2.1 (by rw [allBytes_length]; decide)⟩
theorem witness_EncodeIsItsUnitCommandsInSequence : (withIn aaab).err = 0#3 := rfl
/-- On an input that encodes without error, from two states that differ in derived state. -/
theorem witness_EncodeDependsOnInAlone :
    ∃ s s' t t' : State, s.inBuf = aaab ∧ s.root ≠ s'.root ∧ s.inBuf = s'.inBuf ∧ s.caps = s'.caps ∧
      exec .encode s = .next t ∧ exec .encode s' = .next t' ∧ t.out = blobAaab := by
  obtain ⟨t, ht, ho⟩ := next_of_after test_encode
  obtain ⟨t', ht', -⟩ := next_of_after (o := exec .encode { twoLeaves with inBuf := aaab }) (f := fun t => t.err)
    (x := 0#3) (by decide +kernel)
  exact ⟨withIn aaab, { twoLeaves with inBuf := aaab }, t, t', rfl, by decide, rfl, rfl, ht, ht', ho⟩
theorem witness_EncodedHeaderIsSelfConsistent :
    (withIn aaab).err = 0#3 ∧ after (exec .encode (withIn aaab)) (fun t => t.err) = some 0#3 := by decide +kernel
theorem witness_TwalkDecodesPathsFromTheRoot :
    Inv threeLeaves ∧ isLeafAt threeLeaves.node threeLeaves.root = false ∧
    IsPathsOf threeLeaves.node threeLeaves.root [false, true, true] [(0x63#8, [false]), (0x62#8, [true, true])] ∧
    IsPathsOf threeLeaves.node threeLeaves.root [] [] ∧ Within (some 2) 2 ∧ ¬ Within (some 1) 2 :=
  ⟨inv_threeLeaves, by decide, ⟨by
    intro p hp
    simp only [List.mem_cons, List.not_mem_nil, or_false] at hp
    rcases hp with rfl | rfl
    · exact ⟨2#24, rfl⟩
    · exact ⟨1#24, rfl⟩, rfl⟩, ⟨by simp, rfl⟩, by simp [Within], by simp [Within]⟩

/-- The one bit 1 is no sequence of paths to leaves of T8. -/
theorem not_isPathsOf_one (pairs : List (Byte × Code)) :
    ¬ IsPathsOf threeLeaves.node threeLeaves.root [true] pairs := by
  rintro ⟨hp, hb⟩
  cases pairs with
  | nil => simp at hb
  | cons p ps =>
    obtain ⟨w, hw⟩ := hp p (by simp)
    obtain ⟨x, c⟩ := p
    match c, hw, hb with
    | [], hw, _ => exact absurd hw (by simp [follow, threeLeaves])
    | [true], hw, _ => exact absurd hw (by simp [follow, threeLeaves])
    | false :: _, _, hb => simp at hb
    | true :: _ :: _, _, hb => simp at hb

theorem witness_TwalkRaisesOnATruncatedStream :
    ∃ s : State, Inv s ∧ s.node ≠ [] ∧ isLeafAt s.node s.root = false ∧ ∀ pairs, ¬ IsPathsOf s.node s.root s.bits pairs :=
  ⟨{ threeLeaves with bits := [true] }, ⟨inv_threeLeaves.table, inv_threeLeaves.tree, inv_threeLeaves.leaves,
    inv_threeLeaves.codes, inv_threeLeaves.header, inv_threeLeaves.offset⟩, by decide, by decide, not_isPathsOf_one⟩

theorem witness_TwalkUnderALeafRootCopiesTheSymbol :
    oneLeaf.node[oneLeaf.root.toNat]? = some (.leaf 0x61#8 4#24) ∧ Within oneLeaf.caps.outCap oneLeaf.bits.length ∧
    ¬ Within (some 0) ({ oneLeaf with bits := [true] } : State).bits.length :=
  ⟨rfl, by simp [Within, oneLeaf, State.reset, Caps.unbounded], by simp [Within]⟩
theorem witness_UnitsWithoutTheirElementRaise :
    twoLeaves.ft = [] ∧ (withIn aaab).node = [] ∧ State.reset.node = [] := ⟨rfl, rfl, rfl⟩
theorem witness_DecodeOfAOneSymbolBlob :
    (7#3).toNat ≤ 8 * [0x00#8].length ∧ (0#3).toNat ≤ 8 * ([] : List Byte).length ∧
    (withIn [0x01#8, 0x07#8, 0x61#8, 0x01#8, 0x00#8, 0x00#8]).inBuf =
      [1#8, (7#3).setWidth 8, 0x61#8, (1#16).extractLsb' 0 8, (1#16).extractLsb' 8 8] ++ [0x00#8] := by decide

/-- P5's header of spec/95_test_vectors.md, the table whose tree is T8, before any payload. -/
def blobT8 (rem : Byte) (pay : List Byte) : List Byte :=
  [0x03#8, rem, 0x61#8, 0x01#8, 0x00#8, 0x62#8, 0x01#8, 0x00#8, 0x63#8, 0x02#8, 0x00#8] ++ pay

theorem good_blobT8 (pay : List Byte) : ¬ HeaderBad (blobT8 7#8 pay) := by
  rintro (h | ⟨n, r, hn, hr, h⟩)
  · simp [blobT8] at h
  · obtain rfl : n = 3#8 := by simpa [blobT8] using hn.symm
    obtain rfl : r = 7#8 := by simpa [blobT8] using hr.symm
    rcases h with h | h | h | ⟨i, j, hij, hj, h⟩
    · simp at h
    · simp [blobT8] at h; omega
    · simp at h
    · have hj : j < 3 := hj
      interval_cases j <;> interval_cases i <;> simp [blobT8] at h

/-- One blob for each clause: a bad header, more padding than bits, one entry, bits that are a path, bits that are none. -/
theorem witness_DecodeEndsAsTheBlobSays :
    HeaderBad (withIn []).inBuf ∧ (withIn aaab).caps = Caps.unbounded ∧
    (¬ HeaderBad (blobT8 7#8 []) ∧ 8 * ((blobT8 7#8 []).drop (2 + 3 * 3)).length < (7#8).toNat) ∧
    (¬ HeaderBad [0x01#8, 0x07#8, 0x61#8, 0x01#8, 0x00#8]) ∧
    (¬ HeaderBad (blobT8 7#8 [0x00#8]) ∧ (7#8).toNat ≤ 8 * ((blobT8 7#8 [0x00#8]).drop (2 + 3 * 3)).length) ∧
    HeaderTable (blobT8 7#8 [0x00#8]) 3 [⟨0x61#8, 1#16⟩, ⟨0x62#8, 1#16⟩, ⟨0x63#8, 2#16⟩] ∧
    after (exec .build (withFt [⟨0x61#8, 1#16⟩, ⟨0x62#8, 1#16⟩, ⟨0x63#8, 2#16⟩])) (fun t => (t.node, t.root)) =
      some (threeLeaves.node, BitVec.ofNat 9 (2 * 3 - 2)) ∧
    (UnpackedBits [0x00#8] 7 [false] ∧ IsPathsOf threeLeaves.node threeLeaves.root [false] [(0x63#8, [false])]) ∧
    (UnpackedBits [0x80#8] 7 [true] ∧ ∀ pairs, ¬ IsPathsOf threeLeaves.node threeLeaves.root [true] pairs) := by
  refine ⟨.inl (by decide), rfl, ⟨good_blobT8 [], by decide⟩, good_header, ⟨good_blobT8 _, by decide⟩, ⟨rfl, ?_⟩,
    by decide +kernel, ⟨⟨rfl, by decide⟩, ?_, rfl⟩, ⟨rfl, by decide⟩, not_isPathsOf_one⟩
  · intro i hi
    interval_cases i
    · exact ⟨0x61#8, 1#8, 0#8, 1#16, rfl, rfl, rfl, rfl, rfl⟩
    · exact ⟨0x62#8, 1#8, 0#8, 1#16, rfl, rfl, rfl, rfl, rfl⟩
    · exact ⟨0x63#8, 2#8, 0#8, 2#16, rfl, rfl, rfl, rfl, rfl⟩
  · intro p hp
    rw [List.mem_singleton.1 hp]
    exact ⟨2#24, rfl⟩
theorem witness_DecodeIsItsUnitCommandsInSequence : (withIn blobAaab).err = 0#3 := rfl
theorem witness_DecodeOfEncodeIsTheInput : ValidInput aaab := validInput_aaab

end Sys2Proof.Tests
end

section
/-! PROOFS. Totality of the step function (spec/00_scope.md R16). Only `WALK` and `TWALK` can stop, on an arena whose indices
lead nowhere or in a circle; the invariant of spec/10_state.md R35 (b) shuts such arenas out, and `BUILD` makes none. -/

namespace Sys2Proof.Machine

/-! ### Results that end in a next state -/

/-- The run ends with a next state, and where it completes its state satisfies `Q`. -/
def Result.EndsIn (Q : State → Prop) : Result → Prop
  | .done t => Q t
  | .raised _ => True
  | .stopped _ => False

@[simp] theorem endsIn_done (Q : State → Prop) (t : State) : (Result.done t).EndsIn Q ↔ Q t := Iff.rfl
@[simp] theorem endsIn_raised (Q : State → Prop) (t : State) : (Result.raised t).EndsIn Q := trivial

/-- A bounded write never stops. -/
theorem endsIn_commit {Q : State → Prop} {t : State} (ht : Q t) (i : Instr) (fit : Bool) (s : State) :
    (commit i fit s t).EndsIn Q := by
  obtain ⟨-, h⟩ | ⟨-, h⟩ := commit_cases i fit s t <;> simp [h, ht]

/-- The rule for one unit after another. -/
theorem Result.EndsIn.chain {P Q : State → Prop} {r : Result} {f : State → Result} (hr : r.EndsIn P)
    (hf : ∀ t, P t → (f t).EndsIn Q) : (andThen r f).EndsIn Q := by
  cases r with
  | done t => exact hf t hr
  | raised t => trivial
  | stopped x => exact hr.elim

theorem Result.EndsIn.outcome_next {Q : State → Prop} {r : Result} (hr : r.EndsIn Q) : ∃ t, outcome r = .next t := by
  cases r with
  | done t => exact ⟨t, rfl⟩
  | raised t => exact ⟨t, rfl⟩
  | stopped x => exact hr.elim

/-! ### Arenas on which the walks do not stop -/

/-- Every child index is smaller than its parent's (R35 (b)). -/
def ChildrenBelow (n : List Node) : Prop :=
  ∀ (i : Nat) (l r : NodeIdx) (w : Weight), n[i]? = some (.internal l r w) → l.toNat < i ∧ r.toNat < i

/-- The part of R35 (b) the walks rely on: a tree that is there has its root in the arena and its children below. -/
def Walkable (s : State) : Prop := s.node = [] ∨ (s.root.toNat < s.node.length ∧ ChildrenBelow s.node)

/-- The invariant's condition on a record that has children. -/
theorem children_lt_of_nodeOk {n : List Node} {k i : Nat} {l r : NodeIdx} {w : Weight} (h : nodeOk n k i = true)
    (hi : n[i]? = some (.internal l r w)) : l.toNat < i ∧ r.toNat < i := by
  simp only [nodeOk, hi, Bool.and_eq_true, decide_eq_true_eq] at h
  obtain ⟨⟨⟨⟨-, hl⟩, hr⟩, -⟩, -⟩ := h
  exact ⟨hl, hr⟩

/-- What the invariant of R35 (b) says of an arena that is not empty, as far as the walks rely on it. -/
theorem treeOk_nonempty {n : List Node} {root : NodeIdx} (h : treeOk n root = true) (hne : n ≠ []) :
    root.toNat < n.length ∧ ChildrenBelow n := by
  simp only [treeOk, Bool.or_eq_true, Bool.and_eq_true, List.isEmpty_iff, beq_iff_eq, List.all_eq_true,
    List.mem_range] at h
  obtain ⟨hnil, -⟩ | ⟨⟨⟨-, hroot⟩, hnodes⟩, -⟩ := h
  · exact absurd hnil hne
  · exact ⟨by omega, fun i l r w hi =>
      children_lt_of_nodeOk (hnodes i (List.getElem?_eq_some_iff.1 hi).1) hi⟩

theorem walkable_of_inv {s : State} (h : Inv s) : Walkable s :=
  or_iff_not_imp_left.2 (treeOk_nonempty h.tree)

/-! ### `BUILD` leaves a walkable arena -/

/-- A merge of two nodes of the arena is a record whose children stand before it. -/
theorem childrenBelow_merge {n : List Node} {a b : Item} (hn : ChildrenBelow n) (ha : a.idx < n.length)
    (hb : b.idx < n.length) : ChildrenBelow (n ++ [mergeNode a b]) := by
  intro i l r w hi
  obtain hlt | rfl | hgt := Nat.lt_trichotomy i n.length
  · exact hn i l r w (by rwa [List.getElem?_append_left hlt] at hi)
  · simp only [List.getElem?_concat_length, mergeNode, Option.some.injEq, Node.internal.injEq] at hi
    obtain ⟨rfl, rfl, -⟩ := hi
    simp only [BitVec.toNat_ofNat]
    exact ⟨(Nat.mod_le _ _).trans_lt ha, (Nat.mod_le _ _).trans_lt hb⟩
  · rw [List.getElem?_eq_none (by simp; omega)] at hi
    cases hi

/-- The merge loop keeps children below their parents, as long as its collection names nodes of the arena. -/
theorem childrenBelow_mergeAll (k : Nat) {n : List Node} {q : List Item} (hn : ChildrenBelow n)
    (hq : ∀ x ∈ q, x.idx < n.length) : ChildrenBelow (mergeAll k n q).1 := by
  induction k generalizing n q with
  | zero => exact hn
  | succ k ih =>
    match q, hq with
    | [], _ => exact hn
    | [x], _ => rwa [mergeAll_single]
    | x :: y :: t, hq =>
      obtain ⟨a, b, q1, q2, h1, h2, hround⟩ := mergeAll_round k n (x :: y :: t) (by simp)
      have hq1 : ∀ z ∈ a :: q1, z.idx < n.length := fun z hz => hq z ((takeLeast_spec _ a q1 h1).1.mem_iff.2 hz)
      obtain ⟨ha, hq1⟩ := List.forall_mem_cons.1 hq1
      have hq2 : ∀ z ∈ b :: q2, z.idx < n.length := fun z hz => hq1 z ((takeLeast_spec q1 b q2 h2).1.mem_iff.2 hz)
      obtain ⟨hb, hq2⟩ := List.forall_mem_cons.1 hq2
      rw [hround]
      refine ih (childrenBelow_merge hn ha hb) fun z hz => ?_
      rw [List.length_append, List.length_singleton]
      obtain hz | hz := List.mem_append.1 hz
      · exact Nat.lt_succ_of_lt (hq2 z hz)
      · rw [List.mem_singleton.1 hz]
        exact Nat.lt_succ_self _

/-- A table's leaves stand at consecutive indices. -/
theorem idx_lt_of_mem_leafItems {i : Nat} {t : List FreqEntry} {x : Item} (hx : x ∈ leafItems i t) :
    x.idx < i + t.length := by
  induction t generalizing i with
  | nil => cases hx
  | cons e t ih =>
    rw [List.length_cons]
    obtain rfl | hx := List.mem_cons.1 hx
    · simp
    · have := ih hx
      omega

theorem childrenBelow_leaves (t : List FreqEntry) : ChildrenBelow (t.map leafOf) := by
  intro i l r w hi
  rw [List.getElem?_map] at hi
  cases ht : t[i]? <;> simp [ht, leafOf] at hi

theorem childrenBelow_buildTree (t : List FreqEntry) : ChildrenBelow (buildTree t).1 := by
  have harena : (buildTree t).1 = (mergeAll t.length (t.map leafOf) (leafItems 0 t)).1 := by
    rw [buildTree]
    split <;> simp [*]
  rw [harena]
  exact childrenBelow_mergeAll _ (childrenBelow_leaves t) fun x hx => by
    simpa using idx_lt_of_mem_leafItems hx

theorem root_lt_length_buildTree {t : List FreqEntry} (ht : t ≠ []) :
    (buildTree t).2.toNat < (buildTree t).1.length := by
  have hpos : 0 < t.length := List.length_pos_iff.2 ht
  obtain ⟨more, harena, hmore, -, hroot⟩ := buildTree_layout t ht
  rw [harena, hroot, List.length_append, List.length_map, hmore, BitVec.toNat_ofNat]
  have := Nat.mod_le (2 * t.length - 2) (2 ^ 9)
  omega

/-- `BUILD` never stops, and a tree it builds is walkable, whatever the table. -/
theorem runBuild_endsIn_walkable (s : State) : (runBuild s).EndsIn Walkable := by
  rw [runBuild]
  split
  · trivial
  · next hft => exact .inr ⟨root_lt_length_buildTree hft, childrenBelow_buildTree s.ft⟩

/-! ### The two walks -/

/-- `WALK` does not stop on a walkable arena. -/
theorem runWalk_endsIn {s : State} (hs : Walkable s) : (runWalk s).EndsIn fun _ => True := by
  obtain hnil | ⟨hroot, hbelow⟩ := hs
  · simp [runWalk, hnil]
  · have hne : s.node ≠ [] := List.length_pos_iff.1 (Nat.zero_lt_of_lt hroot)
    rw [runWalk, if_neg hne, List.getElem?_eq_getElem hroot]
    cases s.node[s.root.toNat] with
    | leaf sym w => trivial
    | internal l r w =>
      obtain ⟨c, hc⟩ := visit_ok s.node hbelow s.node.length s.root [] noCodes hroot hroot
      simp [hc]

/-- The tree walk never meets an index outside the arena when it starts at an internal node (R211). -/
theorem treeWalk_isSome {n : List Node} (hn : ChildrenBelow n) {root : NodeIdx}
    (hroot : ∃ l r w, n[root.toNat]? = some (.internal l r w)) (bs : List Bit) (cur : NodeIdx)
    (hcur : ∃ l r w, n[cur.toNat]? = some (.internal l r w)) : ∃ o c, treeWalk n root cur bs = some (o, c) := by
  induction bs generalizing cur with
  | nil => exact ⟨[], cur, rfl⟩
  | cons b bs ih =>
    obtain ⟨l, r, w, hw⟩ := hcur
    have hin : (if b then r else l).toNat < n.length := by
      have hlt := (List.getElem?_eq_some_iff.1 hw).1
      obtain ⟨hl, hr⟩ := hn _ l r w hw
      cases b
      · exact hl.trans hlt
      · exact hr.trans hlt
    have hnext := List.getElem?_eq_getElem hin
    rw [treeWalk, hw]
    cases hx : n[(if b then r else l).toNat] with
    | leaf sym v =>
      obtain ⟨o, c, ho⟩ := ih root hroot
      exact ⟨sym :: o, c, by simp [hnext, hx, ho]⟩
    | internal l' r' v =>
      rw [hx] at hnext
      obtain ⟨o, c, ho⟩ := ih _ ⟨l', r', v, hnext⟩
      exact ⟨o, c, by simp [hnext, ho]⟩

/-- `TWALK` does not stop on a walkable arena. -/
theorem runTwalk_endsIn {s : State} (hs : Walkable s) : (runTwalk s).EndsIn fun _ => True := by
  obtain hnil | ⟨hroot, hbelow⟩ := hs
  · simp [runTwalk, hnil]
  · have hne : s.node ≠ [] := List.length_pos_iff.1 (Nat.zero_lt_of_lt hroot)
    have hnode := List.getElem?_eq_getElem hroot
    rw [runTwalk, if_neg hne, hnode]
    cases hx : s.node[s.root.toNat] with
    | leaf sym w => exact endsIn_commit trivial _ _ _
    | internal l r w =>
      rw [hx] at hnode
      obtain ⟨o, c, ho⟩ := treeWalk_isSome hbelow ⟨l, r, w, hnode⟩ s.bits s.root ⟨l, r, w, hnode⟩
      simp only [ho]
      split
      · trivial
      · exact endsIn_commit trivial _ _ _

/-! ### The units that never stop -/

theorem runCount_endsIn (s : State) : (runCount s).EndsIn fun _ => True := by
  simp only [runCount]
  split_ifs <;> trivial

theorem runXlate_endsIn (s : State) : (runXlate s).EndsIn fun _ => True := by
  rw [runXlate]
  split
  · trivial
  · exact endsIn_commit trivial _ _ _

theorem runPack_endsIn (s : State) : (runPack s).EndsIn fun _ => True := endsIn_commit trivial _ _ _

theorem runHdrEnc_endsIn (s : State) : (runHdrEnc s).EndsIn fun _ => True := by
  rw [runHdrEnc]
  split <;> trivial

theorem runBlob_endsIn (s : State) : (runBlob s).EndsIn fun _ => True := by
  rw [runBlob]
  split
  · trivial
  · exact endsIn_commit trivial _ _ _

theorem runHdrDec_endsIn (s : State) : (runHdrDec s).EndsIn fun _ => True := by
  simp only [runHdrDec]
  split
  · split_ifs
    case neg => exact endsIn_commit trivial _ _ _
    all_goals trivial
  · trivial

/-- `UNPACK` never stops, and leaves the tree alone. -/
theorem runUnpack_endsIn {Q : State → Prop} {s : State} (hs : ∀ b, Q { s with bits := b }) : (runUnpack s).EndsIn Q := by
  rw [runUnpack]
  split
  · trivial
  · exact endsIn_commit (hs _) _ _ _

/-! ### The composites walk the tree they built -/

theorem runEncode_endsIn (s : State) : (runEncode s).EndsIn fun _ => True :=
  (runCount_endsIn (clearDerived s)).chain (fun t _ => runBuild_endsIn_walkable t)
    |>.chain (fun _ ht => runWalk_endsIn ht)
    |>.chain (fun t _ => runXlate_endsIn t)
    |>.chain (fun t _ => runPack_endsIn t)
    |>.chain (fun t _ => runHdrEnc_endsIn t)
    |>.chain (fun t _ => runBlob_endsIn t)

theorem runDecode_endsIn (s : State) : (runDecode s).EndsIn fun _ => True :=
  (runHdrDec_endsIn (clearDerived s)).chain (fun t _ => runBuild_endsIn_walkable t)
    |>.chain (Q := Walkable) (fun _ ht => runUnpack_endsIn fun _ => ht)
    |>.chain (fun _ ht => runTwalk_endsIn ht)

/-! ### The step -/

/-- Every command has a next state where the arena is walkable. -/
theorem exec_total (i : Instr) {s : State} (hs : Walkable s) : ∃ t, exec i s = .next t := by
  cases i with
  | nop => exact ⟨_, rfl⟩
  | reset => exact ⟨_, rfl⟩
  | inPush b => exact ⟨_, outcome_commit _ _ _ _⟩
  | ftPush x c =>
    simp only [exec, execFtPush]
    split_ifs <;> exact ⟨_, rfl⟩
  | bitPush b => exact ⟨_, outcome_commit _ _ _ _⟩
  | payPush b => exact ⟨_, outcome_commit _ _ _ _⟩
  | remSet r => exact ⟨_, rfl⟩
  | count => exact (runCount_endsIn s).outcome_next
  | build => exact (runBuild_endsIn_walkable s).outcome_next
  | walk => exact (runWalk_endsIn hs).outcome_next
  | xlate => exact (runXlate_endsIn s).outcome_next
  | pack => exact (runPack_endsIn s).outcome_next
  | hdrEnc => exact (runHdrEnc_endsIn s).outcome_next
  | blob => exact (runBlob_endsIn s).outcome_next
  | hdrDec => exact (runHdrDec_endsIn s).outcome_next
  | unpack => exact (runUnpack_endsIn (Q := fun _ => True) fun _ => trivial).outcome_next
  | twalk => exact (runTwalk_endsIn hs).outcome_next
  | encode => exact (runEncode_endsIn s).outcome_next
  | decode => exact (runDecode_endsIn s).outcome_next

/-- The step function of R115 answers every word, legal or not. -/
theorem issue_total (w : Word) {s : State} (hs : Walkable s) : ∃ t, issue w s = .next t := by
  rw [issue]
  split
  · split
    · exact exec_total _ hs
    · exact ⟨_, rfl⟩
  · split <;> exact ⟨_, rfl⟩

/-- Fetching the host's next word leaves the block as it is. -/
theorem fetch_block {s s' : State} {w : Word} (h : fetch s = some (w, s')) : s'.toBlockState = s.toBlockState := by
  rw [fetch] at h
  split at h <;> cases h
  rfl

/-- Settles O9: the invariant makes the arena walkable, and on a walkable arena every command has a next state. -/
theorem stepIsTotalOnInvariantStates : Obligations.StepIsTotalOnInvariantStates := by
  unfold Obligations.StepIsTotalOnInvariantStates
  intro s hinv
  rw [step]
  split
  · exact ⟨s, rfl⟩
  · next w s' hfetch =>
    have hs' : Walkable s' := by
      rw [Walkable, fetch_block hfetch]
      exact walkable_of_inv hinv
    exact issue_total w hs'

end Sys2Proof.Machine
end

section
/-! PROOFS. What each command leaves unchanged (spec/10_state.md R37, spec/40_host_commands.md R116): a command changes at most
its destination elements and `ERR`. -/

namespace Sys2Proof.Machine

/-! ### What a run leaves, whether it completes or raises -/

/-- Whether the run completes or raises, the state it leaves satisfies `P`. -/
def Result.Leaves (P : State → Prop) : Result → Prop
  | .done t => P t
  | .raised t => P t
  | .stopped _ => True

@[simp] theorem leaves_done (P : State → Prop) (t : State) : (Result.done t).Leaves P ↔ P t := Iff.rfl
@[simp] theorem leaves_raised (P : State → Prop) (t : State) : (Result.raised t).Leaves P ↔ P t := Iff.rfl
@[simp] theorem leaves_stopped (P : State → Prop) (x : Stop) : (Result.stopped x).Leaves P := trivial

theorem Result.Leaves.mono {P Q : State → Prop} {r : Result} (hr : r.Leaves P) (h : ∀ t, P t → Q t) : r.Leaves Q := by
  cases r with
  | done t => exact h t hr
  | raised t => exact h t hr
  | stopped x => trivial

/-- The rule for one unit after another. -/
theorem Result.Leaves.chain {P : State → Prop} {r : Result} {f : State → Result} (hr : r.Leaves P)
    (hf : ∀ t, P t → (f t).Leaves P) : (andThen r f).Leaves P := by
  cases r with
  | done t => exact hf t hr
  | raised t => exact hr
  | stopped x => trivial

theorem leaves_commit {P : State → Prop} {i : Instr} {fit : Bool} {s t : State} (ht : P t)
    (hs : P (raise (dests i) .capacity s)) : (commit i fit s t).Leaves P := by
  obtain ⟨-, h⟩ | ⟨-, h⟩ := commit_cases i fit s t <;> simp [h, ht, hs]

/-- What a run leaves holds of the next state the host sees. -/
theorem Result.Leaves.of_outcome {P : State → Prop} {r : Result} {t : State} (hr : r.Leaves P)
    (h : outcome r = .next t) : P t := by
  obtain rfl | rfl := (outcome_next_iff r t).1 h <;> exact hr

/-! ### Frames -/

theorem Same.symm {s t : State} {e : Elem} (h : Same s t e) : Same t s e := by
  cases e <;> exact Eq.symm h

theorem Same.trans {s t u : State} {e : Elem} (h : Same s t e) (h' : Same t u e) : Same s u e := by
  cases e <;> exact Eq.trans h h'

theorem unchangedOutside_refl (es : List Elem) (s : State) : UnchangedOutside es s s :=
  ⟨fun e _ => by cases e <;> rfl, rfl, rfl⟩

theorem UnchangedOutside.trans {es : List Elem} {s t u : State} (h : UnchangedOutside es s t)
    (h' : UnchangedOutside es t u) : UnchangedOutside es s u := by
  obtain ⟨hsame, hhost, hcaps⟩ := h
  obtain ⟨hsame', hhost', hcaps'⟩ := h'
  exact ⟨fun e he => (hsame e he).trans (hsame' e he), hhost'.trans hhost, hcaps'.trans hcaps⟩

theorem UnchangedOutside.mono {es es' : List Elem} {s t : State} (h : UnchangedOutside es s t) (hsub : es ⊆ es') :
    UnchangedOutside es' s t :=
  ⟨fun e he => h.1 e fun hin => he (hsub hin), h.2⟩

theorem same_clear {a e : Elem} (s : State) (h : e ≠ a) : Same s (clear s a) e := by
  cases a <;> cases e <;> first | rfl | exact absurd rfl h

/-- Clearing elements changes no other (spec/60_exceptions.md R231). -/
theorem unchangedOutside_clearAll (es : List Elem) (s : State) : UnchangedOutside es s (clearAll es s) := by
  refine ⟨fun e he => ?_, clearAll_host es s, clearAll_caps es s⟩
  induction es generalizing s with
  | nil => cases e <;> rfl
  | cons a es ih =>
    rw [List.mem_cons, not_or] at he
    exact (same_clear s he.1).trans (ih _ he.2)

/-- Two states that clearing `es` makes equal differ at most in `es`: the form in which the frame of a concrete write holds
by computation. -/
theorem unchangedOutside_of_clearAll_eq {es : List Elem} {s t : State} (h : clearAll es t = clearAll es s) :
    UnchangedOutside es s t := by
  obtain ⟨hs, hshost, hscaps⟩ := unchangedOutside_clearAll es s
  obtain ⟨ht, hthost, htcaps⟩ := unchangedOutside_clearAll es t
  rw [h] at ht hthost htcaps
  exact ⟨fun e he => (hs e he).trans (ht e he).symm, hthost.symm.trans hshost, htcaps.symm.trans hscaps⟩

theorem unchangedOutside_raise (es : List Elem) (e : Exc) (s : State) :
    UnchangedOutside (es ++ [.err]) s (raise es e s) := by
  have hclear := (unchangedOutside_clearAll es s).mono (List.subset_append_left es [.err])
  have herr : UnchangedOutside [.err] (clearAll es s) (raise es e s) := unchangedOutside_of_clearAll_eq rfl
  exact hclear.trans (herr.mono (List.subset_append_right es [.err]))

/-- What a command may change: its destinations and `ERR` (R37). -/
def FrameOf (i : Instr) (s t : State) : Prop := UnchangedOutside (dests i ++ [.err]) s t

/-- The frame of a raise (R231). -/
theorem frameOf_raise (i : Instr) (e : Exc) (s : State) : FrameOf i s (raise (dests i) e s) :=
  unchangedOutside_raise (dests i) e s

theorem leaves_frameOf_commit {i : Instr} {fit : Bool} {s t : State} (ht : FrameOf i s t) :
    (commit i fit s t).Leaves (FrameOf i s) :=
  leaves_commit ht (frameOf_raise i _ s)

theorem frameOf_of_commit {i : Instr} {fit : Bool} {s t u : State} (h : outcome (commit i fit s t) = .next u)
    (ht : FrameOf i s t) : FrameOf i s u :=
  (leaves_frameOf_commit ht).of_outcome h

/-! ### The units -/

theorem runCount_frame (s : State) : (runCount s).Leaves (FrameOf .count s) := by
  simp only [runCount]
  split_ifs
  case neg => exact unchangedOutside_of_clearAll_eq rfl
  all_goals exact frameOf_raise .count _ s

theorem runBuild_frame (s : State) : (runBuild s).Leaves (FrameOf .build s) := by
  rw [runBuild]
  split_ifs
  · exact frameOf_raise .build _ s
  · exact unchangedOutside_of_clearAll_eq rfl

theorem runWalk_frame (s : State) : (runWalk s).Leaves (FrameOf .walk s) := by
  rw [runWalk]
  split_ifs
  · exact frameOf_raise .walk _ s
  · cases s.node[s.root.toNat]? with
    | none => trivial
    | some x =>
      cases x with
      | leaf sym w => exact unchangedOutside_of_clearAll_eq rfl
      | internal l r w =>
        cases visit s.node s.node.length s.root [] noCodes with
        | error x => trivial
        | ok c => exact unchangedOutside_of_clearAll_eq rfl

theorem runXlate_frame (s : State) : (runXlate s).Leaves (FrameOf .xlate s) := by
  rw [runXlate]
  split
  · exact frameOf_raise .xlate _ s
  · exact leaves_frameOf_commit (unchangedOutside_of_clearAll_eq rfl)

theorem runPack_frame (s : State) : (runPack s).Leaves (FrameOf .pack s) :=
  leaves_frameOf_commit (unchangedOutside_of_clearAll_eq rfl)

theorem runHdrEnc_frame (s : State) : (runHdrEnc s).Leaves (FrameOf .hdrEnc s) := by
  rw [runHdrEnc]
  split_ifs
  · exact frameOf_raise .hdrEnc _ s
  · exact unchangedOutside_of_clearAll_eq rfl

theorem runBlob_frame (s : State) : (runBlob s).Leaves (FrameOf .blob s) := by
  rw [runBlob]
  split_ifs
  · exact frameOf_raise .blob _ s
  · exact leaves_frameOf_commit (unchangedOutside_of_clearAll_eq rfl)

theorem runHdrDec_frame (s : State) : (runHdrDec s).Leaves (FrameOf .hdrDec s) := by
  simp only [runHdrDec]
  split
  · split_ifs
    case neg => exact leaves_frameOf_commit (unchangedOutside_of_clearAll_eq rfl)
    all_goals exact frameOf_raise .hdrDec _ s
  · exact frameOf_raise .hdrDec _ s

theorem runUnpack_frame (s : State) : (runUnpack s).Leaves (FrameOf .unpack s) := by
  rw [runUnpack]
  split_ifs
  · exact frameOf_raise .unpack _ s
  · exact leaves_frameOf_commit (unchangedOutside_of_clearAll_eq rfl)

theorem runTwalk_frame (s : State) : (runTwalk s).Leaves (FrameOf .twalk s) := by
  rw [runTwalk]
  split_ifs
  · exact frameOf_raise .twalk _ s
  · cases s.node[s.root.toNat]? with
    | none => trivial
    | some x =>
      cases x with
      | leaf sym w => exact leaves_frameOf_commit (unchangedOutside_of_clearAll_eq rfl)
      | internal l r w =>
        cases treeWalk s.node s.root s.root s.bits with
        | none => trivial
        | some oc =>
          simp only
          split_ifs
          · exact frameOf_raise .twalk _ s
          · exact leaves_frameOf_commit (unchangedOutside_of_clearAll_eq rfl)

/-! ### The composites -/

/-- A composite changes no element that none of its units changes. -/
theorem Result.Leaves.chain_frame {es : List Elem} {i : Instr} {s : State} {r : Result} {f : State → Result}
    (hr : r.Leaves (UnchangedOutside es s)) (hf : ∀ t, (f t).Leaves (FrameOf i t)) (hsub : dests i ++ [.err] ⊆ es) :
    (andThen r f).Leaves (UnchangedOutside es s) :=
  hr.chain fun t ht => (hf t).mono fun _ hu => ht.trans (UnchangedOutside.mono hu hsub)

/-- What the units of `ENCODE` write: everything but `IN` and `POFF` (spec/46_encoder.md R195, R200). -/
def encodeWrites : List Elem := [.ft, .node, .root, .ct, .bits, .pay, .rem, .hdr, .out, .err]

/-- What the units of `DECODE` write: everything but `IN`, `CT` and `HDR` (spec/47_decoder.md R210, R215). -/
def decodeWrites : List Elem := [.ft, .node, .root, .bits, .pay, .rem, .poff, .out, .err]

theorem runEncode_frame (s : State) : (runEncode s).Leaves (UnchangedOutside encodeWrites (clearDerived s)) :=
  (runCount_frame _).mono (fun _ h => UnchangedOutside.mono h (by decide))
    |>.chain_frame runBuild_frame (by decide)
    |>.chain_frame runWalk_frame (by decide)
    |>.chain_frame runXlate_frame (by decide)
    |>.chain_frame runPack_frame (by decide)
    |>.chain_frame runHdrEnc_frame (by decide)
    |>.chain_frame runBlob_frame (by decide)

theorem runDecode_frame (s : State) : (runDecode s).Leaves (UnchangedOutside decodeWrites (clearDerived s)) :=
  (runHdrDec_frame _).mono (fun _ h => UnchangedOutside.mono h (by decide))
    |>.chain_frame runBuild_frame (by decide)
    |>.chain_frame runUnpack_frame (by decide)
    |>.chain_frame runTwalk_frame (by decide)

/-- The frame of a composite, from that of its units and of `ClearDerived` (spec/46_encoder.md R201). -/
theorem frameOf_composite {i : Instr} {es : List Elem} {s t : State} (h : UnchangedOutside es (clearDerived s) t)
    (hes : es ⊆ dests i ++ [.err]) (hi : derivedElems ⊆ dests i ++ [.err]) : FrameOf i s t :=
  ((unchangedOutside_clearAll derivedElems s).mono hi).trans (h.mono hes)

/-! ### Every command -/

/-- A command changes at most its destination elements and `ERR` (R37, R116). -/
theorem exec_frame {i : Instr} {s t : State} (h : exec i s = .next t) : FrameOf i s t := by
  cases i with
  | nop => cases h; exact unchangedOutside_refl _ s
  | reset => cases h; exact ⟨fun e he => absurd (by cases e <;> decide) he, rfl, rfl⟩
  | inPush b => exact frameOf_of_commit h (unchangedOutside_of_clearAll_eq rfl)
  | ftPush x c =>
    simp only [exec, execFtPush] at h
    split_ifs at h <;> cases h
    · exact frameOf_raise (.ftPush x c) _ s
    · exact frameOf_raise (.ftPush x c) _ s
    · exact unchangedOutside_of_clearAll_eq rfl
  | bitPush b => exact frameOf_of_commit h (unchangedOutside_of_clearAll_eq rfl)
  | payPush b => exact frameOf_of_commit h (unchangedOutside_of_clearAll_eq rfl)
  | remSet r => cases h; exact unchangedOutside_of_clearAll_eq rfl
  | count => exact (runCount_frame s).of_outcome h
  | build => exact (runBuild_frame s).of_outcome h
  | walk => exact (runWalk_frame s).of_outcome h
  | xlate => exact (runXlate_frame s).of_outcome h
  | pack => exact (runPack_frame s).of_outcome h
  | hdrEnc => exact (runHdrEnc_frame s).of_outcome h
  | blob => exact (runBlob_frame s).of_outcome h
  | hdrDec => exact (runHdrDec_frame s).of_outcome h
  | unpack => exact (runUnpack_frame s).of_outcome h
  | twalk => exact (runTwalk_frame s).of_outcome h
  | encode => exact frameOf_composite ((runEncode_frame s).of_outcome h) (by decide) (by decide)
  | decode => exact frameOf_composite ((runDecode_frame s).of_outcome h) (by decide) (by decide)

/-- Settles O16: a load command's frame is that of every command; `NOP` and `REM_SET`, which never raise, keep `ERR` too. -/
theorem loadCommandFrames : Obligations.LoadCommandFrames := by
  unfold Obligations.LoadCommandFrames
  intro s t
  refine ⟨?nop, ?reset, fun _ h => exec_frame h, fun _ _ h => exec_frame h, fun _ h => exec_frame h,
    fun _ h => exec_frame h, ?remSet⟩
  case nop => rintro ⟨⟩; exact unchangedOutside_refl [] s
  case reset => rintro ⟨⟩; exact ⟨hardwareReset_host s, hardwareReset_caps s⟩
  case remSet => rintro r ⟨⟩; exact unchangedOutside_of_clearAll_eq rfl

/-- Settles O17: each clause is the frame of every command, `exec_frame`, at one unit. -/
theorem unitCommandFrames : Obligations.UnitCommandFrames := by
  unfold Obligations.UnitCommandFrames
  intro s t
  exact ⟨exec_frame, exec_frame, exec_frame, exec_frame, exec_frame, exec_frame, exec_frame, exec_frame, exec_frame,
    exec_frame⟩

/-- Settles O18: no unit of `ENCODE` writes `IN` or `POFF`, none of `DECODE` writes `IN`, `HDR` or `CT`, so these are as
`ClearDerived` left them. -/
theorem compositeCommandFrames : Obligations.CompositeCommandFrames := by
  unfold Obligations.CompositeCommandFrames
  intro s t
  constructor
  · intro h
    have hframe := (runEncode_frame s).of_outcome h
    rw [clearDerived_eq] at hframe
    obtain ⟨hsame, hhost, hcaps⟩ := hframe
    exact ⟨(hsame .inBuf (by decide)).symm, hhost, hcaps, (hsame .poff (by decide)).symm⟩
  · intro h
    have hframe := (runDecode_frame s).of_outcome h
    rw [clearDerived_eq] at hframe
    obtain ⟨hsame, hhost, hcaps⟩ := hframe
    have hct : t.ct = noCodes := (hsame .ct (by decide)).symm
    exact ⟨(hsame .inBuf (by decide)).symm, hhost, hcaps, (hsame .hdr (by decide)).symm, fun b => by
      rw [hct, codeOf_noCodes]⟩

end Sys2Proof.Machine
end

section
/-! PROOFS. The tree `BUILD` makes meets R35 (b) (spec/10_state.md; spec/42_tree_builder.md R141 to R151): an invariant of the
merge loop, which the initial collection has and every round keeps. -/

namespace Sys2Proof.Machine

/-! ### The tree invariant written out -/

/-- What R35 (b) says of an arena that is not empty: `k` leaves and then `k - 1` internal records, the last the root, every
other record with one parent. -/
structure FullTree (k : Nat) (n : List Node) (root : NodeIdx) : Prop where
  leaves_pos : 1 ≤ k
  leaves_le : k ≤ 255
  size : n.length + 1 = 2 * k
  root_last : root.toNat + 1 = n.length
  nodes : ∀ i < n.length, nodeOk n k i = true
  one_parent : ∀ c < n.length - 1, n.countP (isParentOf c) = 1

/-- The test of the model is the condition of R35 (b). -/
theorem treeOk_iff (n : List Node) (root : NodeIdx) :
    treeOk n root = true ↔ (n = [] ∧ root = 0#9) ∨ ∃ k, FullTree k n root := by
  have hk : ∀ k, n.length + 1 = 2 * k → (n.length + 1) / 2 = k := by omega
  simp only [treeOk, Bool.or_eq_true, Bool.and_eq_true, List.isEmpty_iff, beq_iff_eq, List.all_eq_true,
    List.mem_range, decide_eq_true_eq]
  refine or_congr_right ⟨?_, ?_⟩
  · rintro ⟨⟨⟨⟨⟨hpos, hle⟩, hsize⟩, hroot⟩, hnodes⟩, hpar⟩
    exact ⟨_, hpos, hle, hsize, hroot, hnodes, hpar⟩
  · rintro ⟨k, hpos, hle, hsize, hroot, hnodes, hpar⟩
    rw [hk k hsize]
    exact ⟨⟨⟨⟨⟨hpos, hle⟩, hsize⟩, hroot⟩, hnodes⟩, hpar⟩

/-- What the condition says of an internal record: it stands after the leaves, its children are distinct and stand before it,
its weight is the exact sum of theirs. -/
theorem nodeOk_internal_iff {n : List Node} {k i : Nat} {l r : NodeIdx} {w : Weight}
    (hi : n[i]? = some (.internal l r w)) :
    nodeOk n k i = true ↔
      k ≤ i ∧ l.toNat < i ∧ r.toNat < i ∧ l ≠ r ∧ w.toNat = weightAt n l.toNat + weightAt n r.toNat := by
  simp [nodeOk, hi, and_assoc]

theorem nodeOk_leaf_iff {n : List Node} {k i : Nat} {sym : Byte} {w : Weight} (hi : n[i]? = some (.leaf sym w)) :
    nodeOk n k i = true ↔ i < k := by
  simp [nodeOk, hi]

/-! ### Records appended to an arena -/

theorem weightAt_of_getElem? {n : List Node} {i : Nat} {x : Node} (hi : n[i]? = some x) :
    weightAt n i = (nodeWeight x).toNat := by
  simp [weightAt, hi]

theorem weightAt_append_left (n more : List Node) {i : Nat} (hi : i < n.length) :
    weightAt (n ++ more) i = weightAt n i := by
  simp only [weightAt, List.getElem?_append_left hi]

/-- A record looks only at records before it, so it stays well formed when the arena grows. -/
theorem nodeOk_append_left (n more : List Node) {k i : Nat} (hi : i < n.length) :
    nodeOk (n ++ more) k i = nodeOk n k i := by
  have happ := List.getElem?_append_left (l₂ := more) hi
  have hget := List.getElem?_eq_getElem hi
  rw [Bool.eq_iff_iff]
  cases hx : n[i] with
  | leaf sym w =>
    rw [hx] at hget
    rw [nodeOk_leaf_iff hget, nodeOk_leaf_iff (happ.trans hget)]
  | internal l r w =>
    rw [hx] at hget
    rw [nodeOk_internal_iff hget, nodeOk_internal_iff (happ.trans hget)]
    refine and_congr_right fun _ => and_congr_right fun hl => and_congr_right fun hr => ?_
    rw [weightAt_append_left n more (hl.trans hi), weightAt_append_left n more (hr.trans hi)]

/-- In an arena of well-formed records no record has a child at or after its end. -/
theorem countP_isParentOf_of_length_le {n : List Node} {k c : Nat} (hn : ∀ i < n.length, nodeOk n k i = true)
    (hc : n.length ≤ c) : n.countP (isParentOf c) = 0 := by
  rw [List.countP_eq_zero]
  intro x hx
  obtain ⟨i, hi, rfl⟩ := List.mem_iff_getElem.1 hx
  cases hx : n[i] with
  | leaf sym w => simp [isParentOf]
  | internal l r w =>
    obtain ⟨hl, hr⟩ := children_lt_of_nodeOk (hn i hi) (by rw [List.getElem?_eq_getElem hi, hx])
    simp only [isParentOf, Bool.or_eq_true, beq_iff_eq]
    omega

/-! ### The invariant of the merge loop -/

/-- The sum of the weights in the collection. -/
def itemsWeight (q : List Item) : Nat := (q.map fun x => (nodeWeight x.node).toNat).sum

/-- The merge loop's invariant on the arena `n` of a table of `k` entries and total count `total`, and the collection `q`:
the records are well formed, and `q` names distinct records of the arena, exactly those without a parent. -/
structure MergeInv (k total : Nat) (n : List Node) (q : List Item) : Prop where
  leaves_le : k ≤ n.length
  size : n.length + q.length = 2 * k
  nodes : ∀ i < n.length, nodeOk n k i = true
  items : ∀ x ∈ q, n[x.idx]? = some x.node
  distinct : (q.map Item.idx).Nodup
  parents : ∀ c < n.length, n.countP (isParentOf c) = if c ∈ q.map Item.idx then 0 else 1
  weight : itemsWeight q = total

/-- The order of the collection does not matter to the invariant. -/
theorem MergeInv.perm {k total : Nat} {n : List Node} {q q' : List Item} (h : MergeInv k total n q) (hq : q.Perm q') :
    MergeInv k total n q' where
  leaves_le := h.leaves_le
  size := hq.length_eq ▸ h.size
  nodes := h.nodes
  items x hx := h.items x (hq.mem_iff.2 hx)
  distinct := (hq.map _).nodup_iff.1 h.distinct
  parents c hc := (h.parents c hc).trans (if_congr (hq.map _).mem_iff rfl rfl)
  weight := h.weight ▸ ((hq.map _).sum_eq).symm

theorem MergeInv.idx_lt {k total : Nat} {n : List Node} {q : List Item} (h : MergeInv k total n q) {x : Item}
    (hx : x ∈ q) : x.idx < n.length :=
  (List.getElem?_eq_some_iff.1 (h.items x hx)).1

/-- An index below 512 is its 9-bit field (spec/00_scope.md R10). -/
theorem toNat_nodeIdx {i : Nat} (hi : i < 512) : (BitVec.ofNat 9 i).toNat = i := by
  rw [BitVec.toNat_ofNat, Nat.mod_eq_of_lt hi]

/-- Within 512 records the merge's children are the two nodes merged (R144). -/
theorem isParentOf_mergeNode {a b : Item} (ha : a.idx < 512) (hb : b.idx < 512) (c : Nat) :
    isParentOf c (mergeNode a b) = true ↔ c = a.idx ∨ c = b.idx := by
  simp only [isParentOf, mergeNode, toNat_nodeIdx ha, toNat_nodeIdx hb, Bool.or_eq_true, beq_iff_eq]
  exact or_congr eq_comm eq_comm

/-- Within the width of a weight the merge's weight is the exact sum (R145). -/
theorem nodeWeight_mergeNode {a b : Item}
    (h : (nodeWeight a.node).toNat + (nodeWeight b.node).toNat < 2 ^ 24) :
    (nodeWeight (mergeNode a b)).toNat = (nodeWeight a.node).toNat + (nodeWeight b.node).toNat := by
  rw [mergeNode, nodeWeight, BitVec.toNat_add, Nat.mod_eq_of_lt h]

/-- The merge of two distinct records of an arena is a well-formed next record. -/
theorem nodeOk_mergeNode {n : List Node} {k : Nat} {a b : Item} (hk : k ≤ n.length) (hn : n.length ≤ 512)
    (ha : n[a.idx]? = some a.node) (hb : n[b.idx]? = some b.node) (hne : a.idx ≠ b.idx)
    (hw : (nodeWeight a.node).toNat + (nodeWeight b.node).toNat < 2 ^ 24) :
    nodeOk (n ++ [mergeNode a b]) k n.length = true := by
  have halt := (List.getElem?_eq_some_iff.1 ha).1
  have hblt := (List.getElem?_eq_some_iff.1 hb).1
  have haidx := toNat_nodeIdx (halt.trans_le hn)
  have hbidx := toNat_nodeIdx (hblt.trans_le hn)
  have hlast : (n ++ [mergeNode a b])[n.length]? = some (mergeNode a b) := List.getElem?_concat_length
  rw [nodeOk_internal_iff hlast, haidx, hbidx, weightAt_append_left _ _ halt,
    weightAt_append_left _ _ hblt, weightAt_of_getElem? ha, weightAt_of_getElem? hb]
  exact ⟨hk, halt, hblt, fun h => hne (by rw [← haidx, h, hbidx]), nodeWeight_mergeNode hw⟩

/-- After a merge the two nodes merged have their parent, and the new record has none (R142). -/
theorem MergeInv.parents_merge {k total : Nat} {n : List Node} {a b : Item} {q : List Item} (hk : k ≤ 255)
    (h : MergeInv k total n (a :: b :: q)) {c : Nat} (hc : c < n.length + 1) :
    (n ++ [mergeNode a b]).countP (isParentOf c) = if c = n.length ∨ c ∈ q.map Item.idx then 0 else 1 := by
  have halt := h.idx_lt (x := a) (by simp)
  have hblt := h.idx_lt (x := b) (by simp)
  have hsize := h.size
  have hdistinct := h.distinct
  simp only [List.map_cons, List.nodup_cons, List.mem_cons, not_or] at hdistinct
  obtain ⟨⟨-, haq⟩, hbq, -⟩ := hdistinct
  simp only [List.countP_append, List.countP_singleton,
    isParentOf_mergeNode (show a.idx < 512 by omega) (show b.idx < 512 by omega)]
  obtain hlt | rfl := Nat.lt_succ_iff_lt_or_eq.1 hc
  · have hold := h.parents c hlt
    simp only [List.map_cons, List.mem_cons] at hold
    rw [hold]
    by_cases hab : c = a.idx ∨ c = b.idx
    · have hcq : c ∉ q.map Item.idx := by obtain rfl | rfl := hab <;> assumption
      simp [hab, hcq, hlt.ne]
    · simp [← or_assoc, hab, hlt.ne]
  · rw [countP_isParentOf_of_length_le h.nodes le_rfl, if_neg (by omega), if_pos (.inl rfl)]

/-- A round keeps the invariant (R144, R145): within 255 leaves no arena index and no weight wraps. -/
theorem MergeInv.merge {k total : Nat} {n : List Node} {a b : Item} {q : List Item} (hk : k ≤ 255)
    (htotal : total < 2 ^ 24) (h : MergeInv k total n (a :: b :: q)) :
    MergeInv k total (n ++ [mergeNode a b]) (q ++ [⟨n.length, mergeNode a b⟩]) := by
  have ha := h.items a (by simp)
  have hb := h.items b (by simp)
  have halt := h.idx_lt (x := a) (by simp)
  have hblt := h.idx_lt (x := b) (by simp)
  have hqlt : ∀ x ∈ q, x.idx < n.length := fun x hx => h.idx_lt (by simp [hx])
  have hsize : n.length + (q.length + 2) = 2 * k := h.size
  have hweight : (nodeWeight a.node).toNat + ((nodeWeight b.node).toNat + itemsWeight q) = total := h.weight
  have hdistinct := h.distinct
  simp only [List.map_cons, List.nodup_cons, List.mem_cons, not_or] at hdistinct
  obtain ⟨⟨hab, haq⟩, hbq, hnodup⟩ := hdistinct
  have hnew : n.length ∉ q.map Item.idx := by
    rw [List.mem_map]
    rintro ⟨x, hx, hlen⟩
    exact (hqlt x hx).ne hlen
  constructor
  case leaves_le => rw [List.length_append]; exact h.leaves_le.trans (Nat.le_add_right _ _)
  case size => simp only [List.length_append, List.length_singleton]; omega
  case nodes =>
    intro i hi
    rw [List.length_append, List.length_singleton] at hi
    obtain hlt | rfl := Nat.lt_succ_iff_lt_or_eq.1 hi
    · rw [nodeOk_append_left _ _ hlt, h.nodes i hlt]
    · exact nodeOk_mergeNode h.leaves_le (by omega) ha hb hab (by omega)
  case items =>
    intro x hx
    obtain hx | hx := List.mem_append.1 hx
    · rw [List.getElem?_append_left (hqlt x hx), h.items x (by simp [hx])]
    · rw [List.mem_singleton.1 hx, List.getElem?_concat_length]
  case distinct =>
    rw [List.map_append, List.map_singleton]
    exact List.nodup_append.2 ⟨hnodup, List.nodup_singleton _, fun x hx y hy hxy => by
      rw [hxy, List.mem_singleton.1 hy] at hx
      exact hnew hx⟩
  case parents =>
    intro c hc
    rw [List.length_append, List.length_singleton] at hc
    rw [h.parents_merge hk hc]
    exact if_congr (by simp [or_comm]) rfl rfl
  case weight =>
    simp only [itemsWeight, List.map_append, List.map_singleton, List.sum_append, List.sum_singleton] at hweight ⊢
    rw [nodeWeight_mergeNode (by omega)]
    omega

/-- What holds of the arena and the collection, whatever the collection's order, and is kept when two members are merged,
holds after the merge loop. -/
theorem mergeAll_induction {P : List Node → List Item → Prop}
    (hperm : ∀ n q q', q.Perm q' → P n q → P n q')
    (hmerge : ∀ n a b q, P n (a :: b :: q) → P (n ++ [mergeNode a b]) (q ++ [⟨n.length, mergeNode a b⟩]))
    (k : Nat) {n : List Node} {q : List Item} (h : P n q) : P (mergeAll k n q).1 (mergeAll k n q).2 := by
  induction k generalizing n q with
  | zero => exact h
  | succ k ih =>
    match q, h with
    | [], h => exact h
    | [x], h => rwa [mergeAll_single]
    | x :: y :: t, h =>
      obtain ⟨a, b, q1, q2, h1, h2, hround⟩ := mergeAll_round k n (x :: y :: t) (by simp)
      have hp1 := (takeLeast_spec _ a q1 h1).1
      have hp2 := (takeLeast_spec _ b q2 h2).1
      rw [hround]
      exact ih (hmerge n a b q2 (hperm n _ _ (hp1.trans (hp2.cons a)) h))

/-! ### The initial collection -/

theorem leafItems_idx (i : Nat) (t : List FreqEntry) : (leafItems i t).map Item.idx = List.range' i t.length := by
  induction t generalizing i with
  | nil => rfl
  | cons e t ih => simp [leafItems, ih, List.range'_succ]

theorem getElem?_of_mem_leafItems {i : Nat} {t : List FreqEntry} {x : Item} (hx : x ∈ leafItems i t) :
    i ≤ x.idx ∧ (t.map leafOf)[x.idx - i]? = some x.node := by
  induction t generalizing i with
  | nil => cases hx
  | cons e t ih =>
    obtain rfl | hx := List.mem_cons.1 hx
    · simp
    · obtain ⟨hle, hget⟩ := ih hx
      have hsub : x.idx - i = (x.idx - (i + 1)) + 1 := by omega
      exact ⟨by omega, by rw [hsub, List.map_cons, List.getElem?_cons_succ, hget]⟩

/-- The total of a table's counts. -/
def tableWeight (t : List FreqEntry) : Nat := (t.map fun e => e.cnt.toNat).sum

theorem itemsWeight_leafItems (i : Nat) (t : List FreqEntry) : itemsWeight (leafItems i t) = tableWeight t := by
  induction t generalizing i with
  | nil => rfl
  | cons e t ih =>
    have hcnt : (nodeWeight (leafOf e)).toNat = e.cnt.toNat := by
      simp only [leafOf, nodeWeight, BitVec.toNat_setWidth]
      exact Nat.mod_eq_of_lt (e.cnt.isLt.trans (by decide))
    have ih' := ih (i + 1)
    simp only [itemsWeight, tableWeight, leafItems, List.map_cons, List.sum_cons] at ih' ⊢
    rw [hcnt, ih']

/-- Within 255 entries the total count fits the weight field (R145). -/
theorem tableWeight_lt {t : List FreqEntry} (ht : t.length ≤ 255) : tableWeight t < 2 ^ 24 := by
  have hle : tableWeight t ≤ t.length * 65535 := by
    have := List.sum_le_card_nsmul (t.map fun e => e.cnt.toNat) 65535 (by
      simp only [List.mem_map]
      rintro _ ⟨e, -, rfl⟩
      have := e.cnt.isLt
      omega)
    simpa [tableWeight] using this
  omega

theorem mergeInv_leaves (t : List FreqEntry) :
    MergeInv t.length (tableWeight t) (t.map leafOf) (leafItems 0 t) where
  leaves_le := by simp
  size := by simp; omega
  nodes i hi := by
    rw [List.length_map] at hi
    exact (nodeOk_leaf_iff (sym := t[i].sym) (w := t[i].cnt.setWidth 24) (by simp [hi, leafOf])).2 hi
  items x hx := (getElem?_of_mem_leafItems hx).2
  distinct := by rw [leafItems_idx]; exact List.nodup_range'
  parents c hc := by
    rw [List.length_map] at hc
    rw [leafItems_idx, if_pos (by simp [hc]), List.countP_eq_zero]
    simp [leafOf, isParentOf]
  weight := itemsWeight_leafItems 0 t

/-! ### The tree of a table -/

/-- After the merge loop the root is the one member of the collection. -/
theorem mergeInv_buildTree {t : List FreqEntry} (ht : t ≠ []) (hle : t.length ≤ 255) :
    ∃ r, MergeInv t.length (tableWeight t) (buildTree t).1 [r] ∧ r.idx = (buildTree t).2.toNat := by
  have hpos : 0 < t.length := List.length_pos_iff.2 ht
  obtain ⟨more, r, hm, -⟩ :=
    mergeAll_shape (t.length - 1) t.length (t.map leafOf) (leafItems 0 t) (by simp; omega) (by omega)
  have hinv := mergeAll_induction (P := MergeInv t.length (tableWeight t)) (fun _ _ _ hp h => h.perm hp)
    (fun _ _ _ _ h => h.merge hle (tableWeight_lt hle)) t.length (mergeInv_leaves t)
  have hb : buildTree t = (t.map leafOf ++ more, BitVec.ofNat 9 r.idx) := by simp [buildTree, hm]
  rw [hm] at hinv
  refine ⟨r, by rwa [hb], ?_⟩
  have hidx := hinv.idx_lt (List.mem_singleton_self r)
  have hsize := hinv.size
  rw [List.length_singleton] at hsize
  rw [hb, BitVec.toNat_ofNat]
  simp only at hidx hsize
  omega

/-- `BUILD` of a table of 1 to 255 entries makes a tree as R35 (b) says. -/
theorem fullTree_buildTree {t : List FreqEntry} (ht : t ≠ []) (hle : t.length ≤ 255) :
    FullTree t.length (buildTree t).1 (buildTree t).2 := by
  have hpos : 0 < t.length := List.length_pos_iff.2 ht
  obtain ⟨r, hinv, hr⟩ := mergeInv_buildTree ht hle
  obtain ⟨-, -, -, -, hroot⟩ := buildTree_layout t ht
  have hsize : (buildTree t).1.length + 1 = 2 * t.length := hinv.size
  have hroot' : (buildTree t).2.toNat = 2 * t.length - 2 := by
    rw [hroot, BitVec.toNat_ofNat]
    omega
  refine ⟨hpos, hle, hsize, by omega, hinv.nodes, fun c hc => ?_⟩
  rw [hinv.parents c (by omega), if_neg]
  rw [List.map_singleton, List.mem_singleton]
  omega

/-- The leaves of the tree have the symbols of the table, in table order (R147). -/
theorem leafSyms_buildTree {t : List FreqEntry} (ht : t ≠ []) :
    leafSyms (buildTree t).1 = t.map fun e => e.sym := by
  obtain ⟨more, harena, -, hint, -⟩ := buildTree_layout t ht
  have hmore : leafSyms more = [] := by
    rw [leafSyms, List.filterMap_eq_nil_iff]
    intro x hx
    obtain ⟨a, b, w, rfl⟩ := hint x hx
    rfl
  have hleaves : leafSyms (t.map leafOf) = t.map fun e => e.sym := by
    simp [leafSyms, List.filterMap_map, Function.comp_def, leafOf]
  rw [harena, ← hleaves, leafSyms, List.filterMap_append]
  exact (congrArg _ hmore).trans (List.append_nil _)

end Sys2Proof.Machine
end

section
/-! PROOFS. The invariant of spec/10_state.md R35: the reset state has it and every step keeps it. What a command does not
write is covered by its frame; each unit that writes an element of the invariant has a lemma of its own. -/

namespace Sys2Proof.Machine

/-! ### The reset state -/

theorem inv_reset : Inv State.reset where
  table := ⟨by decide, by simp⟩
  tree := by decide
  leaves := by simp [leafSyms]
  codes b p h := by simp at h
  header := .inl rfl
  offset := .inl rfl

/-- Settles O11: the reset state has the invariant, and empty buffers fit every capacity. -/
theorem resetMeetsTheInvariant : Obligations.ResetMeetsTheInvariant := by
  unfold Obligations.ResetMeetsTheInvariant
  exact ⟨inv_reset, by simp [Memory.wf, fits_zero]⟩

/-- Settles O13: the reset values of R39, element by element. -/
theorem resetValues : Obligations.ResetValues := by
  unfold Obligations.ResetValues
  exact ⟨rfl, rfl, rfl, rfl, rfl, rfl, rfl, codeOf_noCodes, rfl, rfl, rfl, rfl⟩

/-! ### Elements that are kept or cleared -/

/-- The elements the invariant speaks of. -/
def invElems : List Elem := [.ft, .node, .root, .ct, .hdr, .poff]

/-- The invariant depends on these elements alone. -/
theorem Inv.of_same {s t : State} (h : Inv s) (hsame : ∀ e ∈ invElems, Same s t e) : Inv t := by
  have hft : s.ft = t.ft := hsame .ft (by decide)
  have hnode : s.node = t.node := hsame .node (by decide)
  have hroot : s.root = t.root := hsame .root (by decide)
  have hct : s.ct = t.ct := hsame .ct (by decide)
  have hhdr : s.hdr = t.hdr := hsame .hdr (by decide)
  have hpoff : s.poff = t.poff := hsame .poff (by decide)
  obtain ⟨htable, htree, hleaves, hcodes, hheader, hoffset⟩ := h
  exact ⟨hft ▸ htable, hnode ▸ hroot ▸ htree, hnode ▸ hleaves, hct ▸ hcodes, hhdr ▸ hheader, hpoff ▸ hoffset⟩

/-- A command that writes none of these elements keeps the invariant. -/
theorem Inv.of_frame {i : Instr} {s t : State} (h : Inv s) (hframe : FrameOf i s t)
    (hi : ∀ e ∈ invElems, e ∉ dests i ++ [.err]) : Inv t :=
  h.of_same fun e he => hframe.1 e (hi e he)

/-- Taking an exception keeps the invariant: the two elements of the tree are cleared together (R231). -/
theorem inv_raise (i : Instr) (e : Exc) {s : State} (h : Inv s) : Inv (raise (dests i) e s) := by
  cases i
  case count | ftPush => exact { h with table := inv_reset.table }
  case build => exact { h with tree := inv_reset.tree, leaves := inv_reset.leaves }
  case walk => exact { h with codes := inv_reset.codes }
  case hdrEnc => exact { h with header := inv_reset.header }
  case hdrDec => exact { h with table := inv_reset.table, offset := inv_reset.offset }
  case reset | encode | decode =>
    exact ⟨inv_reset.table, inv_reset.tree, inv_reset.leaves, inv_reset.codes, inv_reset.header, inv_reset.offset⟩
  all_goals exact h.of_frame (frameOf_raise _ e s) (by simp [invElems, dests])

theorem inv_clearDerived {s : State} : Inv (clearDerived s) :=
  ⟨inv_reset.table, inv_reset.tree, inv_reset.leaves, inv_reset.codes, inv_reset.header, inv_reset.offset⟩

/-! ### The units that write an element of the invariant -/

theorem runCount_keepsInv {s : State} (h : Inv s) : (runCount s).Leaves Inv := by
  simp only [runCount]
  split_ifs with _ hlen
  case neg =>
    have hsyms : (scan s.inBuf).map Prod.fst = s.inBuf.eraseDups := by simp [scan_eq, Function.comp_def]
    exact { h with table := ⟨by simpa [Config.nMax] using hlen, by
      simpa [Function.comp_def, hsyms] using nodup_eraseDups s.inBuf⟩ }
  all_goals exact inv_raise .count _ h

theorem runBuild_keepsInv {s : State} (h : Inv s) : (runBuild s).Leaves Inv := by
  rw [runBuild]
  split_ifs with hft
  · exact inv_raise .build _ h
  · obtain ⟨hlen, hnodup⟩ := h.table
    exact { h with
      tree := (treeOk_iff _ _).2 (.inr ⟨_, fullTree_buildTree hft hlen⟩)
      leaves := by simpa [leafSyms_buildTree hft] using hnodup }

/-- A path from an internal record to a leaf has at most as many steps as there are internal records up to it. -/
theorem length_path_le {n : List Node} {k : Nat} (hn : ∀ i < n.length, nodeOk n k i = true) (p : Code) {i : NodeIdx}
    {sym : Byte} {w : Weight} (hp : follow n i p = some (.leaf sym w)) : p = [] ∨ p.length + k ≤ i.toNat + 1 := by
  induction p generalizing i with
  | nil => exact .inl rfl
  | cons b p ih =>
    right
    rw [follow] at hp
    cases hi : n[i.toNat]? with
    | none => simp [hi] at hp
    | some x =>
      cases x with
      | leaf s v => simp [hi] at hp
      | internal l r v =>
        simp only [hi] at hp
        have hok := hn _ (List.getElem?_eq_some_iff.1 hi).1
        obtain ⟨hk, hl, hr, -⟩ := (nodeOk_internal_iff hi).1 hok
        have hchild : (if b then r else l).toNat < i.toNat := by cases b <;> assumption
        rw [List.length_cons]
        obtain rfl | hlen := ih hp
        · rw [List.length_nil]
          omega
        · omega

/-- The codes `WALK` leaves have 1 to 254 bits (R165): the path of a leaf below an internal root is not empty and passes
each of the at most 254 internal records once. -/
theorem length_code_of_visit {n : List Node} {k : Nat} {root l r : NodeIdx} {v : Weight} {c : CodeTable}
    (htree : FullTree k n root) (hroot : n[root.toNat]? = some (.internal l r v))
    (hc : visit n n.length root [] noCodes = .ok c) {b : Byte} {p : Code} (hcode : codeOf c b = some p) :
    1 ≤ p.length ∧ p.length ≤ 254 := by
  obtain hnone | ⟨_, w, rfl, hp⟩ := visit_sound n _ root [] noCodes c hc b p hcode
  · simp at hnone
  · have hne : p ≠ [] := by
      rintro rfl
      rw [follow, hroot] at hp
      cases hp
    have hlen := (length_path_le htree.nodes p hp).resolve_left hne
    have hle := htree.leaves_le
    have hsize := htree.size
    have hlast := htree.root_last
    exact ⟨List.length_pos_iff.2 hne, by omega⟩

theorem runWalk_keepsInv {s : State} (h : Inv s) : (runWalk s).Leaves Inv := by
  rw [runWalk]
  split_ifs with hnode
  · exact inv_raise .walk _ h
  · obtain ⟨hnil, -⟩ | ⟨k, htree⟩ := (treeOk_iff _ _).1 h.tree
    · exact absurd hnil hnode
    · cases hroot : s.node[s.root.toNat]? with
      | none => trivial
      | some x =>
        cases x with
        | leaf sym w =>
          refine { h with codes := fun b p hp => ?_ }
          simp only [codeOf_setCode, codeOf_noCodes] at hp
          split at hp <;> cases hp
          decide
        | internal l r w =>
          cases hc : visit s.node s.node.length s.root [] noCodes with
          | error x => trivial
          | ok c => exact { h with codes := fun b p hp => length_code_of_visit htree hroot hc hp }

theorem runHdrEnc_keepsInv {s : State} (h : Inv s) : (runHdrEnc s).Leaves Inv := by
  rw [runHdrEnc]
  split_ifs with hft
  · exact inv_raise .hdrEnc _ h
  · have hpos := List.length_pos_iff.2 hft
    exact { h with header := .inr ⟨_, hpos, h.table.1, length_headerBytes s.ft s.rem⟩ }

theorem runHdrDec_keepsInv {s : State} (h : Inv s) : (runHdrDec s).Leaves Inv := by
  simp only [runHdrDec]
  split
  case h_2 => exact inv_raise .hdrDec _ h
  case h_1 n r body hin =>
    split_ifs with hzero hshort _ hdistinct
    case neg =>
      have hn := n.isLt
      have hbody : 3 * n.toNat ≤ body.length := by
        rw [hin, List.length_cons, List.length_cons] at hshort
        omega
      refine leaves_commit ?_ (inv_raise .hdrDec _ h)
      refine { h with table := ⟨?_, ?_⟩, offset := .inr ⟨n.toNat, by omega, by omega, ?_⟩ }
      · rw [length_parseEntries _ _ hbody]
        omega
      · exact (distinctSyms_iff _).1 (by simpa using hdistinct)
      · rw [BitVec.toNat_ofNat]
        omega
    all_goals exact inv_raise .hdrDec _ h

/-! ### Every command -/

/-- A unit that writes none of the invariant's elements keeps the invariant. -/
theorem Result.Leaves.keepsInv {i : Instr} {s : State} {r : Result} (hr : r.Leaves (FrameOf i s)) (h : Inv s)
    (hi : ∀ e ∈ invElems, e ∉ dests i ++ [.err]) : r.Leaves Inv :=
  hr.mono fun _ ht => h.of_frame ht hi

/-- A composite has the invariant from `ClearDerived` on, whatever the state before. -/
theorem runEncode_keepsInv (s : State) : (runEncode s).Leaves Inv :=
  (runCount_keepsInv inv_clearDerived).chain (fun _ => runBuild_keepsInv)
    |>.chain (fun _ => runWalk_keepsInv)
    |>.chain (fun t h => (runXlate_frame t).keepsInv h (by decide))
    |>.chain (fun t h => (runPack_frame t).keepsInv h (by decide))
    |>.chain (fun _ => runHdrEnc_keepsInv)
    |>.chain (fun t h => (runBlob_frame t).keepsInv h (by decide))

theorem runDecode_keepsInv (s : State) : (runDecode s).Leaves Inv :=
  (runHdrDec_keepsInv inv_clearDerived).chain (fun _ => runBuild_keepsInv)
    |>.chain (fun t h => (runUnpack_frame t).keepsInv h (by decide))
    |>.chain (fun t h => (runTwalk_frame t).keepsInv h (by decide))

/-- A table below 255 entries takes one with a new symbol (R121). -/
theorem tableOk_concat {t : List FreqEntry} {x : Byte} {c : Count} (h : TableOk t)
    (hnew : ¬ t.any (fun e => e.sym == x) = true) (hlen : t.length ≠ Config.nMax) : TableOk (t ++ [⟨x, c⟩]) := by
  obtain ⟨hle, hnodup⟩ := h
  rw [Config.nMax] at hlen
  simp only [List.any_eq_true, beq_iff_eq, not_exists, not_and] at hnew
  constructor
  · rw [List.length_append, List.length_singleton]
    omega
  · rw [List.map_append, List.map_singleton]
    refine List.nodup_append.2 ⟨hnodup, List.nodup_singleton _, ?_⟩
    simpa using hnew

theorem exec_keepsInv {i : Instr} {s t : State} (h : Inv s) (ht : exec i s = .next t) : Inv t := by
  cases i with
  | reset => cases ht; exact inv_reset.of_same fun e _ => by cases e <;> rfl
  | ftPush x c =>
    simp only [exec, execFtPush] at ht
    split_ifs at ht with hdup hfull <;> cases ht
    · exact inv_raise (.ftPush x c) _ h
    · exact inv_raise (.ftPush x c) _ h
    · exact { h with table := tableOk_concat h.table hdup hfull }
  | count => exact (runCount_keepsInv h).of_outcome ht
  | build => exact (runBuild_keepsInv h).of_outcome ht
  | walk => exact (runWalk_keepsInv h).of_outcome ht
  | hdrEnc => exact (runHdrEnc_keepsInv h).of_outcome ht
  | hdrDec => exact (runHdrDec_keepsInv h).of_outcome ht
  | encode => exact (runEncode_keepsInv s).of_outcome ht
  | decode => exact (runDecode_keepsInv s).of_outcome ht
  | _ => exact h.of_frame (exec_frame ht) (by simp [invElems, dests])

/-- The step function of R115 keeps the invariant on every word: where it runs no command it changes at most `ERR`. -/
theorem issue_keepsInv {w : Word} {s t : State} (h : Inv s) (ht : issue w s = .next t) : Inv t := by
  rw [issue] at ht
  split at ht
  · split_ifs at ht
    · exact exec_keepsInv h ht
    · cases ht; exact h
  · split_ifs at ht <;> cases ht
    · exact { h with }
    · exact h

/-- Settles O10: a step runs a word on a state with the same block, and every word keeps the invariant. -/
theorem everyStepKeepsTheInvariant : Obligations.EveryStepKeepsTheInvariant := by
  unfold Obligations.EveryStepKeepsTheInvariant
  intro s t h ht
  rw [step] at ht
  split at ht
  · cases ht; exact h
  · next w s' hfetch =>
    have hblock := fetch_block hfetch
    exact issue_keepsInv (h.of_same fun e _ => by cases e <;> simp [Same, hblock]) ht

end Sys2Proof.Machine
end

section
/-! PROOFS. Issuing a command twice (spec/20_memory.md R67). A command whose destinations are none of the elements it reads
answers the same on any two states that differ in its destinations alone, and the state it leaves without raising is such a
state; a second issue after a raise is ignored. -/

namespace Sys2Proof.Machine

/-! ### Clearing what may have changed -/

/-- The twelve elements, the words pending and the capacities are the whole state. -/
theorem state_eq_of_same {s t : State} (hsame : ∀ e, Same s t e) (hhost : s.host = t.host) (hcaps : s.caps = t.caps) :
    s = t := by
  obtain ⟨⟨⟩, host, caps⟩ := s
  obtain ⟨⟨⟩, host', caps'⟩ := t
  rw [State.mk.injEq, BlockState.mk.injEq]
  exact ⟨⟨hsame .inBuf, hsame .ft, hsame .node, hsame .root, hsame .ct, hsame .bits, hsame .pay, hsame .rem, hsame .hdr,
    hsame .poff, hsame .out, hsame .err⟩, hhost, hcaps⟩

/-- A cleared element has its reset value (spec/60_exceptions.md R231 (1)). -/
theorem same_clearAll_reset {es : List Elem} {e : Elem} (he : e ∈ es) (s : State) :
    Same (clearAll es s) State.reset e := by
  induction es generalizing s with
  | nil => exact absurd he List.not_mem_nil
  | cons a es ih =>
    by_cases hin : e ∈ es
    · exact ih hin _
    · obtain rfl := (List.mem_cons.1 he).resolve_right hin
      have hclear : Same (clear s e) State.reset e := by cases e <;> rfl
      exact ((unchangedOutside_clearAll es _).1 e hin).symm.trans hclear

/-- Two states that differ at most in `es` are equal once `es` is cleared: the converse of
`unchangedOutside_of_clearAll_eq`. -/
theorem UnchangedOutside.clearAll_eq {es : List Elem} {s t : State} (h : UnchangedOutside es s t) :
    clearAll es t = clearAll es s := by
  obtain ⟨hsame, hhost, hcaps⟩ := h
  refine state_eq_of_same (fun e => ?_) (by simp [hhost]) (by simp [hcaps])
  by_cases he : e ∈ es
  · exact (same_clearAll_reset he t).trans (same_clearAll_reset he s).symm
  · have ht := (unchangedOutside_clearAll es t).1 e he
    have hs := (unchangedOutside_clearAll es s).1 e he
    exact ht.symm.trans ((hsame e he).symm.trans hs)

/-! ### Commands that overwrite their destinations -/

/-- Clearing twice is clearing once. -/
theorem clearAll_clearAll (es : List Elem) (s : State) : clearAll es (clearAll es s) = clearAll es s :=
  (unchangedOutside_clearAll es s).clearAll_eq

/-- A command that reads none of its destinations overwrites each of them with a function of what it reads (R67): it does not
matter what they held. -/
theorem exec_clearAll_dests {i : Instr} (hi : ∀ e ∈ dests i, e ∉ readTable i) (s : State) :
    exec i (clearAll (dests i) s) = exec i s := by
  cases i with
  | inPush | ftPush | bitPush | payPush => simp [dests, readTable] at hi
  | encode => simp only [exec, execEncode, runEncode, dests, clearDerived, clearAll_clearAll]
  | decode => simp only [exec, execDecode, runDecode, dests, clearDerived, clearAll_clearAll]
  | _ => rfl

/-- A command that ends with the `ERR` it began with has changed its destinations alone. -/
theorem unchangedOutside_dests_of_exec {i : Instr} {s t : State} (h : exec i s = .next t) (herr : t.err = s.err) :
    UnchangedOutside (dests i) s t := by
  obtain ⟨hsame, hhost, hcaps⟩ := exec_frame h
  refine ⟨fun e he => ?_, hhost, hcaps⟩
  by_cases hE : e = .err
  · subst hE
    exact herr.symm
  · exact hsame e (by simp [he, hE])

/-- Run again on the state it left, such a command leaves it as it is. -/
theorem exec_again {i : Instr} (hi : ∀ e ∈ dests i, e ∉ readTable i) {s t : State} (h : exec i s = .next t)
    (herr : t.err = s.err) : exec i t = .next t :=
  calc exec i t = exec i (clearAll (dests i) t) := (exec_clearAll_dests hi t).symm
    _ = exec i (clearAll (dests i) s) := by rw [(unchangedOutside_dests_of_exec h herr).clearAll_eq]
    _ = exec i s := exec_clearAll_dests hi s
    _ = .next t := h

/-! ### Issuing a command's word -/

theorem noError_iff (s : State) : noError s = true ↔ s.err = 0#3 := by simp [noError]

/-- The fields of the one word with two operands (spec/30_encoding.md R86). -/
theorem fields_encode_ftPush (x : Byte) (c : Count) :
    opcodeOf (encode (.ftPush x c)) = 0x11#8 ∧ (encode (.ftPush x c)).extractLsb' 16 8 = x ∧
      (encode (.ftPush x c)).extractLsb' 0 16 = c := by
  refine ⟨?_, ?_, ?_⟩ <;>
  · apply BitVec.eq_of_getLsbD_eq
    intro k hk
    interval_cases k <;> simp [opcodeOf, encode]

/-- The decoder reads a command's word back, whatever its operands (R89). -/
theorem decode_encode (i : Instr) : decode (encode i) = .cmd i := by
  cases i with
  | inPush b => revert b; decide
  | ftPush x c =>
    obtain ⟨hop, hsym, hcnt⟩ := fields_encode_ftPush x c
    simp [decode, hop, formatF, hsym, hcnt]
  | bitPush b => revert b; decide
  | payPush b => revert b; decide
  | remSet r => revert r; decide
  | _ => rfl

/-- R115 for the word of a command. -/
theorem issue_encode (i : Instr) (s : State) :
    issue (encode i) s = if i = .reset ∨ s.err = 0#3 then exec i s else .next s := by
  simp only [issue, decode_encode, noError_iff]

/-- Settles O20: after a raise the second word is ignored; otherwise the command runs again, on a state that differs from the
first in its destinations alone. -/
theorem idempotentCommands : Obligations.IdempotentCommands := by
  unfold Obligations.IdempotentCommands
  intro i s t hi hs h
  have hreads : ∀ e ∈ dests i, e ∉ readTable i := by
    cases i with
    | inPush | ftPush | bitPush | payPush => exact hi.elim
    | remSet => exact fun _ _ => List.not_mem_nil
    | _ => decide
  rw [issue_encode, if_pos (.inr hs)] at h
  rw [issue_encode]
  split_ifs with hruns
  · have ht : t.err = 0#3 := by
      obtain rfl | ht := hruns
      · cases h; rfl
      · exact ht
    exact exec_again hreads h (ht.trans hs.symm)
  · rfl

end Sys2Proof.Machine
end

section
/-! PROOFS. The command word (spec/30_encoding.md Part A). A legal word has its command's opcode and its command's
bits 23 to 0, and these fix the word: so the decoder and the encoder are inverse to each other, and the decoder accepts
exactly the words that spell a row of R88's table. -/

namespace Sys2Proof.Machine

/-! ### Fields of a word -/

/-- Two adjacent fields that start at bit 0 agree as one field. -/
theorem lowBits_eq_of_parts {w v : Word} {m n : Nat} (hhigh : w.extractLsb' m n = v.extractLsb' m n)
    (hlow : w.extractLsb' 0 m = v.extractLsb' 0 m) : w.extractLsb' 0 (n + m) = v.extractLsb' 0 (n + m) := by
  have hm : m = 0 + m := (Nat.zero_add m).symm
  rw [← BitVec.extractLsb'_append_extractLsb'_eq_extractLsb' hm, hhigh, hlow,
    BitVec.extractLsb'_append_extractLsb'_eq_extractLsb' hm]

/-- A word is its opcode and its bits 23 to 0 (R85). -/
theorem word_eq_of_opcodeOf_eq {w v : Word} (hop : opcodeOf w = opcodeOf v)
    (hlow : w.extractLsb' 0 24 = v.extractLsb' 0 24) : w = v := by
  have hall := lowBits_eq_of_parts (m := 24) (n := 8) hop hlow
  rwa [BitVec.extractLsb'_eq_self, BitVec.extractLsb'_eq_self] at hall

/-- The one-bit field of format T. -/
theorem lowBit_eq_of_getLsbD_eq {w v : Word} (h : w.getLsbD 0 = v.getLsbD 0) :
    w.extractLsb' 0 1 = v.extractLsb' 0 1 := by
  apply BitVec.eq_of_getLsbD_eq
  intro k hk
  obtain rfl : k = 0 := by omega
  simpa using h

/-- A field the mask keeps has the value the pattern gives it. -/
theorem field_eq_of_and_eq {w mask pattern : Word} (h : w &&& mask = pattern) (start len : Nat)
    (hmask : mask.extractLsb' start len = BitVec.allOnes len) :
    w.extractLsb' start len = pattern.extractLsb' start len := by
  rw [← h, BitVec.extractLsb'_and, hmask, BitVec.and_allOnes]

/-! ### What the decoder reads from a legal word -/

theorem formatZ_eq_cmd {w : Word} {i j : Instr} : formatZ w j = .cmd i ↔ w.extractLsb' 0 24 = 0#24 ∧ j = i := by
  rw [formatZ]
  split <;> simp [*]

theorem formatB_eq_cmd {w : Word} {i : Instr} {f : Byte → Instr} :
    formatB w f = .cmd i ↔ w.extractLsb' 8 16 = 0#16 ∧ f (w.extractLsb' 0 8) = i := by
  rw [formatB]
  split <;> simp [*]

theorem formatF_eq_cmd {w : Word} {i : Instr} {f : Byte → Count → Instr} :
    formatF w f = .cmd i ↔ f (w.extractLsb' 16 8) (w.extractLsb' 0 16) = i := by
  simp [formatF]

theorem formatT_eq_cmd {w : Word} {i : Instr} {f : Bit → Instr} :
    formatT w f = .cmd i ↔ w.extractLsb' 1 23 = 0#23 ∧ f (w.getLsbD 0) = i := by
  rw [formatT]
  split <;> simp [*]

theorem formatR_eq_cmd {w : Word} {i : Instr} {f : BitVec 3 → Instr} :
    formatR w f = .cmd i ↔ w.extractLsb' 3 21 = 0#21 ∧ f (w.extractLsb' 0 3) = i := by
  rw [formatR]
  split <;> simp [*]

/-- Bits 23 to 0 hold the command's operands and, in every other place, zeros (R86). -/
def HasFields (w : Word) : Instr → Prop
  | .inPush b | .payPush b => w.extractLsb' 8 16 = 0#16 ∧ w.extractLsb' 0 8 = b
  | .ftPush x c => w.extractLsb' 16 8 = x ∧ w.extractLsb' 0 16 = c
  | .bitPush b => w.extractLsb' 1 23 = 0#23 ∧ w.getLsbD 0 = b
  | .remSet r => w.extractLsb' 3 21 = 0#21 ∧ w.extractLsb' 0 3 = r
  | _ => w.extractLsb' 0 24 = 0#24

/-- A word that decodes to a command has the command's opcode and the command's fields. -/
theorem fields_of_decode_eq_cmd {w : Word} {i : Instr} (h : decode w = .cmd i) :
    opcodeOf w = opcode i ∧ HasFields w i := by
  rw [decode] at h
  split at h
  case h_3 hop | h_6 hop =>
    obtain ⟨hzero, rfl⟩ := formatB_eq_cmd.1 h
    exact ⟨BitVec.eq_of_toNat_eq hop, hzero, rfl⟩
  case h_4 hop =>
    obtain rfl := formatF_eq_cmd.1 h
    exact ⟨BitVec.eq_of_toNat_eq hop, rfl, rfl⟩
  case h_5 hop =>
    obtain ⟨hzero, rfl⟩ := formatT_eq_cmd.1 h
    exact ⟨BitVec.eq_of_toNat_eq hop, hzero, rfl⟩
  case h_7 hop =>
    obtain ⟨hzero, rfl⟩ := formatR_eq_cmd.1 h
    exact ⟨BitVec.eq_of_toNat_eq hop, hzero, rfl⟩
  case h_20 => cases h
  all_goals
    next hop =>
      obtain ⟨hzero, rfl⟩ := formatZ_eq_cmd.1 h
      exact ⟨BitVec.eq_of_toNat_eq hop, hzero⟩

/-- The fields of a command leave no bit of bits 23 to 0 open. -/
theorem HasFields.lowBits_eq {w v : Word} {i : Instr} (hw : HasFields w i) (hv : HasFields v i) :
    w.extractLsb' 0 24 = v.extractLsb' 0 24 := by
  cases i with
  | inPush | ftPush | payPush | remSet =>
    obtain ⟨hhigh, hlow⟩ := hw
    obtain ⟨hhigh', hlow'⟩ := hv
    exact lowBits_eq_of_parts (hhigh.trans hhigh'.symm) (hlow.trans hlow'.symm)
  | bitPush =>
    obtain ⟨hhigh, hbit⟩ := hw
    obtain ⟨hhigh', hbit'⟩ := hv
    exact lowBits_eq_of_parts (hhigh.trans hhigh'.symm) (lowBit_eq_of_getLsbD_eq (hbit.trans hbit'.symm))
  | _ => exact Eq.trans hw (Eq.symm hv)

/-- The word of a command is the one word with its opcode and its fields (R87). -/
theorem eq_encode_of_fields {w : Word} {i : Instr} (hop : opcodeOf w = opcode i) (hw : HasFields w i) :
    w = encode i := by
  obtain ⟨hop', hv⟩ := fields_of_decode_eq_cmd (decode_encode i)
  exact word_eq_of_opcodeOf_eq (hop.trans hop'.symm) (hw.lowBits_eq hv)

/-- A word decodes to a command exactly when it is the command's word (R87, R89). -/
theorem decode_eq_cmd_iff {w : Word} {i : Instr} : decode w = .cmd i ↔ w = encode i := by
  constructor
  · intro h
    obtain ⟨hop, hw⟩ := fields_of_decode_eq_cmd h
    exact eq_encode_of_fields hop hw
  · rintro rfl
    exact decode_encode i

/-- Settles O1: the decoder reads every command's word back. -/
theorem encodedCommandDecodesToItself : Obligations.EncodedCommandDecodesToItself := decode_encode

/-- Settles O2: a legal word has its command's opcode and fields, and so has the command's word. -/
theorem legalWordIsTheEncodingOfItsCommand : Obligations.LegalWordIsTheEncodingOfItsCommand :=
  fun _ _ h => (decode_eq_cmd_iff.1 h).symm

/-! ### The opcode map -/

theorem spells_iff {r : OpcodeRow} {w : Word} : r.spells w = true ↔ w &&& r.mask = r.pattern := by
  simp [OpcodeRow.spells]

/-- The word of every command spells a row of the map. -/
theorem wordSpelling (i : Instr) : Laws.WordSpelling.Statement i := by
  cases i with
  | nop => exact Laws.WordSpelling.nop
  | reset => exact Laws.WordSpelling.reset
  | inPush b => exact Laws.WordSpelling.inPush b
  | ftPush x c => exact Laws.WordSpelling.ftPush x c
  | bitPush b => exact Laws.WordSpelling.bitPush b
  | payPush b => exact Laws.WordSpelling.payPush b
  | remSet r => exact Laws.WordSpelling.remSet r
  | count => exact Laws.WordSpelling.count
  | build => exact Laws.WordSpelling.build
  | walk => exact Laws.WordSpelling.walk
  | xlate => exact Laws.WordSpelling.xlate
  | pack => exact Laws.WordSpelling.pack
  | hdrEnc => exact Laws.WordSpelling.hdrEnc
  | blob => exact Laws.WordSpelling.blob
  | hdrDec => exact Laws.WordSpelling.hdrDec
  | unpack => exact Laws.WordSpelling.unpack
  | twalk => exact Laws.WordSpelling.twalk
  | encode => exact Laws.WordSpelling.encode
  | decode => exact Laws.WordSpelling.decode

/-- Every row fixes bits 31 to 24, at its opcode. -/
theorem opcodeOf_eq_of_spells {r : OpcodeRow} (hr : r ∈ opcodeMap) {w : Word} (h : r.spells w = true) :
    opcodeOf w = r.op := by
  have hrows : ∀ r ∈ opcodeMap,
      r.mask.extractLsb' 24 8 = BitVec.allOnes 8 ∧ r.pattern.extractLsb' 24 8 = r.op := by decide
  obtain ⟨hmask, hpattern⟩ := hrows r hr
  exact (field_eq_of_and_eq (spells_iff.1 h) 24 8 hmask).trans hpattern

/-- No two rows have one opcode. -/
theorem row_eq_of_op_eq : ∀ r ∈ opcodeMap, ∀ r' ∈ opcodeMap, r.op = r'.op → r = r' := by decide

/-- A word that spells a row has the fields of a command with the row's opcode: the mask keeps exactly the bits that the
command's format marks zero. -/
theorem exists_fields_of_spells {r : OpcodeRow} (hr : r ∈ opcodeMap) {w : Word} (h : r.spells w = true) :
    ∃ i, opcode i = r.op ∧ HasFields w i := by
  have hfield := field_eq_of_and_eq (spells_iff.1 h)
  simp only [opcodeMap, List.mem_cons, List.not_mem_nil, or_false] at hr
  rcases hr with
    rfl | rfl | rfl | rfl | rfl | rfl | rfl | rfl | rfl | rfl | rfl | rfl | rfl | rfl | rfl | rfl | rfl | rfl | rfl
  · exact ⟨.nop, rfl, hfield 0 24 rfl⟩
  · exact ⟨.reset, rfl, hfield 0 24 rfl⟩
  · exact ⟨.inPush _, rfl, hfield 8 16 rfl, rfl⟩
  · exact ⟨.ftPush _ _, rfl, rfl, rfl⟩
  · exact ⟨.bitPush _, rfl, hfield 1 23 rfl, rfl⟩
  · exact ⟨.payPush _, rfl, hfield 8 16 rfl, rfl⟩
  · exact ⟨.remSet _, rfl, hfield 3 21 rfl, rfl⟩
  · exact ⟨.count, rfl, hfield 0 24 rfl⟩
  · exact ⟨.build, rfl, hfield 0 24 rfl⟩
  · exact ⟨.walk, rfl, hfield 0 24 rfl⟩
  · exact ⟨.xlate, rfl, hfield 0 24 rfl⟩
  · exact ⟨.pack, rfl, hfield 0 24 rfl⟩
  · exact ⟨.hdrEnc, rfl, hfield 0 24 rfl⟩
  · exact ⟨.blob, rfl, hfield 0 24 rfl⟩
  · exact ⟨.hdrDec, rfl, hfield 0 24 rfl⟩
  · exact ⟨.unpack, rfl, hfield 0 24 rfl⟩
  · exact ⟨.twalk, rfl, hfield 0 24 rfl⟩
  · exact ⟨.encode, rfl, hfield 0 24 rfl⟩
  · exact ⟨.decode, rfl, hfield 0 24 rfl⟩

/-- Settles O3: a legal word is its command's word, which spells the command's row; a word that spells a row has the
opcode and the fields of a command, so it is that command's word; and rows with one opcode are one row. -/
theorem decoderAcceptsExactlyTheOpcodeMap : Obligations.DecoderAcceptsExactlyTheOpcodeMap := by
  unfold Obligations.DecoderAcceptsExactlyTheOpcodeMap
  intro w
  refine ⟨fun i hi => ?_, fun r hr hw => ?_, fun r hr r' hr' hw hw' => ?_⟩
  · obtain rfl := decode_eq_cmd_iff.1 hi
    obtain ⟨r, hr, hop, hspells⟩ := wordSpelling i
    exact ⟨r, hr, hspells, hop⟩
  · obtain ⟨i, hop, hfields⟩ := exists_fields_of_spells hr hw
    have hword := eq_encode_of_fields ((opcodeOf_eq_of_spells hr hw).trans hop.symm) hfields
    exact ⟨i, decode_eq_cmd_iff.2 hword, hop⟩
  · exact row_eq_of_op_eq r hr r' hr' ((opcodeOf_eq_of_spells hr hw).symm.trans (opcodeOf_eq_of_spells hr' hw'))

/-- Settles O4: the legal words are the words of their commands; the illegal ones are evaluated. -/
theorem writtenOutWordsDecode : Obligations.WrittenOutWordsDecode :=
  ⟨decode_encode .count, decode_encode (.inPush 0xFF#8), decode_encode (.ftPush 0x61#8 3#16),
    decode_encode (.bitPush true), decode_encode (.remSet 7#3), rfl, rfl, rfl, rfl, rfl⟩

/-! ### The assembler -/

/-- A `k`-bit operand put beside a number that is 0 there is added to it. -/
theorem ofNat_or_operand {k v : Nat} (hk : k ≤ 32) (hv : v < 2 ^ k) (a : Nat) :
    BitVec.ofNat 32 (2 ^ k * a) ||| (BitVec.ofNat k v).setWidth 32 = BitVec.ofNat 32 (2 ^ k * a + v) := by
  rw [BitVec.setWidth_ofNat_of_le_of_lt hk hv, ← BitVec.ofNat_or, Nat.two_pow_add_eq_or_of_lt hv]

theorem encode_inPush_ofNat {v : Nat} (hv : v < 256) :
    encode (.inPush (BitVec.ofNat 8 v)) = BitVec.ofNat 32 (0x10000000 + v) :=
  ofNat_or_operand (k := 8) (by decide) hv 0x100000

theorem encode_payPush_ofNat {v : Nat} (hv : v < 256) :
    encode (.payPush (BitVec.ofNat 8 v)) = BitVec.ofNat 32 (0x13000000 + v) :=
  ofNat_or_operand (k := 8) (by decide) hv 0x130000

theorem encode_remSet_ofNat {v : Nat} (hv : v < 8) :
    encode (.remSet (BitVec.ofNat 3 v)) = BitVec.ofNat 32 (0x14000000 + v) :=
  ofNat_or_operand (k := 3) (by decide) hv 0x2800000

theorem encode_bitPush_beq_one {v : Nat} (hv : v < 2) :
    encode (.bitPush (v == 1)) = BitVec.ofNat 32 (0x12000000 + v) := by
  interval_cases v <;> rfl

/-- The count stands in bits 15 to 0; the opcode and the symbol above it are one number, `0x1100 + v`. -/
theorem encode_ftPush_ofNat {v c : Nat} (hv : v < 256) (hc : c < 65536) :
    encode (.ftPush (BitVec.ofNat 8 v) (BitVec.ofNat 16 c)) = BitVec.ofNat 32 (0x11000000 + 65536 * v + c) := by
  have hhigh : 0x1100#32 ||| (BitVec.ofNat 8 v).setWidth 32 = BitVec.ofNat 32 (0x1100 + v) :=
    ofNat_or_operand (k := 8) (by decide) hv 0x11
  have hsym : 0x11000000#32 ||| (BitVec.ofNat 8 v).setWidth 32 <<< 16 = BitVec.ofNat 32 (2 ^ 16 * (0x1100 + v)) :=
    calc 0x11000000#32 ||| (BitVec.ofNat 8 v).setWidth 32 <<< 16
        = (0x1100#32 ||| (BitVec.ofNat 8 v).setWidth 32) <<< 16 := by rw [BitVec.shiftLeft_or_distrib]; rfl
      _ = BitVec.ofNat 32 (0x1100 + v) <<< 16 := by rw [hhigh]
      _ = BitVec.ofNat 32 (2 ^ 16 * (0x1100 + v)) := by
        rw [BitVec.shiftLeft_eq_mul_twoPow, Nat.mul_comm, BitVec.ofNat_mul]; rfl
  rw [encode, hsym, ofNat_or_operand (by decide) hc]
  congr 1
  omega

/-- The words of a source command, from its range check and its commands' words. -/
theorem assembledWords_eq {c : Source} {P : Prop} [Decidable P] {ws : List Word} (hwf : c.wf = true ↔ P)
    (hws : P → (expand c).map encode = ws) : assembledWords c = if P then some ws else none := by
  rw [assembledWords, assemble]
  by_cases hP : P
  · simp [hwf.2 hP, hP, hws hP]
  · simp [mt hwf.1 hP, hP]

/-- One word for each element in order, from the word of a single element. -/
theorem map_words_eq {P : Nat → Prop} {f : Nat → Instr} {g : Nat → Word} (h : ∀ v, P v → encode (f v) = g v)
    {vs : List Nat} (hvs : ∀ v ∈ vs, P v) : (vs.map f).map encode = vs.map g := by
  rw [List.map_map]
  exact List.map_congr_left fun v hv => h v (hvs v hv)

/-- Settles O5: the range check is the condition on the operands, and in range each command's word is its opcode with
its operands added. -/
theorem sourceAssemblesToItsWords : Obligations.SourceAssemblesToItsWords := by
  unfold Obligations.SourceAssemblesToItsWords
  refine ⟨by decide, fun v w => ⟨?_, ?_, ?_, ?_, ?_⟩, fun vs => ⟨?_, ?_, ?_, ?_⟩⟩ <;>
    apply assembledWords_eq (by simp [Source.wf])
  · intro hv
    simp [expand, encode_inPush_ofNat hv]
  · rintro ⟨hv, hw⟩
    simp [expand, encode_ftPush_ofNat hv hw]
  · intro hv
    simp [expand, encode_bitPush_beq_one hv]
  · intro hv
    simp [expand, encode_payPush_ofNat hv]
  · intro hv
    simp [expand, encode_remSet_ofNat hv]
  · exact map_words_eq fun _ => encode_inPush_ofNat
  · exact map_words_eq fun v (hv : v < 128) => encode_inPush_ofNat (by omega)
  · exact map_words_eq fun _ => encode_payPush_ofNat
  · apply map_words_eq
    rintro v (rfl | rfl) <;> rfl

end Sys2Proof.Machine
end

section
/-! PROOFS. A command reads only the elements of its row (spec/40_host_commands.md R116, spec/10_state.md R37). From two states
that agree on these, a unit takes the same branch and writes the same values; a composite first clears every element
that it does not read. -/

namespace Sys2Proof.Machine

/-! ### Agreement of two next states -/

/-- Where both outcomes have a next state, the two next states agree on the elements `es`. -/
def NextsAgree (es : List Elem) (o o' : Host.Outcome State Fault Refusal) : Prop :=
  ∀ t t', o = .next t → o' = .next t' → ∀ e ∈ es, Same t t' e

theorem nextsAgree_next {es : List Elem} {t t' : State} (h : ∀ e ∈ es, Same t t' e) :
    NextsAgree es (.next t) (.next t') := by
  rintro _ _ ⟨⟩ ⟨⟩
  exact h

theorem nextsAgree_stopped (es : List Elem) (x : Stop) (o : Host.Outcome State Fault Refusal) :
    NextsAgree es (outcome (.stopped x)) o := by
  intro t _ h
  simp [outcome_next_iff] at h

/-- The same exception in the same command gives the destinations and `ERR` the same values, whatever the rest of the state
(spec/60_exceptions.md R231). -/
theorem nextsAgree_raise (i : Instr) (x : Exc) (s s' : State) :
    NextsAgree (dests i ++ [.err]) (.next (raise (dests i) x s)) (.next (raise (dests i) x s')) := by
  refine nextsAgree_next fun e he => ?_
  by_cases hE : e = .err
  · subst hE
    rfl
  · have hin : e ∈ dests i := by simpa [hE] using he
    have hraise (s : State) : UnchangedOutside [.err] (clearAll (dests i) s) (raise (dests i) x s) :=
      unchangedOutside_of_clearAll_eq rfl
    have hkept (s : State) := (hraise s).1 e (by simp [hE])
    have hcleared := (same_clearAll_reset hin s).trans (same_clearAll_reset hin s').symm
    exact (hkept s).symm.trans (hcleared.trans (hkept s'))

theorem nextsAgree_commit {i : Instr} {s s' t t' : State} (h : ∀ e ∈ dests i ++ [.err], Same t t' e) (fit : Bool) :
    NextsAgree (dests i ++ [.err]) (outcome (commit i fit s t)) (outcome (commit i fit s' t')) := by
  cases fit
  · exact nextsAgree_raise i .capacity s s'
  · exact nextsAgree_next h

/-! ### The units -/

section
variable {s s' : State} (herr : s.err = s'.err) (hcaps : s.caps = s'.caps)
include herr

theorem execFtPush_reads (x : Byte) (c : Count) (hft : s.ft = s'.ft) :
    NextsAgree (dests (.ftPush x c) ++ [.err]) (execFtPush x c s) (execFtPush x c s') := by
  simp only [execFtPush, hft]
  split_ifs
  · exact nextsAgree_raise (.ftPush x c) _ s s'
  · exact nextsAgree_raise (.ftPush x c) _ s s'
  · exact nextsAgree_next (by simp [dests, Same, herr])

theorem execCount_reads (hin : s.inBuf = s'.inBuf) :
    NextsAgree (dests .count ++ [.err]) (execCount s) (execCount s') := by
  simp only [execCount, runCount, hin]
  split_ifs
  case neg => exact nextsAgree_next (by simp [dests, Same, herr])
  all_goals exact nextsAgree_raise .count _ s s'

theorem execBuild_reads (hft : s.ft = s'.ft) :
    NextsAgree (dests .build ++ [.err]) (execBuild s) (execBuild s') := by
  simp only [execBuild, runBuild, hft]
  split_ifs
  · exact nextsAgree_raise .build _ s s'
  · exact nextsAgree_next (by simp [dests, Same, herr])

theorem execWalk_reads (hnode : s.node = s'.node) (hroot : s.root = s'.root) :
    NextsAgree (dests .walk ++ [.err]) (execWalk s) (execWalk s') := by
  simp only [execWalk, runWalk, hnode, hroot]
  split_ifs
  · exact nextsAgree_raise .walk _ s s'
  · cases s'.node[s'.root.toNat]? with
    | none => exact nextsAgree_stopped _ _ _
    | some x =>
      cases x with
      | leaf sym w => exact nextsAgree_next (by simp [dests, Same, herr])
      | internal l r w =>
        cases visit s'.node s'.node.length s'.root [] noCodes with
        | error x => exact nextsAgree_stopped _ _ _
        | ok c => exact nextsAgree_next (by simp [dests, Same, herr])

theorem execHdrEnc_reads (hft : s.ft = s'.ft) (hrem : s.rem = s'.rem) :
    NextsAgree (dests .hdrEnc ++ [.err]) (execHdrEnc s) (execHdrEnc s') := by
  simp only [execHdrEnc, runHdrEnc, hft, hrem]
  split_ifs
  · exact nextsAgree_raise .hdrEnc _ s s'
  · exact nextsAgree_next (by simp [dests, Same, herr])

include hcaps

theorem execXlate_reads (hin : s.inBuf = s'.inBuf) (hct : s.ct = s'.ct) :
    NextsAgree (dests .xlate ++ [.err]) (execXlate s) (execXlate s') := by
  simp only [execXlate, runXlate, hin, hct, hcaps]
  split
  · exact nextsAgree_raise .xlate _ s s'
  · exact nextsAgree_commit (by simp [dests, Same, herr]) _

theorem execPack_reads (hbits : s.bits = s'.bits) :
    NextsAgree (dests .pack ++ [.err]) (execPack s) (execPack s') := by
  simp only [execPack, runPack, hbits, hcaps]
  exact nextsAgree_commit (by simp [dests, Same, herr]) _

theorem execBlob_reads (hhdr : s.hdr = s'.hdr) (hpay : s.pay = s'.pay) :
    NextsAgree (dests .blob ++ [.err]) (execBlob s) (execBlob s') := by
  simp only [execBlob, runBlob, hhdr, hpay, hcaps]
  split_ifs
  · exact nextsAgree_raise .blob _ s s'
  · exact nextsAgree_commit (by simp [dests, Same, herr]) _

theorem execHdrDec_reads (hin : s.inBuf = s'.inBuf) :
    NextsAgree (dests .hdrDec ++ [.err]) (execHdrDec s) (execHdrDec s') := by
  simp only [execHdrDec, runHdrDec, hin, hcaps]
  split
  · split_ifs
    case neg => exact nextsAgree_commit (by simp [dests, Same, herr]) _
    all_goals exact nextsAgree_raise .hdrDec _ s s'
  · exact nextsAgree_raise .hdrDec _ s s'

theorem execUnpack_reads (hpay : s.pay = s'.pay) (hrem : s.rem = s'.rem) :
    NextsAgree (dests .unpack ++ [.err]) (execUnpack s) (execUnpack s') := by
  simp only [execUnpack, runUnpack, hpay, hrem, hcaps]
  split_ifs
  · exact nextsAgree_raise .unpack _ s s'
  · exact nextsAgree_commit (by simp [dests, Same, herr]) _

theorem execTwalk_reads (hnode : s.node = s'.node) (hroot : s.root = s'.root) (hbits : s.bits = s'.bits) :
    NextsAgree (dests .twalk ++ [.err]) (execTwalk s) (execTwalk s') := by
  simp only [execTwalk, runTwalk, hnode, hroot, hbits, hcaps]
  split_ifs
  · exact nextsAgree_raise .twalk _ s s'
  · cases s'.node[s'.root.toNat]? with
    | none => exact nextsAgree_stopped _ _ _
    | some x =>
      cases x with
      | leaf sym w => exact nextsAgree_commit (by simp [dests, Same, herr]) _
      | internal l r w =>
        cases treeWalk s'.node s'.root s'.root s'.bits with
        | none => exact nextsAgree_stopped _ _ _
        | some oc =>
          simp only
          split_ifs
          · exact nextsAgree_raise .twalk _ s s'
          · exact nextsAgree_commit (by simp [dests, Same, herr]) _

/-! ### The composites -/

/-- A command that overwrites every element but `ERR` and those it reads answers the same on two states that agree on these,
but for the words pending. -/
theorem exec_eq_mapNext_of_same {i : Instr} (hi : ∀ e ∈ dests i, e ∉ readTable i)
    (hall : ∀ e, e ∈ dests i ∨ e ∈ readTable i ∨ e = .err) (h : ∀ e ∈ readTable i, Same s s' e) :
    exec i s' = mapNext (State.withHost s'.host) (exec i s) := by
  have hclear : clearAll (dests i) s' = (clearAll (dests i) s).withHost s'.host := by
    rw [← clearAll_withHost]
    refine UnchangedOutside.clearAll_eq ⟨fun e he => ?_, rfl, hcaps.symm⟩
    obtain hread | rfl := (hall e).resolve_left he
    · have hsame := h e hread
      cases e <;> exact hsame
    · exact herr
  rw [← exec_clearAll_dests hi s', hclear, exec_withHost, exec_clearAll_dests hi s]

theorem exec_reads_of_overwrites {i : Instr} (hi : ∀ e ∈ dests i, e ∉ readTable i)
    (hall : ∀ e, e ∈ dests i ∨ e ∈ readTable i ∨ e = .err) (h : ∀ e ∈ readTable i, Same s s' e) :
    NextsAgree (dests i ++ [.err]) (exec i s) (exec i s') := by
  intro t t' ht ht' e _
  rw [exec_eq_mapNext_of_same herr hcaps hi hall h, ht] at ht'
  cases ht'
  cases e <;> rfl

/-! ### Every command -/

/-- A command's destinations and `ERR` depend on the elements it reads, on `ERR` and on the capacities alone (R37, R116). -/
theorem exec_reads {i : Instr} (h : ∀ e ∈ readTable i, Same s s' e) :
    NextsAgree (dests i ++ [.err]) (exec i s) (exec i s') := by
  cases i with
  | nop => exact nextsAgree_next (by simpa [dests, Same] using herr)
  | reset => exact nextsAgree_next fun e _ => by cases e <;> rfl
  | inPush b =>
    have hin : s.inBuf = s'.inBuf := h .inBuf (by simp [readTable])
    simp only [exec, execInPush, hin, hcaps]
    exact nextsAgree_commit (by simp [dests, Same, herr]) _
  | ftPush x c => exact execFtPush_reads herr x c (h .ft (by simp [readTable]))
  | bitPush b =>
    have hbits : s.bits = s'.bits := h .bits (by simp [readTable])
    simp only [exec, execBitPush, hbits, hcaps]
    exact nextsAgree_commit (by simp [dests, Same, herr]) _
  | payPush b =>
    have hpay : s.pay = s'.pay := h .pay (by simp [readTable])
    simp only [exec, execPayPush, hpay, hcaps]
    exact nextsAgree_commit (by simp [dests, Same, herr]) _
  | remSet r => exact nextsAgree_next (by simp [dests, Same, herr])
  | count => exact execCount_reads herr (h .inBuf (by decide))
  | build => exact execBuild_reads herr (h .ft (by decide))
  | walk => exact execWalk_reads herr (h .node (by decide)) (h .root (by decide))
  | xlate => exact execXlate_reads herr hcaps (h .inBuf (by decide)) (h .ct (by decide))
  | pack => exact execPack_reads herr hcaps (h .bits (by decide))
  | hdrEnc => exact execHdrEnc_reads herr (h .ft (by decide)) (h .rem (by decide))
  | blob => exact execBlob_reads herr hcaps (h .hdr (by decide)) (h .pay (by decide))
  | hdrDec => exact execHdrDec_reads herr hcaps (h .inBuf (by decide))
  | unpack => exact execUnpack_reads herr hcaps (h .pay (by decide)) (h .rem (by decide))
  | twalk => exact execTwalk_reads herr hcaps (h .node (by decide)) (h .root (by decide)) (h .bits (by decide))
  | encode | decode =>
    exact exec_reads_of_overwrites herr hcaps (by decide) (fun e => by cases e <;> decide) h

end

/-- The third column of R37, as the statements and as the model write it. -/
theorem destTable_eq_dests (i : Instr) : destTable i = dests i := by cases i <;> rfl

/-- Settles O19: a unit runs in step on the two states; a composite clears all that the states may differ in. -/
theorem commandsReadOnlyTheirOperands : Obligations.CommandsReadOnlyTheirOperands := by
  unfold Obligations.CommandsReadOnlyTheirOperands
  intro i s s' t t' hsame herr hcaps ht ht'
  have hagree := exec_reads herr hcaps hsame t t' ht ht'
  rw [destTable_eq_dests]
  exact ⟨fun e he => hagree e (List.mem_append_left _ he), hagree .err (by simp)⟩

end Sys2Proof.Machine
end

section
/-! PROOFS. The step function and the host commands (spec/40_host_commands.md R115, R118 to R124). -/

namespace Sys2Proof.Machine

/-! ### The step function, case by case -/

/-- With a word pending, a step takes it and runs the step function of R115 on it. -/
theorem step_of_host_cons {s : State} {w : Word} {rest : List Word} (h : s.host = w :: rest) :
    step s = issue w { s with host := rest } := by
  simp [step, fetch, h]

theorem step_of_host_nil {s : State} (h : s.host = []) : step s = .next s := by
  simp [step, fetch, h]

/-- `RESET` always runs, any other command while `ERR` is 0. -/
theorem issue_of_runs {w : Word} {i : Instr} {s : State} (hw : decode w = .cmd i) (hruns : i = .reset ∨ s.err = 0#3) :
    issue w s = exec i s := by
  obtain rfl := decode_eq_cmd_iff.1 hw
  rw [issue_encode, if_pos hruns]

/-- While `ERR` is set every word but that of `RESET` is ignored, legal or not. -/
theorem issue_of_err_ne_zero {w : Word} {s : State} (hw : decode w ≠ .cmd .reset) (hs : s.err ≠ 0#3) :
    issue w s = .next s := by
  cases hd : decode w with
  | cmd i =>
    have hi : i ≠ .reset := by
      rintro rfl
      exact hw hd
    simp [issue, hd, noError_iff, hi, hs]
  | illegal why => simp [issue, hd, noError_iff, hs]

/-- An illegal word with `ERR = 0` raises `IllegalCommand`, which has no destination (R232). -/
theorem issue_of_illegal {w : Word} {why : IllegalReason} {s : State} (hw : decode w = .illegal why)
    (hs : s.err = 0#3) : issue w s = .next { s with err := 5#3 } := by
  simp [issue, hw, noError_iff, hs, raise_nil, errCode]

/-- Settles O6: a step issues the first pending word, and each clause is a case of `issue`. -/
theorem stepRunsTheDecodedCommand : Obligations.StepRunsTheDecodedCommand := by
  unfold Obligations.StepRunsTheDecodedCommand
  intro s w rest hhost
  rw [step_of_host_cons hhost]
  exact ⟨fun _ hw hruns => issue_of_runs hw hruns, fun hw hs => issue_of_err_ne_zero hw hs,
    fun _ hw hs => issue_of_illegal hw hs⟩

/-- Settles O7: the offered word is the first pending one. -/
theorem offeredWordIsTheNextToRun : Obligations.OfferedWordIsTheNextToRun := by
  unfold Obligations.OfferedWordIsTheNextToRun
  refine fun s => ⟨fun w hw => ?_, step_of_host_nil⟩
  rw [State.withFetchWord, Nat.mod_eq_of_lt hw]
  exact step_of_host_cons rfl

/-! ### Words that no command has -/

/-- A word that is no command's word is illegal (R89, R90). -/
theorem exists_illegal_of_ne_encode {w : Word} (h : ∀ i, w ≠ encode i) : ∃ why, decode w = .illegal why := by
  cases hd : decode w with
  | cmd i => exact absurd (decode_eq_cmd_iff.1 hd) (h i)
  | illegal why => exact ⟨why, rfl⟩

/-- A command's word has the command's opcode (R85, R88). -/
theorem opcodeOf_encode (i : Instr) : opcodeOf (encode i) = opcode i :=
  (fields_of_decode_eq_cmd (decode_encode i)).1

theorem eq_reset_of_opcode {i : Instr} (h : opcode i = 0x01#8) : i = .reset := by
  cases i with
  | reset => rfl
  | _ => simp [opcode] at h

theorem exists_eq_remSet_of_opcode {i : Instr} (h : opcode i = 0x14#8) : ∃ r, i = .remSet r := by
  cases i with
  | remSet r => exact ⟨r, rfl⟩
  | _ => simp [opcode] at h

theorem toNat_encode_remSet_lt (r : BitVec 3) : (encode (.remSet r)).toNat < 0x14000008 := by
  revert r
  decide

/-- The words from 0x14000000 up to 0x15000000 have opcode 0x14. -/
theorem opcodeOf_eq_of_range {w : Word} (hlow : 0x14000000 ≤ w.toNat) (hhigh : w.toNat < 0x15000000) :
    opcodeOf w = 0x14#8 := by
  apply BitVec.eq_of_toNat_eq
  simp only [opcodeOf, BitVec.extractLsb'_toNat, Nat.shiftRight_eq_div_pow, BitVec.toNat_ofNat]
  omega

/-! ### The control commands -/

/-- Settles O21: `NOP` leaves the state as it is, and a set `ERR` makes its word ignored. -/
theorem nopChangesNothing : Obligations.NopChangesNothing := by
  unfold Obligations.NopChangesNothing
  refine ⟨decode_encode .nop, fun s => ⟨rfl, ?_⟩⟩
  exact (issue_encode .nop s).trans (ite_self _)

/-- Settles O22: `RESET` runs whatever `ERR` is; a word with its opcode that decodes to a command is its word. -/
theorem resetClearsEveryElement : Obligations.ResetClearsEveryElement := by
  unfold Obligations.ResetClearsEveryElement
  refine ⟨decode_encode .reset, fun s => ⟨issue_of_runs (decode_encode .reset) (.inl rfl), rfl⟩, fun w hop hne => ?_,
    fun w s => issue_of_err_ne_zero⟩
  refine exists_illegal_of_ne_encode fun i hw => hne ?_
  have hi : opcode i = 0x01#8 := (opcodeOf_encode i).symm.trans (hw ▸ hop)
  rw [hw, eq_reset_of_opcode hi]
  rfl

/-! ### The load commands -/

/-- The two ends of a command that appends one element to a bounded buffer (R126, R236). -/
theorem outcome_commit_append {α : Type} (i : Instr) (cap : Cap) (buf : List α) (x : α) (s t : State) :
    (Within cap (buf.length + 1) → outcome (commit i (fits cap (buf ++ [x]).length) s t) = .next t) ∧
    (¬ Within cap (buf.length + 1) →
      outcome (commit i (fits cap (buf ++ [x]).length) s t) = .next (raise (dests i) .capacity s)) := by
  rw [outcome_commit, List.length_append, List.length_singleton]
  exact ⟨fun h => by rw [if_pos ((fits_iff_within _ _).2 h)], fun h => by rw [if_neg (mt (fits_iff_within _ _).1 h)]⟩

/-- Settles O23: the word is that of the command, and its two ends are those of an append to `IN`. -/
theorem inPushAppends : Obligations.InPushAppends := fun s b =>
  ⟨decode_encode (.inPush b), outcome_commit_append (.inPush b) s.caps.inCap s.inBuf b s _⟩

/-- Settles O25: likewise, an append to `BITS`. -/
theorem bitPushAppends : Obligations.BitPushAppends := fun s b =>
  ⟨decode_encode (.bitPush b), outcome_commit_append (.bitPush b) s.caps.bitsCap s.bits b s _⟩

/-- Settles O26: likewise, an append to `PAY`. -/
theorem payPushAppends : Obligations.PayPushAppends := fun s b =>
  ⟨decode_encode (.payPush b), outcome_commit_append (.payPush b) s.caps.payCap s.pay b s _⟩

/-- Settles O24: the clauses are the three branches of `FT_PUSH`, the test for the symbol first (R237). -/
theorem ftPushAppendsOrRaises : Obligations.FtPushAppendsOrRaises := by
  unfold Obligations.FtPushAppendsOrRaises
  intro s x c
  have hnew (h : ∀ e ∈ s.ft, e.sym ≠ x) : ¬ s.ft.any (fun e => e.sym == x) = true := by
    simpa using h
  refine ⟨decode_encode (.ftPush x c), fun h => ?present, fun h (hlen : _ = Config.nMax) => ?full,
    fun h (hlen : _ ≠ Config.nMax) => ?room⟩ <;>
    rw [exec, execFtPush]
  case present => rw [if_pos (by simpa using h)]; rfl
  case full => rw [if_neg (hnew h), if_pos hlen]; rfl
  case room => rw [if_neg (hnew h), if_neg hlen]

/-- Settles O27: a word with opcode 0x14 that is a command's is that of `REM_SET`, whose operand is at most 7. -/
theorem remSetWritesRem : Obligations.RemSetWritesRem := by
  unfold Obligations.RemSetWritesRem
  refine ⟨fun s r => ⟨decode_encode (.remSet r), rfl⟩, fun w hlow hhigh => ?_⟩
  have hlow' : 0x14000008 ≤ w.toNat := hlow
  refine exists_illegal_of_ne_encode fun i hw => ?_
  have hop : opcode i = 0x14#8 := by
    rw [← opcodeOf_encode i, ← hw]
    exact opcodeOf_eq_of_range (by omega) hhigh
  obtain ⟨r, rfl⟩ := exists_eq_remSet_of_opcode hop
  exact absurd (hw ▸ toNat_encode_remSet_lt r) (Nat.not_lt.2 hlow')

end Sys2Proof.Machine
end

section
/-! The FrequencyCounter (spec/41_frequency_counter.md R130 to R134): the three ends of `COUNT`, and the facts of the table it
leaves. -/

namespace Sys2Proof.Machine

/-! ### The table of an input -/

/-- The table of R130: the distinct bytes of the input in first-seen order, each with the number of its occurrences. -/
def frequencies (input : List Byte) : List FreqEntry :=
  input.eraseDups.map fun b => ⟨b, BitVec.ofNat 16 (input.count b)⟩

theorem map_scan_eq_frequencies (input : List Byte) :
    (scan input).map (fun e => (⟨e.1, BitVec.ofNat 16 e.2⟩ : FreqEntry)) = frequencies input := by
  simp [scan_eq, frequencies]

@[simp] theorem length_scan (input : List Byte) : (scan input).length = input.eraseDups.length := by
  simp [scan_eq]

/-- The scan finds a count above 65535 exactly if some byte occurs more often than that. -/
theorem any_scan_gt_cntMax_iff (input : List Byte) :
    (scan input).any (fun e => decide (e.2 > Config.cntMax)) = true ↔ ∃ b, 65535 < input.count b := by
  simp only [scan_eq, List.any_map, List.any_eq_true, List.mem_eraseDups, Function.comp_apply, decide_eq_true_eq]
  constructor
  · rintro ⟨b, -, hb⟩
    exact ⟨b, hb⟩
  · rintro ⟨b, hb⟩
    exact ⟨b, List.count_pos_iff.1 (by omega), hb⟩

@[simp] theorem length_frequencies (input : List Byte) : (frequencies input).length = input.eraseDups.length := by
  simp [frequencies]

@[simp] theorem syms_frequencies (input : List Byte) :
    (frequencies input).map (fun e => e.sym) = input.eraseDups := by
  simp [frequencies, Function.comp_def]

/-- A count of at most 65535 fits its sixteen bits. -/
theorem toNat_ofNat_count {input : List Byte} (h : ValidInput input) (b : Byte) :
    (BitVec.ofNat 16 (input.count b)).toNat = input.count b := by
  obtain ⟨-, -, hcount⟩ := h
  have := hcount b
  rw [BitVec.toNat_ofNat, Nat.mod_eq_of_lt (by omega)]

/-- The occurrences of the distinct bytes are together the whole input. -/
theorem sum_count_eraseDups (input : List Byte) : (input.eraseDups.map input.count).sum = input.length := by
  have hperm : input.eraseDups.Perm input.dedup :=
    (List.perm_ext_iff_of_nodup (nodup_eraseDups input) input.nodup_dedup).2 fun b => by simp
  rw [(hperm.map _).sum_eq, List.sum_map_count_dedup_eq_length]

theorem head?_eraseDups (input : List Byte) : input.eraseDups.head? = input.head? := by
  cases input <;> simp [List.eraseDups_cons]

/-- An accepted input has at most 255 distinct bytes, each at most 65535 times (R134). -/
theorem ValidInput.length_le {input : List Byte} (h : ValidInput input) : input.length ≤ 16711425 := by
  obtain ⟨-, hdistinct, hcount⟩ := h
  calc input.length = (input.eraseDups.map input.count).sum := (sum_count_eraseDups input).symm
    _ ≤ input.eraseDups.length * 65535 := by
      simpa using List.sum_le_card_nsmul (input.eraseDups.map input.count) 65535 (by simp [hcount])
    _ ≤ 255 * 65535 := Nat.mul_le_mul_right _ hdistinct

/-! ### The three ends of `COUNT` -/

theorem exec_count_of_nil {s : State} (h : s.inBuf = []) :
    exec .count s = .next (raise (dests .count) .emptyInput s) := by
  rw [exec, execCount, runCount, if_pos h, outcome_raised]

/-- A valid input passes all three tests of R131. -/
theorem exec_count_of_valid {s : State} (h : ValidInput s.inBuf) :
    exec .count s = .next { s with ft := frequencies s.inBuf } := by
  obtain ⟨hne, hdistinct, hcount⟩ := h
  have hlen : ¬ (scan s.inBuf).length > Config.nMax := by simpa [Config.nMax] using hdistinct
  have hany := (any_scan_gt_cntMax_iff s.inBuf).not.2 (by simpa using hcount)
  rw [exec, execCount, runCount, if_neg hne, if_neg hlen, if_neg hany, outcome_done, map_scan_eq_frequencies]

/-- A non-empty input that is not valid fails one of the two tests of R132. -/
theorem exec_count_of_overflow {s : State} (hne : s.inBuf ≠ []) (h : ¬ ValidInput s.inBuf) :
    exec .count s = .next (raise (dests .count) .alphabetOverflow s) := by
  rw [exec, execCount, runCount, if_neg hne]
  by_cases hlen : (scan s.inBuf).length > Config.nMax
  · rw [if_pos hlen, outcome_raised]
  · have hdistinct : s.inBuf.eraseDups.length ≤ 255 := by simpa [Config.nMax] using hlen
    have hany : ∃ b, 65535 < s.inBuf.count b := by
      by_contra! hcount
      exact h ⟨hne, hdistinct, hcount⟩
    rw [if_neg hlen, if_pos ((any_scan_gt_cntMax_iff _).2 hany), outcome_raised]

/-- A `COUNT` that leaves `ERR` = 0 was given a valid input: the other two ends raise. -/
theorem valid_of_exec_count {s t : State} (h : exec .count s = .next t) (herr : t.err = 0#3) :
    ValidInput s.inBuf ∧ t = { s with ft := frequencies s.inBuf } := by
  by_cases hvalid : ValidInput s.inBuf
  · rw [exec_count_of_valid hvalid] at h
    exact ⟨hvalid, (Host.Outcome.next.inj h).symm⟩
  · obtain ⟨e, hraise⟩ : ∃ e, exec .count s = .next (raise (dests .count) e s) := by
      by_cases hne : s.inBuf = []
      · exact ⟨_, exec_count_of_nil hne⟩
      · exact ⟨_, exec_count_of_overflow hne hvalid⟩
    obtain rfl := Host.Outcome.next.inj (h.symm.trans hraise)
    exact absurd herr (errCode_ne_zero e)

/-! ### The obligations -/

/-- Settles O28: a valid input reaches the end of `COUNT` that writes the table. -/
theorem countGivesFirstSeenFrequencies : Obligations.CountGivesFirstSeenFrequencies :=
  ⟨decode_encode .count, fun _ h => exec_count_of_valid h⟩

/-- Settles O29: an input over a bound is not empty and not valid. -/
theorem countRejects : Obligations.CountRejects := by
  unfold Obligations.CountRejects
  refine fun s => ⟨exec_count_of_nil, fun hdistinct => ?_, fun b hcount => ?_⟩
  · refine exec_count_of_overflow (fun hnil => ?_) fun ⟨_, hle, _⟩ => by omega
    simp [hnil] at hdistinct
  · refine exec_count_of_overflow (fun hnil => ?_) fun ⟨_, _, hle⟩ => absurd (hle b) (by omega)
    simp [hnil] at hcount

/-- Settles O30: the facts of the table of a valid input. -/
theorem successfulCountFacts : Obligations.SuccessfulCountFacts := by
  unfold Obligations.SuccessfulCountFacts
  intro s t _ hexec herr
  obtain ⟨hvalid, rfl⟩ := valid_of_exec_count hexec herr
  have ⟨hne, hdistinct, hcount⟩ := hvalid
  refine ⟨?nonempty, by simpa using hdistinct, by simpa using nodup_eraseDups s.inBuf, ?bounds, ?sum,
    hvalid.length_le, ?first⟩
  case nonempty =>
    rw [length_frequencies]
    exact List.length_pos_of_mem (List.mem_eraseDups.2 (List.head_mem hne))
  case bounds =>
    simp only [frequencies, List.forall_mem_map, List.mem_eraseDups, toNat_ofNat_count hvalid]
    exact fun b hb => ⟨List.count_pos_iff.2 hb, hcount b⟩
  case sum =>
    simp only [frequencies, List.map_map, Function.comp_def, toNat_ofNat_count hvalid]
    exact sum_count_eraseDups s.inBuf
  case first => rw [← List.head?_map, syms_frequencies, head?_eraseDups]

end Sys2Proof.Machine
end

section
/-! PROOFS. The TreeBuilder (spec/42_tree_builder.md R141 to R151): the two ends of `BUILD`, the merges of the tree it makes, and
the weight of its root. -/

namespace Sys2Proof.Machine

/-! ### The ends of the units of a tree -/

theorem exec_build_of_nil {s : State} (h : s.ft = []) :
    exec .build s = .next { s with node := [], root := 0#9, err := 1#3 } :=
  congrArg outcome (if_pos h : runBuild s = _)

theorem exec_build_of_ne_nil {s : State} (h : s.ft ≠ []) :
    exec .build s = .next { s with node := (buildTree s.ft).1, root := (buildTree s.ft).2 } :=
  congrArg outcome (if_neg h : runBuild s = _)

theorem exec_walk_of_nil {s : State} (h : s.node = []) :
    exec .walk s = .next { s with ct := noCodes, err := 6#3 } :=
  congrArg outcome (if_pos h : runWalk s = _)

theorem exec_twalk_of_nil {s : State} (h : s.node = []) : exec .twalk s = .next { s with out := [], err := 6#3 } :=
  congrArg outcome (if_pos h : runTwalk s = _)

/-- Settles O56: each unit tests for its missing element first. -/
theorem unitsWithoutTheirElementRaise : Obligations.UnitsWithoutTheirElementRaise := fun _ =>
  ⟨exec_build_of_nil, exec_walk_of_nil, exec_twalk_of_nil⟩

/-! ### The merges of the arena -/

/-- A member of the collection is removed before all of `q` (R143). -/
def RemovedFirst (a : Item) (q : List Item) : Prop := ∀ x ∈ q, RemovedBefore a.idx a.node x.idx x.node

@[simp] theorem keyOf_idx (i : Nat) (x : Node) : (keyOf i x).idx = i := by cases x <;> rfl

/-- Taking the least of a collection of distinct records takes the one that is removed before the others: the key order is
total on them. -/
theorem removedFirst_of_takeLeast {q rest : List Item} {a : Item} (hq : (q.map Item.idx).Nodup)
    (h : takeLeast q = some (a, rest)) : RemovedFirst a rest := by
  obtain ⟨hperm, hleast⟩ := takeLeast_spec q a rest h
  intro x hx
  have hne : x.idx ≠ a.idx := by
    obtain ⟨ha, -⟩ := List.nodup_cons.1 ((hperm.map Item.idx).nodup_iff.1 hq)
    exact fun heq => ha (heq ▸ List.mem_map_of_mem hx)
  exact (keyLt_iff_removedBefore _ _ _ _).1 (keyLt_of_not (hleast x hx) (by simpa using hne))

/-- The members before a merge depend only on the records before it. -/
theorem inPool_append_left (n more : List Node) {k m i : Nat} (hm : k + m ≤ n.length) :
    InPool (n ++ more) k m i ↔ InPool n k m i := by
  refine and_congr_right fun _ => forall₃_congr fun j x hj => ?_
  rw [List.getElem?_append_left (by omega)]

/-- A merge stays the one asked for when the arena grows. -/
theorem mergeOk_append_left (n more : List Node) {k m : Nat} (hm : k + m < n.length) (h : MergeOk n k m) :
    MergeOk (n ++ more) k m := by
  obtain ⟨l, r, w, a, b, hnode, hl, hr, hw, hlpool, hrpool, hbefore, hrest⟩ := h
  have hpool : ∀ {i}, InPool (n ++ more) k m i ↔ InPool n k m i := inPool_append_left n more hm.le
  have hget : ∀ {i}, InPool n k m i → (n ++ more)[i]? = n[i]? := fun hi =>
    List.getElem?_append_left (hi.1.trans hm)
  refine ⟨l, r, w, a, b, by rwa [List.getElem?_append_left hm], by rwa [hget hlpool], by rwa [hget hrpool], hw,
    hpool.2 hlpool, hpool.2 hrpool, hbefore, fun i x hi hx => ?_⟩
  exact hrest i x (hpool.1 hi) (by rwa [hget (hpool.1 hi)] at hx)

/-- The collection of the merge loop holds the records that no earlier merge removed (R142). -/
theorem MergeInv.inPool_iff {k total m : Nat} {n : List Node} {q : List Item} (h : MergeInv k total n q)
    (hm : k + m = n.length) {i : Nat} : InPool n k m i ↔ i ∈ q.map Item.idx := by
  rw [InPool, hm]
  constructor
  · rintro ⟨hi, hfree⟩
    by_contra hiq
    have hcount := h.parents i hi
    rw [if_neg hiq] at hcount
    obtain ⟨x, hx, hparent⟩ := List.countP_pos_iff.1 (hcount ▸ Nat.one_pos)
    obtain ⟨j, hj, rfl⟩ := List.mem_iff_getElem.1 hx
    have hget := List.getElem?_eq_getElem hj
    have hkj : k ≤ j := by
      cases hx : n[j] with
      | leaf sym w => simp [hx, isParentOf] at hparent
      | internal l r w => exact ((nodeOk_internal_iff (hget.trans (congrArg some hx))).1 (h.nodes j hj)).1
    obtain ⟨d, rfl⟩ := Nat.exists_eq_add_of_le hkj
    rw [hfree d _ (by omega) hget] at hparent
    cases hparent
  · intro hiq
    have hi : i < n.length := by
      obtain ⟨x, hx, rfl⟩ := List.mem_map.1 hiq
      exact h.idx_lt hx
    have hcount := h.parents i hi
    rw [if_pos hiq, List.countP_eq_zero] at hcount
    exact ⟨hi, fun j x _ hx => Bool.eq_false_iff.2 (hcount x (List.mem_of_getElem? hx))⟩

/-- A round that merges the two members removed first appends the record asked for. -/
theorem MergeInv.mergeOk {k total m : Nat} {n : List Node} {a b : Item} {q : List Item} (hk : k ≤ 255)
    (htotal : total < 2 ^ 24) (h : MergeInv k total n (a :: b :: q)) (hm : k + m = n.length)
    (ha : RemovedFirst a (b :: q)) (hb : RemovedFirst b q) : MergeOk (n ++ [mergeNode a b]) k m := by
  have hsize : n.length + (q.length + 2) = 2 * k := h.size
  have hweight : (nodeWeight a.node).toNat + ((nodeWeight b.node).toNat + itemsWeight q) = total := h.weight
  have halt := h.idx_lt (x := a) (by simp)
  have hblt := h.idx_lt (x := b) (by simp)
  have haidx : (BitVec.ofNat 9 a.idx).toNat = a.idx := toNat_nodeIdx (by omega)
  have hbidx : (BitVec.ofNat 9 b.idx).toNat = b.idx := toNat_nodeIdx (by omega)
  have hpool : ∀ {i}, InPool (n ++ [mergeNode a b]) k m i ↔ i ∈ (a :: b :: q).map Item.idx :=
    (inPool_append_left n _ hm.le).trans (h.inPool_iff hm)
  refine ⟨.ofNat 9 a.idx, .ofNat 9 b.idx, nodeWeight a.node + nodeWeight b.node, a.node, b.node,
    hm ▸ List.getElem?_concat_length, ?left, ?right, nodeWeight_mergeNode (by omega), ?leftPool, ?rightPool, ?order,
    ?rest⟩ <;> simp only [haidx, hbidx]
  case left => rw [List.getElem?_append_left halt, h.items a (by simp)]
  case right => rw [List.getElem?_append_left hblt, h.items b (by simp)]
  case leftPool => exact hpool.2 (by simp)
  case rightPool => exact hpool.2 (by simp)
  case order => exact ha b (by simp)
  case rest =>
    intro i x hi hx hia hib
    obtain ⟨y, hy, rfl⟩ := List.mem_map.1 (hpool.1 hi)
    rw [List.getElem?_append_left (h.idx_lt hy), h.items y hy] at hx
    cases hx
    have hyq : y ∈ q := by
      obtain rfl | rfl | hyq := by simpa using hy
      · exact absurd rfl hia
      · exact absurd rfl hib
      · exact hyq
    exact hb y hyq

/-- The merge loop keeps to the merges asked for. -/
theorem MergeInv.mergeOk_mergeAll {k total : Nat} (hk : k ≤ 255) (htotal : total < 2 ^ 24) (rounds : Nat) {n : List Node}
    {q : List Item} (h : MergeInv k total n q) (hn : ∀ m, k + m < n.length → MergeOk n k m) :
    ∀ m, k + m < (mergeAll rounds n q).1.length → MergeOk (mergeAll rounds n q).1 k m := by
  induction rounds generalizing n q with
  | zero => exact hn
  | succ rounds ih =>
    match q, h with
    | [], _ => exact hn
    | [x], _ => rwa [mergeAll_single]
    | x :: y :: t, h =>
      obtain ⟨a, b, q1, q2, h1, h2, hround⟩ := mergeAll_round rounds n (x :: y :: t) (by simp)
      have hq1 := h.perm (takeLeast_spec _ a q1 h1).1
      have hperm := (takeLeast_spec _ b q2 h2).1
      have ha : RemovedFirst a (b :: q2) := fun z hz =>
        removedFirst_of_takeLeast h.distinct h1 z (hperm.mem_iff.2 hz)
      have hb : RemovedFirst b q2 := removedFirst_of_takeLeast (List.nodup_cons.1 hq1.distinct).2 h2
      have hq2 := hq1.perm (hperm.cons a)
      rw [hround]
      refine ih (hq2.merge hk htotal) fun m hm => ?_
      rw [List.length_append, List.length_singleton] at hm
      obtain hlt | heq := Nat.lt_succ_iff_lt_or_eq.1 hm
      · exact mergeOk_append_left n _ hlt (hn m hlt)
      · exact hq2.mergeOk hk htotal heq ha hb

theorem buildTree_fst (t : List FreqEntry) : (buildTree t).1 = (mergeAll t.length (t.map leafOf) (leafItems 0 t)).1 := by
  rw [buildTree]
  split <;> simp [*]

/-- `BUILD` makes the arena of its table. -/
theorem arenaOf_buildTree {t : List FreqEntry} (ht : t ≠ []) (hle : t.length ≤ 255) : ArenaOf t (buildTree t).1 := by
  obtain ⟨more, harena, hmore, -, -⟩ := buildTree_layout t ht
  have hlength : (buildTree t).1.length = 2 * t.length - 1 := by
    have := List.length_pos_iff.2 ht
    rw [harena, List.length_append, List.length_map, hmore]
    omega
  have hmerges : ∀ m, t.length + m < (buildTree t).1.length → MergeOk (buildTree t).1 t.length m := by
    rw [buildTree_fst]
    exact (mergeInv_leaves t).mergeOk_mergeAll hle (tableWeight_lt hle) t.length fun m hm => by simp at hm
  refine ⟨hlength, fun i e hi => ?_, fun m hm => hmerges m (by omega)⟩
  have hlt := (List.getElem?_eq_some_iff.1 hi).1
  rw [harena, List.getElem?_append_left (by simpa using hlt), List.getElem?_map, hi]
  rfl

/-- Settles O31: the merge loop takes the member removed first twice a round, and its collection is what earlier merges left. -/
theorem buildMergesTheTwoLeastEachTime : Obligations.BuildMergesTheTwoLeastEachTime := by
  refine ⟨decode_encode .build, fun s hft hle => ⟨(buildTree s.ft).1, ?_, arenaOf_buildTree hft hle⟩⟩
  obtain ⟨-, -, -, -, hroot⟩ := buildTree_layout s.ft hft
  rw [exec_build_of_ne_nil hft, hroot]

/-! ### The root's weight -/

/-- The one node that remains has the weight of the whole collection (R145). -/
theorem weightAt_root_buildTree {t : List FreqEntry} (ht : t ≠ []) (hle : t.length ≤ 255) :
    weightAt (buildTree t).1 (buildTree t).2.toNat = tableWeight t := by
  obtain ⟨r, hinv, hr⟩ := mergeInv_buildTree ht hle
  rw [← hr, weightAt_of_getElem? (hinv.items r (List.mem_singleton_self r)), ← hinv.weight]
  simp [itemsWeight]

/-- Settles O32: the merge loop's invariant at its end. -/
theorem builtTreeIsWellFormedAndWeighsTheTable : Obligations.BuiltTreeIsWellFormedAndWeighsTheTable :=
  fun _ hft hle => ⟨_, exec_build_of_ne_nil hft, (treeOk_iff _ _).2 (.inr ⟨_, fullTree_buildTree hft hle⟩),
    weightAt_root_buildTree hft hle⟩

end Sys2Proof.Machine
end

section
/-! PROOFS. The tree does not depend on the order of the table (spec/42_tree_builder.md R149). Two arenas of the same entries differ
in the indices of their leaves alone: the order of removals never looks at those when symbols are distinct, so at each merge
both take nodes of the same ranks. -/

namespace Sys2Proof.Machine

/-! ### Ranks -/

/-- The key of a node (R143) without the arena index where the node is a leaf. -/
def rankOf (i : Nat) : Node → Key
  | .leaf sym w => keyOf 0 (.leaf sym w)
  | .internal l r w => keyOf i (.internal l r w)

/-- The rank of the record at an index; an index outside the arena has one that no record has. -/
def rankAt (n : List Node) (i : Nat) : Key :=
  match n[i]? with
  | some x => rankOf i x
  | none => ⟨0, 2, 0, 0⟩

theorem rankAt_of_getElem? {n : List Node} {i : Nat} {x : Node} (hi : n[i]? = some x) : rankAt n i = rankOf i x := by
  simp [rankAt, hi]

@[simp] theorem rankOf_w (i : Nat) (x : Node) : (rankOf i x).w = (nodeWeight x).toNat := by cases x <;> rfl

/-- Records of the same rank, in one arena or two, are the same leaf, or merges of the same weight at the same index. -/
theorem getElem?_of_rankAt_eq {n n' : List Node} {i i' : Nat} (h : rankAt n i = rankAt n' i') :
    (n[i]? = none ∧ n'[i']? = none) ∨
    (∃ sym w, n[i]? = some (.leaf sym w) ∧ n'[i']? = some (.leaf sym w)) ∨
    (i = i' ∧ ∃ l r l' r' w, n[i]? = some (.internal l r w) ∧ n'[i']? = some (.internal l' r' w)) := by
  rcases hx : n[i]? with _ | (⟨sym, w⟩ | ⟨l, r, w⟩) <;>
    rcases hx' : n'[i']? with _ | (⟨sym', w'⟩ | ⟨l', r', w'⟩) <;>
    simp [rankAt, hx, hx', rankOf, keyOf, BitVec.toNat_inj] at h ⊢
  case some.leaf.some.leaf => simp [h]
  case some.internal.some.internal => simp [h]

/-- Without their indices two leaves may become equal, but the order is kept otherwise. -/
theorem keyLt_rankOf_or_eq {i j : Nat} {a b : Node} (h : RemovedBefore i a j b) :
    keyLt (rankOf i a) (rankOf j b) = true ∨ rankOf i a = rankOf j b := by
  rw [← keyLt_iff_removedBefore, keyLt_iff] at h
  rw [keyLt_iff]
  cases a <;> cases b <;> simp [rankOf, keyOf] at h ⊢ <;> omega

/-- `κ` stands before every other rank of `P`. -/
def LeastRank (P : Set Key) (κ : Key) : Prop := κ ∈ P ∧ ∀ κ' ∈ P, κ' ≠ κ → keyLt κ κ' = true

theorem LeastRank.unique {P : Set Key} {κ κ' : Key} (h : LeastRank P κ) (h' : LeastRank P κ') : κ = κ' := by
  by_contra hne
  have hcycle := keyLt_trans (h.2 κ' h'.1 (Ne.symm hne)) (h'.2 κ h.1 hne)
  rw [keyLt_irrefl] at hcycle
  cases hcycle

/-! ### The arena of a table -/

/-- A record of the arena is the leaf of an entry or a merge (R147). -/
theorem ArenaOf.leaf_or_merge {t : List FreqEntry} {n : List Node} (hn : ArenaOf t n) {i : Nat} {x : Node}
    (hi : n[i]? = some x) :
    (∃ e, t[i]? = some e ∧ x = leafOf e) ∨
      ∃ m l r w, m < t.length - 1 ∧ i = t.length + m ∧ x = .internal l r w := by
  obtain ⟨hlength, hleaves, hmerges⟩ := hn
  have hlt := (List.getElem?_eq_some_iff.1 hi).1
  obtain hleaf | hge := Nat.lt_or_ge i t.length
  · have he := List.getElem?_eq_getElem hleaf
    exact .inl ⟨_, he, Option.some.inj (hi.symm.trans (hleaves i _ he))⟩
  · obtain ⟨m, rfl⟩ := Nat.exists_eq_add_of_le hge
    obtain ⟨l, r, w, -, -, hnode, -⟩ := hmerges m (by omega)
    exact .inr ⟨m, l, r, w, by omega, rfl, Option.some.inj (hi.symm.trans hnode)⟩

theorem ArenaOf.sym_of_leaf {t : List FreqEntry} {n : List Node} (hn : ArenaOf t n) {i : Nat} {sym : Byte} {w : Weight}
    (hi : n[i]? = some (.leaf sym w)) : (t.map fun e => e.sym)[i]? = some sym := by
  obtain ⟨e, he, hx⟩ | ⟨m, l, r, v, -, -, hx⟩ := hn.leaf_or_merge hi
  · cases hx
    rw [List.getElem?_map, he, Option.map_some]
  · cases hx

/-- With distinct symbols no two records have the same rank. -/
theorem ArenaOf.injOn_rankAt {t : List FreqEntry} {n : List Node} (hn : ArenaOf t n)
    (ht : (t.map fun e => e.sym).Nodup) : Set.InjOn (rankAt n) (Set.Iio n.length) := by
  intro i hi j hj hrank
  obtain ⟨hnone, -⟩ | ⟨sym, w, hleaf, hleaf'⟩ | ⟨heq, -⟩ := getElem?_of_rankAt_eq hrank
  · exact absurd hi (List.getElem?_eq_none_iff.1 hnone).not_gt
  · have hsym := hn.sym_of_leaf hleaf
    exact (List.getElem?_inj (List.getElem?_eq_some_iff.1 hsym).1 ht).1 (hsym.trans (hn.sym_of_leaf hleaf').symm)
  · exact heq

/-- The order of removals is that of the ranks. -/
theorem ArenaOf.keyLt_rankAt {t : List FreqEntry} {n : List Node} (hn : ArenaOf t n)
    (ht : (t.map fun e => e.sym).Nodup) {i j : Nat} {a b : Node} (hi : n[i]? = some a) (hj : n[j]? = some b)
    (h : RemovedBefore i a j b) : keyLt (rankAt n i) (rankAt n j) = true := by
  have hne : i ≠ j := by
    rintro rfl
    rw [← keyLt_iff_removedBefore, Option.some.inj (hi.symm.trans hj), keyLt_irrefl] at h
    cases h
  have hne' : rankAt n i ≠ rankAt n j := fun heq =>
    hne (hn.injOn_rankAt ht (List.getElem?_eq_some_iff.1 hi).1 (List.getElem?_eq_some_iff.1 hj).1 heq)
  rw [rankAt_of_getElem? hi, rankAt_of_getElem? hj] at hne' ⊢
  exact (keyLt_rankOf_or_eq h).resolve_right hne'

/-! ### The ranks in the collection -/

/-- The ranks of the nodes in the collection before merge `m`. -/
def poolRanks (n : List Node) (k m : Nat) : Set Key := rankAt n '' {i | InPool n k m i}

/-- Before the first merge these are the ranks of the entries' leaves. -/
theorem ArenaOf.mem_poolRanks_zero {t : List FreqEntry} {n : List Node} (hn : ArenaOf t n) {κ : Key} :
    κ ∈ poolRanks n t.length 0 ↔ ∃ e ∈ t, rankOf 0 (leafOf e) = κ := by
  obtain ⟨-, hleaves, -⟩ := hn
  have hrank : ∀ {i e}, t[i]? = some e → rankAt n i = rankOf 0 (leafOf e) := fun he =>
    rankAt_of_getElem? (hleaves _ _ he)
  constructor
  · rintro ⟨i, ⟨hi, -⟩, rfl⟩
    exact ⟨_, List.getElem_mem hi, (hrank (List.getElem?_eq_getElem hi)).symm⟩
  · rintro ⟨e, he, rfl⟩
    obtain ⟨i, hi⟩ := List.mem_iff_getElem?.1 he
    exact ⟨i, ⟨(List.getElem?_eq_some_iff.1 hi).1, fun _ _ hj => absurd hj (Nat.not_lt_zero _)⟩, hrank hi⟩

/-- The children of a merge are in the collection, so they stand before it. -/
theorem ArenaOf.childrenBelow {t : List FreqEntry} {n : List Node} (hn : ArenaOf t n) : ChildrenBelow n := by
  intro i l r w hi
  obtain ⟨e, -, hx⟩ | ⟨m, -, -, -, hm, rfl, -⟩ := hn.leaf_or_merge hi
  · cases hx
  · obtain ⟨-, -, hmerges⟩ := hn
    obtain ⟨l', r', w', -, -, hnode, -, -, -, hl, hr, -⟩ := hmerges m hm
    cases hnode.symm.trans hi
    exact ⟨hl.1, hr.1⟩

/-- A merge takes its children from the collection and puts the new node there (R142). -/
theorem inPool_succ_iff {n : List Node} (hbelow : ChildrenBelow n) {k m : Nat} {l r : NodeIdx} {w : Weight}
    (hnode : n[k + m]? = some (.internal l r w)) {i : Nat} :
    InPool n k (m + 1) i ↔ i = k + m ∨ (InPool n k m i ∧ i ≠ l.toNat ∧ i ≠ r.toNat) := by
  have hparent : isParentOf i (.internal l r w) = false ↔ i ≠ l.toNat ∧ i ≠ r.toNat := by
    simp [isParentOf, @eq_comm _ i]
  constructor
  · rintro ⟨hi, hfree⟩
    refine or_iff_not_imp_left.2 fun hne => ⟨⟨by omega, fun j x hj => hfree j x (by omega)⟩, ?_⟩
    exact hparent.1 (hfree m _ (Nat.lt_succ_self m) hnode)
  · rintro (rfl | ⟨⟨hi, hfree⟩, hlr⟩)
    · refine ⟨Nat.lt_succ_self _, fun j x hj hx => ?_⟩
      cases x with
      | leaf sym v => rfl
      | internal l' r' v =>
        obtain ⟨hl, hr⟩ := hbelow _ _ _ _ hx
        simp only [isParentOf, Bool.or_eq_false_iff, beq_eq_false_iff_ne]
        omega
    · refine ⟨by omega, fun j x hj hx => ?_⟩
      obtain hlt | rfl := Nat.lt_succ_iff_lt_or_eq.1 hj
      · exact hfree j x hlt hx
      · cases hnode.symm.trans hx
        exact hparent.2 hlr

/-- Merge `m` in ranks: its children have the two least of the collection, and its own rank replaces theirs there. -/
structure RankedMerge (n : List Node) (k m : Nat) (l r : NodeIdx) (w : Weight) : Prop where
  node : n[k + m]? = some (.internal l r w)
  left : LeastRank (poolRanks n k m) (rankAt n l.toNat)
  right : LeastRank (poolRanks n k m \ {rankAt n l.toNat}) (rankAt n r.toNat)
  weight : w.toNat = (rankAt n l.toNat).w + (rankAt n r.toNat).w
  next : poolRanks n k (m + 1) =
    insert ⟨w.toNat, 1, 0, k + m⟩ (poolRanks n k m \ {rankAt n l.toNat, rankAt n r.toNat})

theorem ArenaOf.rankedMerge {t : List FreqEntry} {n : List Node} (hn : ArenaOf t n)
    (ht : (t.map fun e => e.sym).Nodup) {m : Nat} (hm : m < t.length - 1) :
    ∃ l r w, RankedMerge n t.length m l r w := by
  have hbelow := hn.childrenBelow
  have hinj := hn.injOn_rankAt ht
  have ⟨hlength, _, hmerges⟩ := hn
  obtain ⟨l, r, w, a, b, hnode, hl, hr, hw, hlpool, hrpool, hbefore, hrest⟩ := hmerges m hm
  have hpool : {i | InPool n t.length m i} ⊆ Set.Iio n.length := fun i hi => hi.1.trans (by omega)
  have hchildren : {l.toNat, r.toNat} ⊆ {i | InPool n t.length m i} := by
    simp [Set.insert_subset_iff, hlpool, hrpool]
  have hlr : keyLt (rankAt n l.toNat) (rankAt n r.toNat) = true := hn.keyLt_rankAt ht hl hr hbefore
  have hothers : ∀ i, InPool n t.length m i → i ≠ l.toNat → i ≠ r.toNat →
      keyLt (rankAt n r.toNat) (rankAt n i) = true := fun i hi hil hir => by
    have hget := List.getElem?_eq_getElem (hpool hi)
    exact hn.keyLt_rankAt ht hr hget (hrest i _ hi hget hil hir)
  refine ⟨l, r, w, hnode, ⟨⟨_, hlpool, rfl⟩, ?left⟩, ⟨⟨⟨_, hrpool, rfl⟩, ?distinct⟩, ?right⟩, ?weight, ?next⟩
  case left =>
    rintro _ ⟨i, hi, rfl⟩ hne
    by_cases hir : i = r.toNat
    · rwa [hir]
    · exact keyLt_trans hlr (hothers i hi (fun hil => hne (by rw [hil])) hir)
  case distinct =>
    rw [Set.mem_singleton_iff]
    intro heq
    rw [heq, keyLt_irrefl] at hlr
    cases hlr
  case right =>
    rintro _ ⟨⟨i, hi, rfl⟩, hil⟩ hne
    exact hothers i hi (fun h => hil (by rw [h]; rfl)) fun h => hne (by rw [h])
  case weight => rw [rankAt_of_getElem? hl, rankAt_of_getElem? hr, rankOf_w, rankOf_w, hw]
  case next =>
    have hnext : {i | InPool n t.length (m + 1) i} =
        insert (t.length + m) ({i | InPool n t.length m i} \ {l.toNat, r.toNat}) := by
      ext i
      simp [inPool_succ_iff hbelow hnode]
    rw [poolRanks, hnext, Set.image_insert_eq, (hinj.mono hpool).image_sdiff_subset hchildren, Set.image_pair,
      rankAt_of_getElem? hnode]
    rfl

/-! ### Two arenas of the same entries -/

/-- From the same ranks both arenas merge nodes of the same ranks, into nodes of the same rank, and the same ranks remain. -/
theorem RankedMerge.agree {n n' : List Node} {k m : Nat} {l r l' r' : NodeIdx} {w w' : Weight}
    (h : RankedMerge n k m l r w) (h' : RankedMerge n' k m l' r' w') (hpool : poolRanks n k m = poolRanks n' k m) :
    rankAt n l.toNat = rankAt n' l'.toNat ∧ rankAt n r.toNat = rankAt n' r'.toNat ∧ w = w' ∧
      poolRanks n k (m + 1) = poolRanks n' k (m + 1) := by
  have hl : rankAt n l.toNat = rankAt n' l'.toNat := h.left.unique (hpool ▸ h'.left)
  have hr : rankAt n r.toNat = rankAt n' r'.toNat := h.right.unique (by rw [hpool, hl]; exact h'.right)
  have hw : w.toNat = w'.toNat := by rw [h.weight, h'.weight, hl, hr]
  exact ⟨hl, hr, BitVec.eq_of_toNat_eq hw, by rw [h.next, h'.next, hpool, hl, hr, hw]⟩

section
variable {t t' : List FreqEntry} {n n' : List Node} (hn : ArenaOf t n) (hn' : ArenaOf t' n')
  (ht : (t.map fun e => e.sym).Nodup) (hperm : t.Perm t')
include hn hn' ht hperm

/-- Before each merge the collections of the two arenas have the same ranks. -/
theorem poolRanks_eq_of_perm {m : Nat} (hm : m ≤ t.length - 1) : poolRanks n t.length m = poolRanks n' t.length m := by
  have ht' : (t'.map fun e => e.sym).Nodup := (hperm.map _).nodup_iff.1 ht
  induction m with
  | zero =>
    ext κ
    rw [hn.mem_poolRanks_zero, hperm.length_eq, hn'.mem_poolRanks_zero]
    simp only [hperm.mem_iff]
  | succ m ih =>
    obtain ⟨l, r, w, h⟩ := hn.rankedMerge ht hm
    obtain ⟨l', r', w', h'⟩ := hn'.rankedMerge ht' (hperm.length_eq ▸ hm)
    obtain ⟨-, -, -, hnext⟩ := h.agree (hperm.length_eq ▸ h') (ih (by omega))
    exact hnext

/-- The two arenas have the same merges, but for the indices of leaves. -/
theorem merges_agree_of_perm {m : Nat} (hm : m < t.length - 1) :
    ∃ l r l' r' w, n[t.length + m]? = some (.internal l r w) ∧ n'[t.length + m]? = some (.internal l' r' w) ∧
      rankAt n l.toNat = rankAt n' l'.toNat ∧ rankAt n r.toNat = rankAt n' r'.toNat := by
  have ht' : (t'.map fun e => e.sym).Nodup := (hperm.map _).nodup_iff.1 ht
  obtain ⟨l, r, w, h⟩ := hn.rankedMerge ht hm
  obtain ⟨l', r', w', h'⟩ := hn'.rankedMerge ht' (hperm.length_eq ▸ hm)
  rw [← hperm.length_eq] at h'
  obtain ⟨hl, hr, rfl, -⟩ := h.agree h' (poolRanks_eq_of_perm hn hn' ht hperm hm.le)
  exact ⟨l, r, l', r', w, h.node, h'.node, hl, hr⟩

/-- Nodes of the same rank have the same shape (R149). -/
theorem shapeAt_eq_of_rankAt_eq (depth : Nat) {i i' : NodeIdx} (hrank : rankAt n i.toNat = rankAt n' i'.toNat) :
    shapeAt n depth i = shapeAt n' depth i' := by
  induction depth generalizing i i' with
  | zero => rfl
  | succ depth ih =>
    rw [shapeAt, shapeAt]
    obtain ⟨hx, hx'⟩ | ⟨sym, w, hx, hx'⟩ | ⟨heq, l, r, l', r', w, hx, hx'⟩ := getElem?_of_rankAt_eq hrank
    · rw [hx, hx']
    · rw [hx, hx']
    · obtain ⟨e, -, hleaf⟩ | ⟨m, -, -, -, hm, hmerge, -⟩ := hn.leaf_or_merge hx
      · cases hleaf
      · obtain ⟨a, b, a', b', v, hnode, hnode', hleft, hright⟩ := merges_agree_of_perm hn hn' ht hperm hm
        cases hx.symm.trans (hmerge ▸ hnode)
        cases hx'.symm.trans (heq ▸ hmerge ▸ hnode')
        simp only [hx, hx', ih hleft, ih hright]

/-- The roots of the two arenas have the same rank: the last merge made them, or the table has one entry. -/
theorem rankAt_root_eq (ht0 : t ≠ []) : rankAt n (2 * t.length - 2) = rankAt n' (2 * t.length - 2) := by
  have hpos := List.length_pos_iff.2 ht0
  obtain hone | htwo : t.length = 1 ∨ 2 ≤ t.length := by omega
  · obtain ⟨e, rfl⟩ := List.length_eq_one_iff.1 hone
    obtain rfl := List.singleton_perm.1 hperm
    have ⟨_, hleaves, _⟩ := hn
    have ⟨_, hleaves', _⟩ := hn'
    exact (rankAt_of_getElem? (hleaves 0 e rfl)).trans (rankAt_of_getElem? (hleaves' 0 e rfl)).symm
  · obtain ⟨l, r, l', r', w, hnode, hnode', -, -⟩ :=
      merges_agree_of_perm hn hn' ht hperm (m := t.length - 2) (by omega)
    have hroot : 2 * t.length - 2 = t.length + (t.length - 2) := by omega
    rw [hroot, rankAt_of_getElem? hnode, rankAt_of_getElem? hnode']
    rfl

end

/-! ### The shape of the tree -/

/-- Children stand before their parents, so every node has a shape. -/
theorem exists_shapeAt {n : List Node} (hn : ChildrenBelow n) (depth : Nat) {i : NodeIdx} (hi : i.toNat < n.length)
    (hdepth : i.toNat < depth) : ∃ sh, shapeAt n depth i = some sh := by
  induction depth generalizing i with
  | zero => omega
  | succ depth ih =>
    have hget := List.getElem?_eq_getElem hi
    cases hx : n[i.toNat] with
    | leaf sym w => exact ⟨.leaf sym w, by simp [shapeAt, hget, hx]⟩
    | internal l r w =>
      rw [hx] at hget
      obtain ⟨hl, hr⟩ := hn _ _ _ _ hget
      obtain ⟨a, ha⟩ := ih (hl.trans hi) (by omega)
      obtain ⟨b, hb⟩ := ih (hr.trans hi) (by omega)
      exact ⟨.node a b w, by simp [shapeAt, hget, ha, hb]⟩

/-- The trees of a table of distinct symbols in two orders have the same shape: their roots have the same rank. -/
theorem shapeAt_buildTree_of_perm {t t' : List FreqEntry} (ht : TableOk t) (hne : t ≠ []) (hperm : t.Perm t') :
    shapeAt (buildTree t).1 (buildTree t).1.length (buildTree t).2 =
      shapeAt (buildTree t').1 (buildTree t').1.length (buildTree t').2 := by
  obtain ⟨hle, hsyms⟩ := ht
  have hlen := hperm.length_eq
  have hne' : t' ≠ [] := fun h => hne (h ▸ hperm).eq_nil
  have hn := arenaOf_buildTree hne hle
  have hn' := arenaOf_buildTree hne' (hlen ▸ hle)
  obtain ⟨-, -, -, -, hroot⟩ := buildTree_layout t hne
  obtain ⟨-, -, -, -, hroot'⟩ := buildTree_layout t' hne'
  rw [hn.1, hn'.1, hroot, hroot', ← hlen]
  refine shapeAt_eq_of_rankAt_eq hn hn' hsyms hperm _ ?_
  rw [toNat_nodeIdx (by omega)]
  exact rankAt_root_eq hn hn' hsyms hperm hne

/-- Settles O33: the tree of the first table has a shape, and the second tree has the same. -/
theorem treeShapeIgnoresTableOrder : Obligations.TreeShapeIgnoresTableOrder := by
  intro s s' htable hne hperm
  have hne' : s'.ft ≠ [] := fun h => hne (h ▸ hperm).eq_nil
  have hroot := root_lt_length_buildTree hne
  obtain ⟨sh, hsh⟩ := exists_shapeAt (childrenBelow_buildTree s.ft) _ hroot hroot
  exact ⟨_, _, sh, exec_build_of_ne_nil hne, exec_build_of_ne_nil hne', hsh,
    (shapeAt_buildTree_of_perm htable hne hperm).symm.trans hsh⟩

end Sys2Proof.Machine
end

section
/-! PROOFS. The CodeTableGenerator (spec/43_code_table.md R160 to R165). In a tree as R35 (b) says every record is at the end of
exactly one path from the root, since all but the root have exactly one parent; so the codes `WALK` leaves are those paths. -/

namespace Sys2Proof.Machine

/-! ### The records of a tree -/

/-- Where at most one element satisfies `P`, only one index holds one. -/
theorem index_eq_of_countP_le_one {α : Type} {P : α → Bool} {l : List α} (h : l.countP P ≤ 1) {i j : Nat} {x y : α}
    (hi : l[i]? = some x) (hx : P x = true) (hj : l[j]? = some y) (hy : P y = true) : i = j := by
  induction l generalizing i j with
  | nil => simp at hi
  | cons a l ih =>
    have hpos : ∀ {k : Nat} {z : α}, l[k]? = some z → P z = true → 0 < l.countP P := fun hk hz =>
      List.countP_pos_iff.2 ⟨_, List.mem_of_getElem? hk, hz⟩
    rw [List.countP_cons] at h
    cases i with
    | zero =>
      cases j with
      | zero => rfl
      | succ j =>
        obtain rfl : a = x := by simpa using hi
        have := hpos hj hy
        rw [if_pos hx] at h
        omega
    | succ i =>
      cases j with
      | zero =>
        obtain rfl : a = y := by simpa using hj
        have := hpos hi hx
        rw [if_pos hy] at h
        omega
      | succ j => rw [ih (by omega) hi hj]

theorem mem_leafSyms {n : List Node} {b : Byte} : b ∈ leafSyms n ↔ ∃ w, Node.leaf b w ∈ n := by
  rw [leafSyms, List.mem_filterMap]
  constructor
  · rintro ⟨x, hx, hb⟩
    cases x with
    | leaf sym w =>
      cases hb
      exact ⟨w, hx⟩
    | internal l r w => cases hb
  · rintro ⟨w, hw⟩
    exact ⟨_, hw, rfl⟩

/-- Two leaves of one symbol are the same leaf. -/
theorem leaf_index_unique {n : List Node} (hsyms : (leafSyms n).Nodup) {i j : Nat} {b : Byte} {v w : Weight}
    (hi : n[i]? = some (.leaf b v)) (hj : n[j]? = some (.leaf b w)) : i = j := by
  have hcount := List.nodup_iff_count_le_one.1 hsyms b
  rw [leafSyms, List.count_filterMap] at hcount
  exact index_eq_of_countP_le_one hcount hi (by simp) hj (by simp)

/-- A child of an internal record has that record as its one parent, and is not the root. -/
theorem FullTree.child_has_one_parent {k : Nat} {n : List Node} {root : NodeIdx} (h : FullTree k n root) {i : Nat}
    {l r : NodeIdx} {w : Weight} (hi : n[i]? = some (.internal l r w)) (b : Bool) :
    (if b then r else l).toNat < root.toNat ∧ n.countP (isParentOf (if b then r else l).toNat) ≤ 1 ∧
      isParentOf (if b then r else l).toNat (.internal l r w) = true := by
  have hlt := (List.getElem?_eq_some_iff.1 hi).1
  have hroot := h.root_last
  have hbelow := children_lt_of_nodeOk (h.nodes i hlt) hi
  have hchild : (if b then r else l).toNat < root.toNat := by cases b <;> simp <;> omega
  exact ⟨hchild, (h.one_parent _ (by omega)).le, by cases b <;> simp [isParentOf]⟩

/-- No record stands at two indices: leaves differ in their symbols, internal records in their children. -/
theorem FullTree.index_unique {k : Nat} {n : List Node} {root : NodeIdx} (h : FullTree k n root)
    (hsyms : (leafSyms n).Nodup) {i j : Nat} {x : Node} (hi : n[i]? = some x) (hj : n[j]? = some x) : i = j := by
  cases x with
  | leaf b w => exact leaf_index_unique hsyms hi hj
  | internal l r w =>
    obtain ⟨-, hone, hparent⟩ := h.child_has_one_parent hi false
    exact index_eq_of_countP_le_one hone hi hparent hj hparent

theorem FullTree.childrenBelow {k : Nat} {n : List Node} {root : NodeIdx} (h : FullTree k n root) : ChildrenBelow n :=
  fun i _ _ _ hi => children_lt_of_nodeOk (h.nodes i (List.getElem?_eq_some_iff.1 hi).1) hi

theorem FullTree.leaf_of_lt {k : Nat} {n : List Node} {root : NodeIdx} (h : FullTree k n root) {i : Nat} {x : Node}
    (hi : n[i]? = some x) (hlt : i < k) : ∃ b w, x = .leaf b w := by
  cases x with
  | leaf b w => exact ⟨b, w, rfl⟩
  | internal l r w =>
    have hge := ((nodeOk_internal_iff hi).1 (h.nodes i (List.getElem?_eq_some_iff.1 hi).1)).1
    omega

theorem FullTree.internal_of_le {k : Nat} {n : List Node} {root : NodeIdx} (h : FullTree k n root) {i : Nat} {x : Node}
    (hi : n[i]? = some x) (hge : k ≤ i) : ∃ l r w, x = .internal l r w := by
  cases x with
  | leaf b w =>
    have hlt := (nodeOk_leaf_iff hi).1 (h.nodes i (List.getElem?_eq_some_iff.1 hi).1)
    omega
  | internal l r w => exact ⟨l, r, w, rfl⟩

/-- The first `k` records are the leaves, and no other is one. -/
theorem FullTree.length_leafSyms {k : Nat} {n : List Node} {root : NodeIdx} (h : FullTree k n root) :
    (leafSyms n).length = k := by
  have hpos := h.leaves_pos
  have hsize := h.size
  rw [leafSyms, List.length_filterMap_eq_countP, ← List.take_append_drop k n, List.countP_append,
    List.countP_eq_length.2, List.countP_eq_zero.2, List.length_take]
  · omega
  · intro x hx
    obtain ⟨i, hi⟩ := List.mem_iff_getElem?.1 hx
    rw [List.getElem?_drop] at hi
    obtain ⟨l, r, w, rfl⟩ := h.internal_of_le hi (Nat.le_add_right k i)
    simp
  · intro x hx
    obtain ⟨i, hi⟩ := List.mem_iff_getElem?.1 hx
    have hlt := (List.getElem?_eq_some_iff.1 hi).1
    rw [List.length_take] at hlt
    rw [List.getElem?_take_of_lt (by omega)] at hi
    obtain ⟨b, w, rfl⟩ := h.leaf_of_lt hi (by omega)
    rfl

/-! ### One path to every record -/

/-- The last step of a path leaves an internal record. -/
theorem follow_concat {n : List Node} {i : NodeIdx} {p : Code} {b : Bit} {x : Node} :
    follow n i (p ++ [b]) = some x ↔
      ∃ l r w, follow n i p = some (.internal l r w) ∧ n[(if b then r else l).toNat]? = some x := by
  induction p generalizing i with
  | nil =>
    rw [List.nil_append, follow, follow]
    cases n[i.toNat]? with
    | none => simp
    | some y => cases y <;> simp [follow]
  | cons c p ih =>
    rw [List.cons_append, follow, follow]
    cases n[i.toNat]? with
    | none => simp
    | some y =>
      cases y with
      | leaf sym w => simp
      | internal l r w => exact ih

theorem mem_of_follow {n : List Node} {i : NodeIdx} {p : Code} {x : Node} (h : follow n i p = some x) : x ∈ n := by
  cases p using List.reverseRecOn with
  | nil => exact List.mem_of_getElem? h
  | append_singleton p b =>
    obtain ⟨l, r, w, -, hx⟩ := follow_concat.1 h
    exact List.mem_of_getElem? hx

/-- Distinct children are on different sides. -/
theorem side_eq_of_child_eq {l r : NodeIdx} (hne : l ≠ r) :
    ∀ {b c : Bit}, (if b then r else l) = (if c then r else l) → b = c
  | false, false, _ => rfl
  | true, true, _ => rfl
  | false, true, h => absurd h hne
  | true, false, h => absurd h.symm hne

section
variable {k : Nat} {n : List Node} {root : NodeIdx} (htree : FullTree k n root) (hsyms : (leafSyms n).Nodup)
include htree

/-- Every record is at the end of a path: its parent stands after it, so going up ends at the root. -/
theorem exists_follow_eq {j : Nat} (hj : j < n.length) : ∃ p, follow n root p = some n[j] := by
  have hroot := htree.root_last
  obtain hlast | hlt : j = root.toNat ∨ j < n.length - 1 := by omega
  · exact ⟨[], by rw [follow, ← hlast, List.getElem?_eq_getElem hj]⟩
  · have hpos : 0 < n.countP (isParentOf j) := by rw [htree.one_parent j hlt]; exact Nat.one_pos
    obtain ⟨y, hy, hparent⟩ := List.countP_pos_iff.1 hpos
    obtain ⟨i, hi, rfl⟩ := List.mem_iff_getElem.1 hy
    cases hx : n[i] with
    | leaf sym w => simp [hx, isParentOf] at hparent
    | internal l r w =>
      have hget := (List.getElem?_eq_getElem hi).trans (congrArg some hx)
      obtain ⟨hl, hr⟩ := htree.childrenBelow i l r w hget
      obtain ⟨b, hb⟩ : ∃ b : Bool, (if b then r else l).toNat = j := by
        simpa [hx, isParentOf] using hparent
      have hij : j < i := by
        subst hb
        cases b <;> assumption
      obtain ⟨p, hp⟩ := exists_follow_eq hi
      exact ⟨p ++ [b], follow_concat.2 ⟨l, r, w, hp.trans (congrArg some hx), by rw [hb, List.getElem?_eq_getElem hj]⟩⟩
termination_by n.length - j

/-- The symbols of the leaves are those a path leads to. -/
theorem mem_leafSyms_iff_leadsTo {b : Byte} : b ∈ leafSyms n ↔ ∃ p, LeadsTo n root p b := by
  rw [mem_leafSyms]
  constructor
  · rintro ⟨w, hw⟩
    obtain ⟨j, hj, hx⟩ := List.mem_iff_getElem.1 hw
    obtain ⟨p, hp⟩ := exists_follow_eq htree hj
    exact ⟨p, w, hp.trans (congrArg some hx)⟩
  · rintro ⟨p, w, hp⟩
    exact ⟨w, mem_of_follow hp⟩

include hsyms

/-- The record after a step from a record of the tree is not the root. -/
theorem follow_concat_ne_root {p : Code} {b : Bit} {x : Node} (hp : follow n root (p ++ [b]) = some x) :
    n[root.toNat]? ≠ some x := by
  intro hx
  obtain ⟨l, r, w, hparent, hchild⟩ := follow_concat.1 hp
  obtain ⟨i, hi⟩ := List.mem_iff_getElem?.1 (mem_of_follow hparent)
  have hlt := (htree.child_has_one_parent hi b).1
  have := htree.index_unique hsyms hchild hx
  omega

/-- Two paths from the root to the same record are the same: they come from its one parent, by the same side. -/
theorem path_unique {p q : Code} {x : Node} (hp : follow n root p = some x) (hq : follow n root q = some x) : p = q := by
  induction p using List.reverseRecOn generalizing q x with
  | nil =>
    cases q using List.reverseRecOn with
    | nil => rfl
    | append_singleton q b => exact absurd hp (follow_concat_ne_root htree hsyms hq)
  | append_singleton p b ih =>
    cases q using List.reverseRecOn with
    | nil => exact absurd hq (follow_concat_ne_root htree hsyms hp)
    | append_singleton q c =>
      obtain ⟨l, r, w, hp, hx⟩ := follow_concat.1 hp
      obtain ⟨l', r', w', hq, hx'⟩ := follow_concat.1 hq
      obtain ⟨i, hi⟩ := List.mem_iff_getElem?.1 (mem_of_follow hp)
      obtain ⟨j, hj⟩ := List.mem_iff_getElem?.1 (mem_of_follow hq)
      obtain ⟨-, hone, hparent⟩ := htree.child_has_one_parent hi b
      obtain ⟨-, -, hparent'⟩ := htree.child_has_one_parent hj c
      have hchild := htree.index_unique hsyms hx hx'
      rw [← hchild] at hparent'
      obtain rfl := index_eq_of_countP_le_one hone hi hparent hj hparent'
      cases hi.symm.trans hj
      obtain ⟨-, -, -, hne, -⟩ := (nodeOk_internal_iff hi).1 (htree.nodes i (List.getElem?_eq_some_iff.1 hi).1)
      rw [ih hp hq, side_eq_of_child_eq hne (BitVec.eq_of_toNat_eq hchild)]

/-- A symbol has one path (R160). -/
theorem leadsTo_unique {p q : Code} {b : Byte} (hp : LeadsTo n root p b) (hq : LeadsTo n root q b) : p = q := by
  obtain ⟨v, hp⟩ := hp
  obtain ⟨w, hq⟩ := hq
  obtain ⟨i, hi⟩ := List.mem_iff_getElem?.1 (mem_of_follow hp)
  obtain ⟨j, hj⟩ := List.mem_iff_getElem?.1 (mem_of_follow hq)
  obtain rfl := leaf_index_unique hsyms hi hj
  cases hi.symm.trans hj
  exact path_unique htree hsyms hp hq

end

/-! ### The ends of `WALK` on a tree -/

theorem exec_walk_of_leaf_root {s : State} {sym : Byte} {w : Weight} (h : s.node[s.root.toNat]? = some (.leaf sym w)) :
    exec .walk s = .next { s with ct := setCode noCodes sym [false] } := by
  have hne : s.node ≠ [] := List.ne_nil_of_mem (List.mem_of_getElem? h)
  exact congrArg outcome (by rw [runWalk, if_neg hne, h] : runWalk s = .done _)

theorem exec_walk_of_internal_root {s : State} {l r : NodeIdx} {w : Weight} {c : CodeTable}
    (h : s.node[s.root.toNat]? = some (.internal l r w)) (hc : visit s.node s.node.length s.root [] noCodes = .ok c) :
    exec .walk s = .next { s with ct := c } := by
  have hne : s.node ≠ [] := List.ne_nil_of_mem (List.mem_of_getElem? h)
  exact congrArg outcome (by simp only [runWalk, if_neg hne, h, hc] : runWalk s = .done _)

/-- The walk of a tree leaves exactly the paths from its root. -/
theorem codeOf_visit_iff {k : Nat} {n : List Node} {root : NodeIdx} {c : CodeTable} (htree : FullTree k n root)
    (hsyms : (leafSyms n).Nodup) (hc : visit n n.length root [] noCodes = .ok c) (b : Byte) (p : Code) :
    codeOf c b = some p ↔ LeadsTo n root p b := by
  have hsound : ∀ q, codeOf c b = some q → LeadsTo n root q b := by
    intro q hq
    obtain hnone | ⟨q, w, rfl, hpath⟩ := visit_sound n _ root [] noCodes c hc b q hq
    · simp at hnone
    · exact ⟨w, hpath⟩
  refine ⟨hsound p, fun hp => ?_⟩
  obtain ⟨w, hw⟩ := hp
  obtain ⟨q, hq⟩ := Option.isSome_iff_exists.1 (visit_complete n _ root [] noCodes c hc p b w hw)
  rw [hq, leadsTo_unique htree hsyms ⟨w, hw⟩ (hsound q hq)]

/-- The tree of a state that meets the invariant. -/
theorem fullTree_of_inv {s : State} (h : Inv s) (hne : s.node ≠ []) : ∃ k, FullTree k s.node s.root :=
  ((treeOk_iff _ _).1 h.tree).resolve_left fun hnil => hne hnil.1

/-- `WALK` of a tree completes: with the one code under a leaf root (R162), with the paths from an internal root (R160). -/
theorem exec_walk_of_inv {s : State} (hinv : Inv s) (hne : s.node ≠ []) :
    ∃ c, exec .walk s = .next { s with ct := c } ∧
      ((∃ sym w, s.node[s.root.toNat]? = some (.leaf sym w) ∧ c = setCode noCodes sym [false]) ∨
        (∃ l r w, s.node[s.root.toNat]? = some (.internal l r w)) ∧
          ∀ b p, codeOf c b = some p ↔ LeadsTo s.node s.root p b) := by
  obtain ⟨k, htree⟩ := fullTree_of_inv hinv hne
  obtain ⟨hlt, hbelow⟩ := treeOk_nonempty hinv.tree hne
  have hroot := List.getElem?_eq_getElem hlt
  cases hx : s.node[s.root.toNat] with
  | leaf sym w =>
    rw [hx] at hroot
    exact ⟨_, exec_walk_of_leaf_root hroot, .inl ⟨sym, w, hroot, rfl⟩⟩
  | internal l r w =>
    rw [hx] at hroot
    obtain ⟨c, hc⟩ := visit_ok s.node hbelow s.node.length s.root [] noCodes hlt hlt
    exact ⟨c, exec_walk_of_internal_root hroot hc,
      .inr ⟨⟨l, r, w, hroot⟩, codeOf_visit_iff htree hinv.leaves hc⟩⟩

/-- Settles O34: the clauses are the two ends of `WALK` on a tree. -/
theorem walkGivesThePathsFromTheRoot : Obligations.WalkGivesThePathsFromTheRoot := by
  refine ⟨decode_encode .walk, fun s hinv hne => ?_⟩
  obtain ⟨c, hc, ⟨sym, w, hroot, rfl⟩ | ⟨⟨l, r, w, hroot⟩, hcodes⟩⟩ := exec_walk_of_inv hinv hne
  · refine ⟨_, hc, fun hleaf => by simp [isLeafAt, hroot] at hleaf, fun sym' w' h b => ?_⟩
    cases hroot.symm.trans h
    simp only [codeOf_setCode, codeOf_noCodes, eq_comm]
  · exact ⟨c, hc, fun _ => hcodes, fun sym w h => by simp [hroot] at h⟩

/-- A code under a leaf root is that of the root's symbol. -/
theorem codeOf_single_eq_some {sym b : Byte} {p q : Code} :
    codeOf (setCode noCodes sym q) b = some p ↔ b = sym ∧ p = q := by
  rw [codeOf_setCode, codeOf_noCodes]
  split_ifs with h <;> simp [h, eq_comm]

/-- Settles O35: a path cannot go on from the leaf where another ends, and no leaf is at the end of two paths. -/
theorem walkedCodesArePrefixFree : Obligations.WalkedCodesArePrefixFree := by
  intro s t hinv hne h a b p q hab hp hq hprefix
  obtain ⟨c, hc, ⟨sym, w, hroot, rfl⟩ | ⟨-, hcodes⟩⟩ := exec_walk_of_inv hinv hne
  all_goals cases hc.symm.trans h
  · exact hab ((codeOf_single_eq_some.1 hp).1.trans (codeOf_single_eq_some.1 hq).1.symm)
  · obtain ⟨v, hp⟩ := (hcodes a p).1 hp
    obtain ⟨w, hq⟩ := (hcodes b q).1 hq
    obtain ⟨rest, rfl⟩ := hprefix
    cases rest with
    | nil =>
      rw [List.append_nil, hp] at hq
      cases hq
      exact hab rfl
    | cons d rest =>
      rw [follow_leaf_append _ _ p _ a v hp (List.cons_ne_nil d rest)] at hq
      cases hq

/-! ### The number of codes -/

/-- The symbols in the order of the code table. -/
def tableSyms : List Byte := (List.finRange 256).map BitVec.ofFin

theorem mem_tableSyms (b : Byte) : b ∈ tableSyms :=
  List.mem_map.2 ⟨b.toFin, List.mem_finRange _, rfl⟩

theorem nodup_tableSyms : tableSyms.Nodup :=
  (List.nodup_finRange 256).map fun _ _ h => congrArg BitVec.toFin h

theorem toList_codeTable (c : CodeTable) : c.toList = tableSyms.map (codeOf c) := by
  apply List.ext_getElem
  · simp [tableSyms]
  · intro i _ _
    rw [List.getElem_map, codeOf_eq_getElem _ _ (BitVec.isLt _)]
    simp [tableSyms]

/-- The codes of a table are those of its symbols with codes. -/
theorem codes_perm {c : CodeTable} {l : List Byte} (hl : l.Nodup) (hmem : ∀ b, b ∈ l ↔ (codeOf c b).isSome = true) :
    (c.toList.filter Option.isSome).Perm (l.map (codeOf c)) := by
  rw [toList_codeTable, List.filter_map]
  refine List.Perm.map _ ((List.perm_ext_iff_of_nodup (nodup_tableSyms.filter _) hl).2 fun b => ?_)
  rw [List.mem_filter, hmem, and_iff_right (mem_tableSyms b), Function.comp]

/-- A sum in which an absent code counts 0 is a sum over the codes. -/
theorem sum_map_filter_isSome {α : Type} (g : Option α → Nat) (hg : g none = 0) (l : List (Option α)) :
    (l.map g).sum = ((l.filter Option.isSome).map g).sum := by
  induction l with
  | nil => rfl
  | cons a l ih => cases a <;> simp [ih, hg]

/-! ### The Kraft sum -/

/-- The leaves below an index, each with its symbol and the path to it, to a depth bound. -/
def leafPaths (n : List Node) : Nat → NodeIdx → List (Byte × Code)
  | 0, _ => []
  | k + 1, i =>
    match n[i.toNat]? with
    | none => []
    | some (.leaf sym _) => [(sym, [])]
    | some (.internal l r _) =>
      (leafPaths n k l).map (Prod.map id (List.cons false)) ++ (leafPaths n k r).map (Prod.map id (List.cons true))

theorem nodup_leafPaths (n : List Node) (k : Nat) (i : NodeIdx) : (leafPaths n k i).Nodup := by
  induction k generalizing i with
  | zero => exact List.nodup_nil
  | succ k ih =>
    have hcons : ∀ b, Function.Injective (Prod.map id (List.cons b) : Byte × Code → Byte × Code) := fun b =>
      Function.injective_id.prodMap List.cons_injective
    rw [leafPaths]
    split
    · exact List.nodup_nil
    · exact List.nodup_singleton _
    · refine ((ih _).map (hcons _)).append ((ih _).map (hcons _)) (List.disjoint_left.2 fun x hl hr => ?_)
      obtain ⟨y, -, hy⟩ := List.mem_map.1 hl
      obtain ⟨z, -, hz⟩ := List.mem_map.1 hr
      simpa using congrArg Prod.snd (hy.trans hz.symm)

theorem mem_leafPaths {n : List Node} (hn : ChildrenBelow n) {k : Nat} {i : NodeIdx} (hi : i.toNat < k) {b : Byte}
    {p : Code} : (b, p) ∈ leafPaths n k i ↔ LeadsTo n i p b := by
  induction k generalizing i p with
  | zero => omega
  | succ k ih =>
    rw [leafPaths, LeadsTo]
    cases hx : n[i.toNat]? with
    | none => cases p <;> simp [follow, hx]
    | some x =>
      cases x with
      | leaf sym w => cases p <;> simp [follow, hx, eq_comm]
      | internal l r w =>
        obtain ⟨hl, hr⟩ := hn _ l r w hx
        cases p with
        | nil => simp [follow, hx]
        | cons c p =>
          have ihl := ih (i := l) (p := p) (by omega)
          have ihr := ih (i := r) (p := p) (by omega)
          rw [LeadsTo] at ihl ihr
          cases c <;> simp [follow, hx, ihl, ihr]

/-- The Kraft sum of a list of codes, scaled by `2 ^ m`. -/
def kraft (m : Nat) (l : List (Byte × Code)) : Nat := (l.map fun x => 2 ^ (m - x.2.length)).sum

@[simp] theorem kraft_append (m : Nat) (l l' : List (Byte × Code)) : kraft m (l ++ l') = kraft m l + kraft m l' := by
  simp [kraft]

/-- A bit in front of every code halves the sum. -/
@[simp] theorem kraft_map_cons (m : Nat) (b : Bit) (l : List (Byte × Code)) :
    kraft (m + 1) (l.map (Prod.map id (List.cons b))) = kraft m l := by
  simp [kraft, Function.comp_def]

/-- The paths below a node fill it. The bound on the index is one on the depth: the records before `k` are leaves. -/
theorem kraft_leafPaths {n : List Node} {k : Nat} (hn : ∀ i < n.length, nodeOk n k i = true) {depth : Nat} {i : NodeIdx}
    (hi : i.toNat < n.length) (hdepth : i.toNat < depth) {m : Nat} (hm : i.toNat < m + k) :
    kraft m (leafPaths n depth i) = 2 ^ m := by
  induction depth generalizing i m with
  | zero => omega
  | succ depth ih =>
    have hget := List.getElem?_eq_getElem hi
    rw [leafPaths]
    cases hx : n[i.toNat] with
    | leaf sym w => simp [hget, hx, kraft]
    | internal l r w =>
      rw [hx] at hget
      obtain ⟨hk, hl, hr, -⟩ := (nodeOk_internal_iff hget).1 (hn _ hi)
      obtain ⟨m, rfl⟩ := Nat.exists_eq_succ_of_ne_zero (show m ≠ 0 by omega)
      have ihl := ih (hl.trans hi) (by omega) (m := m) (by omega)
      have ihr := ih (hr.trans hi) (by omega) (m := m) (by omega)
      rw [hget, Nat.succ_eq_add_one, kraft_append, kraft_map_cons, kraft_map_cons, ihl, ihr, pow_succ, mul_two]

/-- The symbols of the paths below the root are those of the leaves. -/
theorem leafPaths_syms_perm {k : Nat} {n : List Node} {root : NodeIdx} (htree : FullTree k n root)
    (hsyms : (leafSyms n).Nodup) : ((leafPaths n n.length root).map Prod.fst).Perm (leafSyms n) := by
  have hroot := htree.root_last
  have hpath : ∀ b p, (b, p) ∈ leafPaths n n.length root ↔ LeadsTo n root p b := fun b p =>
    mem_leafPaths htree.childrenBelow (by omega)
  refine (List.perm_ext_iff_of_nodup ((nodup_leafPaths n _ root).map_on ?_) hsyms).2 fun b => ?_
  · rintro ⟨b, p⟩ hp ⟨_, q⟩ hq rfl
    rw [leadsTo_unique htree hsyms ((hpath b p).1 hp) ((hpath b q).1 hq)]
  · simp [mem_leafSyms_iff_leadsTo htree, hpath]

/-- A symbol has a code exactly where it is a leaf's. -/
theorem mem_leafSyms_iff_codeOf_isSome {k : Nat} {n : List Node} {root : NodeIdx} (htree : FullTree k n root)
    {c : CodeTable} (hcodes : ∀ b p, codeOf c b = some p ↔ LeadsTo n root p b) (b : Byte) :
    b ∈ leafSyms n ↔ (codeOf c b).isSome = true := by
  simp [mem_leafSyms_iff_leadsTo htree, Option.isSome_iff_exists, hcodes]

/-- A sum over the codes that are paths from the root is one over the paths of the leaves. -/
theorem sum_codes_eq_sum_leafPaths {k : Nat} {n : List Node} {root : NodeIdx} (htree : FullTree k n root)
    (hsyms : (leafSyms n).Nodup) {c : CodeTable} (hcodes : ∀ b p, codeOf c b = some p ↔ LeadsTo n root p b)
    (g : Option Code → Nat) (hg : g none = 0) :
    (c.toList.map g).sum = ((leafPaths n n.length root).map fun x => g (some x.2)).sum := by
  have hroot := htree.root_last
  have hcode : ∀ x ∈ leafPaths n n.length root, codeOf c x.1 = some x.2 := fun x hx =>
    (hcodes x.1 x.2).2 ((mem_leafPaths htree.childrenBelow (by omega)).1 hx)
  have hperm := codes_perm hsyms (mem_leafSyms_iff_codeOf_isSome htree hcodes)
  calc (c.toList.map g).sum
      = ((c.toList.filter Option.isSome).map g).sum := sum_map_filter_isSome g hg _
    _ = (((leafSyms n).map (codeOf c)).map g).sum := (hperm.map g).sum_eq
    _ = ((((leafPaths n n.length root).map Prod.fst).map (codeOf c)).map g).sum :=
        ((((leafPaths_syms_perm htree hsyms).map _).map g).sum_eq).symm
    _ = ((leafPaths n n.length root).map fun x => g (some x.2)).sum := by
        rw [List.map_map, List.map_map]
        exact congrArg List.sum (List.map_congr_left fun x hx => congrArg g (hcode x hx))

/-- Under a leaf root the root is the one leaf. -/
theorem leafSyms_of_leaf_root {k : Nat} {n : List Node} {root : NodeIdx} (htree : FullTree k n root) {sym : Byte}
    {w : Weight} (hroot : n[root.toNat]? = some (.leaf sym w)) : leafSyms n = [sym] := by
  have hlt := (nodeOk_leaf_iff hroot).1 (htree.nodes _ (List.getElem?_eq_some_iff.1 hroot).1)
  have hpos := htree.leaves_pos
  have hsize := htree.size
  have hlast := htree.root_last
  obtain ⟨b, hb⟩ := List.length_eq_one_iff.1 (htree.length_leafSyms.trans (show k = 1 by omega))
  have hmem : sym ∈ leafSyms n := mem_leafSyms.2 ⟨w, List.mem_of_getElem? hroot⟩
  rw [hb, List.mem_singleton] at hmem
  rw [hb, hmem]

/-- A path to a leaf from an internal root has at least one step, and at most one for each internal record. -/
theorem length_bounds_of_leadsTo {k : Nat} {n : List Node} {root l r : NodeIdx} {v : Weight} (htree : FullTree k n root)
    (hroot : n[root.toNat]? = some (.internal l r v)) {p : Code} {b : Byte} (hp : LeadsTo n root p b) :
    1 ≤ p.length ∧ p.length ≤ k - 1 := by
  obtain ⟨w, hp⟩ := hp
  have hne : p ≠ [] := by
    rintro rfl
    rw [follow, hroot] at hp
    cases hp
  have hlen := (length_path_le htree.nodes p hp).resolve_left hne
  have hsize := htree.size
  have hlast := htree.root_last
  exact ⟨List.length_pos_iff.2 hne, by omega⟩

/-- Settles O36: under an internal root the codes are the paths of the leaves; under a leaf root there is one code. -/
theorem walkedCodesFillTheTree : Obligations.WalkedCodesFillTheTree := by
  intro s t hinv hne h
  obtain ⟨k, htree⟩ := fullTree_of_inv hinv hne
  have hsyms := hinv.leaves
  have hcount : ∀ c : CodeTable, (∀ b, b ∈ leafSyms s.node ↔ (codeOf c b).isSome = true) →
      c.toList.countP (fun x => x.isSome) = (leafSyms s.node).length := fun c hmem => by
    rw [List.countP_eq_length_filter, (codes_perm hsyms hmem).length_eq, List.length_map]
  obtain ⟨c, hc, ⟨sym, w, hroot, rfl⟩ | ⟨⟨l, r, w, hroot⟩, hcodes⟩⟩ := exec_walk_of_inv hinv hne
  all_goals cases hc.symm.trans h
  · have hone := leafSyms_of_leaf_root htree hroot
    refine ⟨hcount _ fun b => ?_, fun b p hp => ?_, fun htwo => ?_⟩
    · simp [hone, Option.isSome_iff_exists, codeOf_single_eq_some]
    · simp [(codeOf_single_eq_some.1 hp).2]
    · simp [hone] at htwo
  · rw [hcount c (mem_leafSyms_iff_codeOf_isSome htree hcodes)]
    have hk := htree.length_leafSyms
    have hsize := htree.size
    have hlast := htree.root_last
    have hle := htree.leaves_le
    refine ⟨rfl, fun b p hp => ?_, fun _ => ?_⟩
    · have := length_bounds_of_leadsTo htree hroot ((hcodes b p).1 hp)
      omega
    · rw [sum_codes_eq_sum_leafPaths htree hsyms hcodes _ rfl]
      exact kraft_leafPaths htree.nodes (by omega) (by omega) (by omega)

end Sys2Proof.Machine
end

section
/-! PROOFS. The HeaderCodec (spec/44_header_codec.md R172 to R178): where the bytes of a header stand, the ends of `HDR_ENC` and
`HDR_DEC`, and the round trip. -/

namespace Sys2Proof.Machine

/-! ### The bytes of a header -/

/-- The three bytes of entry `i` stand in order from `3i` on. -/
theorem getElem?_flatMap_entryBytes {t : List FreqEntry} {i : Nat} {e : FreqEntry} (h : t[i]? = some e) {k : Nat}
    (hk : k < 3) : (t.flatMap entryBytes)[3 * i + k]? = (entryBytes e)[k]? := by
  induction t generalizing i with
  | nil => simp at h
  | cons x t ih =>
    rw [List.flatMap_cons]
    cases i with
    | zero =>
      obtain rfl := Option.some.inj h
      rw [Nat.mul_zero, Nat.zero_add, List.getElem?_append_left hk]
    | succ i =>
      rw [List.getElem?_append_right (by rw [length_entryBytes]; omega), ← ih h, length_entryBytes]
      congr 1
      omega

/-- The bytes after the two fixed ones. -/
theorem getElem?_cons_cons_add (n r : Byte) (body : List Byte) (k i : Nat) :
    (n :: r :: body)[k + 2 + 3 * i]? = body[3 * i + k]? := by
  rw [show k + 2 + 3 * i = 3 * i + k + 1 + 1 by omega, List.getElem?_cons_succ, List.getElem?_cons_succ]

/-- A header's bytes, whatever follows it (spec/30_encoding.md R94 to R96). -/
theorem getElem?_headerBytes_append {t : List FreqEntry} {i : Nat} {e : FreqEntry} (h : t[i]? = some e) (rem : BitVec 3)
    (p : List Byte) :
    (headerBytes t rem ++ p)[2 + 3 * i]? = some e.sym ∧ (headerBytes t rem ++ p)[3 + 3 * i]? = some (countLo e.cnt) ∧
      (headerBytes t rem ++ p)[4 + 3 * i]? = some (countHi e.cnt) := by
  have hi := (List.getElem?_eq_some_iff.1 h).1
  have hbyte (k : Nat) (hk : k < 3) : (headerBytes t rem ++ p)[k + 2 + 3 * i]? = (entryBytes e)[k]? := by
    rw [List.getElem?_append_left (by rw [length_headerBytes]; omega), headerBytes, getElem?_cons_cons_add,
      getElem?_flatMap_entryBytes h hk]
  exact ⟨hbyte 0 (by decide), hbyte 1 (by decide), hbyte 2 (by decide)⟩

/-- The first byte of a header is its number of entries: a table has at most 255 (spec/10_state.md R35 (a)). -/
theorem toNat_ofNat_length {t : List FreqEntry} (h : t.length ≤ 255) : (BitVec.ofNat 8 t.length).toNat = t.length := by
  rw [BitVec.toNat_ofNat, Nat.mod_eq_of_lt (by omega)]

/-! ### The ends of `HDR_ENC` -/

/-- The end of R173. -/
theorem exec_hdrEnc_of_nil {s : State} (h : s.ft = []) : exec .hdrEnc s = .next { s with hdr := [], err := 1#3 } :=
  congrArg outcome (if_pos h : runHdrEnc s = _)

theorem exec_hdrEnc_of_ne_nil {s : State} (h : s.ft ≠ []) :
    exec .hdrEnc s = .next { s with hdr := headerBytes s.ft s.rem } :=
  congrArg outcome (if_neg h : runHdrEnc s = _)

/-- Settles O41: the bytes are those of the header of the table. -/
theorem hdrEncWritesTheLayout : Obligations.HdrEncWritesTheLayout := by
  refine ⟨decode_encode .hdrEnc, fun s => ⟨exec_hdrEnc_of_nil, fun hne hle => ?_⟩⟩
  refine ⟨_, exec_hdrEnc_of_ne_nil hne, length_headerBytes _ _, congrArg some (toNat_ofNat_length hle),
    congrArg some (BitVec.toNat_setWidth_of_le (by decide)), fun i e he => ?_⟩
  obtain ⟨hsym, hlo, hhi⟩ := getElem?_headerBytes_append he s.rem []
  rw [List.append_nil] at hsym hlo hhi
  exact ⟨hsym, by rw [hlo, Option.map_some, countLo_toNat], by rw [hhi, Option.map_some, countHi_toNat]⟩

/-! ### The five tests of `HDR_DEC` -/

/-- The blob `n :: r :: body` passes the tests of R176 (b) to (e), on the entries that the model parses. -/
structure HeaderGood (n r : Byte) (body : List Byte) : Prop where
  nonempty : n.toNat ≠ 0
  long : 3 * n.toNat ≤ body.length
  padding : r.toNat ≤ 7
  distinct : ((parseEntries n.toNat body).map fun e => e.sym).Nodup

/-- The symbol of entry `i` is byte `3i` of the body (R175). -/
theorem getElem?_syms_parseEntries {n i : Nat} {body : List Byte} (hlen : 3 * n ≤ body.length) (hi : i < n) :
    ((parseEntries n body).map fun e => e.sym)[i]? = body[3 * i]? := by
  obtain ⟨x, lo, hi', hx, -, -, he⟩ := parseEntries_getElem? n body hlen i hi
  rw [List.getElem?_map, he, hx, Option.map_some]

/-- The parsed symbols are distinct exactly if no two of the blob's symbol bytes are equal (R176 (e)). -/
theorem nodup_syms_parseEntries_iff {n : Nat} {body : List Byte} (hlen : 3 * n ≤ body.length) :
    ((parseEntries n body).map fun e => e.sym).Nodup ↔ ∀ i j, i < j → j < n → body[3 * i]? ≠ body[3 * j]? := by
  rw [List.nodup_iff_getElem?_ne_getElem?, List.length_map, length_parseEntries n body hlen]
  refine forall₄_congr fun i j hij hj => ?_
  rw [getElem?_syms_parseEntries hlen (hij.trans hj), getElem?_syms_parseEntries hlen hj]

/-- The tests on the parsed entries are those on the blob's bytes. -/
theorem headerGood_iff {n r : Byte} {body : List Byte} : HeaderGood n r body ↔ ¬ HeaderBad (n :: r :: body) := by
  have hsym (i : Nat) : (n :: r :: body)[2 + 3 * i]? = body[3 * i]? := getElem?_cons_cons_add n r body 0 i
  have hbad : HeaderBad (n :: r :: body) ↔ n.toNat = 0 ∨ body.length < 3 * n.toNat ∨ r.toNat > 7 ∨
      ∃ i j, i < j ∧ j < n.toNat ∧ body[3 * i]? = body[3 * j]? := by
    have hshort : body.length + 1 + 1 < 2 + 3 * n.toNat ↔ body.length < 3 * n.toNat := by omega
    simp [HeaderBad, hsym, hshort]
  rw [hbad]
  push Not
  constructor
  · rintro ⟨hzero, hlen, hr, hsyms⟩
    exact ⟨hzero, hlen, hr, (nodup_syms_parseEntries_iff hlen).1 hsyms⟩
  · rintro ⟨hzero, hlen, hr, hsyms⟩
    exact ⟨hzero, hlen, hr, (nodup_syms_parseEntries_iff hlen).2 hsyms⟩

/-! ### The ends of `HDR_DEC` -/

/-- A good blob runs through: `t` is the parsed table and `p` the bytes after the header. -/
theorem runHdrDec_of_good {s : State} {n r : Byte} {body p : List Byte} {t : List FreqEntry}
    (hin : s.inBuf = n :: r :: body) (h : HeaderGood n r body) (ht : parseEntries n.toNat body = t)
    (hp : s.inBuf.drop (2 + 3 * n.toNat) = p) :
    runHdrDec s = commit .hdrDec (fits s.caps.payCap p.length) s
      { s with ft := t, rem := r.setWidth 3, poff := BitVec.ofNat 10 (2 + 3 * n.toNat), pay := p } := by
  subst ht hp
  obtain ⟨hzero, hlen, hr, hsyms⟩ := h
  have hshort : ¬ (n :: r :: body).length < 2 + 3 * n.toNat := by
    rw [List.length_cons, List.length_cons]
    omega
  have hdistinct : ¬ distinctSyms (parseEntries n.toNat body) = false := by
    rw [Bool.not_eq_false, distinctSyms_iff]
    exact hsyms
  rw [BitVec.setWidth_eq_extractLsb' (by decide)]
  simp only [runHdrDec, hin, if_neg hzero, if_neg hshort, if_neg (Nat.not_lt.2 hr), if_neg hdistinct, sliceFrom]

/-- A bad blob has no two fixed bytes or fails one of the four tests after them. -/
theorem runHdrDec_of_bad {s : State} (h : HeaderBad s.inBuf) :
    runHdrDec s = .raised (raise (dests .hdrDec) .format s) := by
  rw [runHdrDec]
  split
  · next n r body hin =>
    rw [hin] at h
    simp only [hin]
    split_ifs with hzero hshort hr hdistinct
    case neg =>
      have hlen : 3 * n.toNat ≤ body.length := by
        rw [List.length_cons, List.length_cons] at hshort
        omega
      have hsyms := (distinctSyms_iff (parseEntries n.toNat body)).1 (by simpa using hdistinct)
      exact absurd h (headerGood_iff.1 ⟨hzero, hlen, Nat.not_lt.1 hr, hsyms⟩)
    all_goals rfl
  · rfl

/-- The two ends of a command whose pseudocode ran through (R236), as the host sees them. -/
theorem outcome_commit_within (i : Instr) (cap : Cap) (n : Nat) (s t : State) :
    (Within cap n → outcome (commit i (fits cap n) s t) = .next t) ∧
    (¬ Within cap n → outcome (commit i (fits cap n) s t) = .next (raise (dests i) .capacity s)) := by
  rw [outcome_commit]
  exact ⟨fun h => by rw [if_pos ((fits_iff_within _ _).2 h)], fun h => by rw [if_neg (mt (fits_iff_within _ _).1 h)]⟩

/-- The parsed entries are the table of the blob's header (spec/30_encoding.md R96). -/
theorem headerTable_parseEntries {n r : Byte} {body : List Byte} (hlen : 3 * n.toNat ≤ body.length) :
    HeaderTable (n :: r :: body) n.toNat (parseEntries n.toNat body) := by
  refine ⟨length_parseEntries _ _ hlen, fun i hi => ?_⟩
  obtain ⟨x, lo, hi', hx, hlo, hhi, he⟩ := parseEntries_getElem? n.toNat body hlen i hi
  have hbyte (k : Nat) := getElem?_cons_cons_add n r body k i
  exact ⟨x, lo, hi', countOf lo hi', (hbyte 0).trans hx, (hbyte 1).trans hlo, (hbyte 2).trans hhi, countOf_toNat lo hi',
    he⟩

/-- The two ends of `HDR_DEC` on a good blob: the payload fits or it does not. -/
theorem exec_hdrDec_of_good {s : State} {n r : Byte} {body p : List Byte} {t : List FreqEntry}
    (hin : s.inBuf = n :: r :: body) (h : HeaderGood n r body) (ht : parseEntries n.toNat body = t)
    (hp : s.inBuf.drop (2 + 3 * n.toNat) = p) :
    (Within s.caps.payCap p.length → exec .hdrDec s = .next
      { s with ft := t, rem := r.setWidth 3, poff := BitVec.ofNat 10 (2 + 3 * n.toNat), pay := p }) ∧
    (¬ Within s.caps.payCap p.length → exec .hdrDec s = .next (raise (dests .hdrDec) .capacity s)) := by
  rw [exec, execHdrDec, runHdrDec_of_good hin h ht hp]
  exact outcome_commit_within _ _ _ _ _

/-- Settles O42: a blob that passes the tests has its table in the parsed entries. -/
theorem hdrDecReadsTheLayout : Obligations.HdrDecReadsTheLayout := by
  refine ⟨decode_encode .hdrDec, fun s n r hgood hn hr => ?_⟩
  obtain ⟨body, hin⟩ : ∃ body, s.inBuf = n :: r :: body := by
    match s.inBuf, hn, hr with
    | _ :: _ :: body, rfl, rfl => exact ⟨body, rfl⟩
  have h : HeaderGood n r body := headerGood_iff.2 (hin ▸ hgood)
  refine ⟨parseEntries n.toNat body, hin ▸ headerTable_parseEntries h.long, ?_⟩
  rw [← List.length_drop]
  exact exec_hdrDec_of_good hin h rfl rfl

/-- Settles O43: the raise of a bad blob clears the four destinations. -/
theorem hdrDecRejectsBadHeaders : Obligations.HdrDecRejectsBadHeaders := fun _ h =>
  congrArg outcome (runHdrDec_of_bad h)

/-! ### The round trip -/

/-- A header followed by any bytes passes the tests. -/
theorem headerGood_of_table {t : List FreqEntry} (ht : TableOk t) (hne : t ≠ []) (rem : BitVec 3) (p : List Byte) :
    HeaderGood (BitVec.ofNat 8 t.length) (rem.setWidth 8) (t.flatMap entryBytes ++ p) := by
  obtain ⟨hle, hsyms⟩ := ht
  have hn := toNat_ofNat_length hle
  constructor
  case nonempty => rwa [hn, ne_eq, List.length_eq_zero_iff]
  case long =>
    rw [hn, List.length_append, length_flatMap_entryBytes]
    exact Nat.le_add_right _ _
  case padding =>
    rw [BitVec.toNat_setWidth_of_le (by decide)]
    exact Nat.le_of_lt_succ rem.isLt
  case distinct => rwa [hn, parseEntries_flatMap]

/-- Settles O44: parsing reverses writing, and the payload begins where the header ends. -/
theorem headerRoundTrip : Obligations.HeaderRoundTrip := by
  refine fun s ht hne => ⟨_, exec_hdrEnc_of_ne_nil hne, fun u p (hin : u.inBuf = headerBytes s.ft s.rem ++ p) hw => ?_⟩
  have hn := toNat_ofNat_length ht.1
  have htable : parseEntries (BitVec.ofNat 8 s.ft.length).toNat (s.ft.flatMap entryBytes ++ p) = s.ft := by
    rw [hn, parseEntries_flatMap]
  have hlen : (headerBytes s.ft s.rem).length = 2 + 3 * (BitVec.ofNat 8 s.ft.length).toNat := by
    rw [hn, length_headerBytes]
  have hpay : u.inBuf.drop (2 + 3 * (BitVec.ofNat 8 s.ft.length).toNat) = p := by rw [hin, ← hlen, List.drop_left]
  have hrem : (s.rem.setWidth 8).setWidth 3 = s.rem := by simp
  rw [(exec_hdrDec_of_good hin (headerGood_of_table ht hne s.rem p) htable hpay).1 hw, hrem, ← hlen]

end Sys2Proof.Machine
end

section
/-! PROOFS. What a successful `ENCODE` leaves (spec/46_encoder.md R200 to R202): its units completed one after the other, since the
first raise ends it with `ERR` set; and the header of its blob (spec/44_header_codec.md R179). -/

namespace Sys2Proof.Machine

/-! ### Runs that complete -/

/-- Where the run completes, the state it leaves satisfies `P`; where it raises, `ERR` is set (spec/60_exceptions.md R231). -/
def Result.SucceedsWith (P : State → Prop) : Result → Prop
  | .done t => P t
  | .raised t => t.err ≠ 0#3
  | .stopped _ => True

theorem succeedsWith_raise (P : State → Prop) (es : List Elem) (e : Exc) (s : State) :
    (Result.raised (raise es e s)).SucceedsWith P := errCode_ne_zero e

theorem succeedsWith_commit {P : State → Prop} {i : Instr} {fit : Bool} {s t : State} (ht : P t) :
    (commit i fit s t).SucceedsWith P := by
  obtain ⟨-, h⟩ | ⟨-, h⟩ := commit_cases i fit s t <;> rw [h]
  · exact ht
  · exact succeedsWith_raise P _ _ s

/-- The rule for one unit after another. -/
theorem Result.SucceedsWith.chain {P Q : State → Prop} {r : Result} {f : State → Result} (hr : r.SucceedsWith P)
    (hf : ∀ t, P t → (f t).SucceedsWith Q) : (andThen r f).SucceedsWith Q := by
  cases r with
  | done t => exact hf t hr
  | raised t => exact hr
  | stopped x => trivial

theorem Result.SucceedsWith.mono {P Q : State → Prop} {r : Result} (hr : r.SucceedsWith P) (h : ∀ t, P t → Q t) :
    r.SucceedsWith Q := by
  cases r with
  | done t => exact h t hr
  | raised t => exact hr
  | stopped x => trivial

/-- A chain of units can be run from its first unit on. -/
theorem andThen_assoc (r : Result) (f g : State → Result) :
    andThen (andThen r f) g = andThen r fun s => andThen (f s) g := by
  cases r <;> rfl

/-- What a run that succeeds leaves holds of a next state without `ERR`. -/
theorem Result.SucceedsWith.of_outcome {P : State → Prop} {r : Result} {t : State} (hr : r.SucceedsWith P)
    (h : outcome r = .next t) (herr : t.err = 0#3) : P t := by
  obtain rfl | rfl := (outcome_next_iff r t).1 h
  · exact hr
  · exact absurd herr hr

/-! ### The units of `ENCODE` -/

theorem runCount_succeedsWith (s : State) :
    (runCount s).SucceedsWith fun t => ValidInput s.inBuf ∧ t = { s with ft := frequencies s.inBuf } := by
  simp only [runCount]
  split_ifs with hne hlen hany
  case neg =>
    refine ⟨⟨hne, by simpa [Config.nMax] using hlen, ?_⟩, by rw [map_scan_eq_frequencies]⟩
    simpa using (any_scan_gt_cntMax_iff s.inBuf).not.1 hany
  all_goals exact succeedsWith_raise _ _ _ s

theorem runBuild_succeedsWith (s : State) :
    (runBuild s).SucceedsWith fun t =>
      s.ft ≠ [] ∧ t = { s with node := (buildTree s.ft).1, root := (buildTree s.ft).2 } := by
  rw [runBuild]
  split_ifs with hft
  · exact succeedsWith_raise _ _ _ s
  · exact ⟨hft, rfl⟩

theorem runWalk_succeedsWith (s : State) : (runWalk s).SucceedsWith fun t => ∃ c, t = { s with ct := c } := by
  rw [runWalk]
  split_ifs
  · exact succeedsWith_raise _ _ _ s
  · cases s.node[s.root.toNat]? with
    | none => trivial
    | some x =>
      cases x with
      | leaf sym w => exact ⟨_, rfl⟩
      | internal l r w =>
        cases visit s.node s.node.length s.root [] noCodes with
        | error x => trivial
        | ok c => exact ⟨c, rfl⟩

theorem runXlate_succeedsWith (s : State) :
    (runXlate s).SucceedsWith fun t => ∃ b, translate s.ct s.inBuf = some b ∧ t = { s with bits := b } := by
  rw [runXlate]
  cases translate s.ct s.inBuf with
  | none => exact succeedsWith_raise _ _ _ s
  | some b => exact succeedsWith_commit ⟨b, rfl, rfl⟩

theorem runPack_succeedsWith (s : State) :
    (runPack s).SucceedsWith fun t =>
      t = { s with pay := groupBytes (padded s.bits), rem := BitVec.ofNat 3 (padCount s.bits.length) } :=
  succeedsWith_commit rfl

theorem runHdrEnc_succeedsWith (s : State) :
    (runHdrEnc s).SucceedsWith fun t => t = { s with hdr := headerBytes s.ft s.rem } := by
  rw [runHdrEnc]
  split_ifs
  · exact succeedsWith_raise _ _ _ s
  · exact rfl

theorem runBlob_succeedsWith (s : State) : (runBlob s).SucceedsWith fun t => t = { s with out := s.hdr ++ s.pay } := by
  rw [runBlob]
  split_ifs
  · exact succeedsWith_raise _ _ _ s
  · exact succeedsWith_commit rfl

/-! ### The header of an encoded blob -/

/-- What `ENCODE` leaves of an input where no unit raises (R200): the results of its units, each from those before. -/
structure Encoded (input : List Byte) (t : State) : Prop where
  valid : ValidInput input
  ft : t.ft = frequencies input
  bits : translate t.ct input = some t.bits
  pay : t.pay = groupBytes (padded t.bits)
  rem : t.rem = BitVec.ofNat 3 (padCount t.bits.length)
  hdr : t.hdr = headerBytes t.ft t.rem
  out : t.out = t.hdr ++ t.pay

/-- No raise of a unit is undone, and each completed unit leaves what the ones before it wrote. -/
theorem runEncode_succeedsWith (s : State) : (runEncode s).SucceedsWith (Encoded s.inBuf) := by
  simp only [runEncode, andThen_assoc]
  refine (runCount_succeedsWith _).chain ?_
  rintro _ ⟨hvalid, rfl⟩
  refine (runBuild_succeedsWith _).chain ?_
  rintro _ ⟨-, rfl⟩
  refine (runWalk_succeedsWith _).chain ?_
  rintro _ ⟨c, rfl⟩
  refine (runXlate_succeedsWith _).chain ?_
  rintro _ ⟨b, hb, rfl⟩
  refine (runPack_succeedsWith _).chain ?_
  rintro _ rfl
  refine (runHdrEnc_succeedsWith _).chain ?_
  rintro _ rfl
  refine (runBlob_succeedsWith _).mono ?_
  rintro _ rfl
  exact ⟨hvalid, rfl, hb, rfl, rfl, rfl, rfl⟩

/-- The number of a count from the two bytes of an entry (spec/20_memory.md R60). -/
theorem toNat_countLo_or_countHi (c : Count) : (countLo c).toNat ||| (countHi c).toNat <<< 8 = c.toNat := by
  rw [Nat.shiftLeft_eq, Nat.mul_comm, Nat.or_comm, ← Nat.two_pow_add_eq_or_of_lt (countLo c).isLt, countLo_toNat,
    countHi_toNat]
  omega

/-- The counts read from the entries of a header are those of its table, whatever follows the header. -/
theorem map_counts_headerBytes_append (t : List FreqEntry) (rem : BitVec 3) (p : List Byte) :
    (List.range t.length).map
      (fun i => ((headerBytes t rem ++ p).getD (3 + 3 * i) 0#8).toNat |||
        ((headerBytes t rem ++ p).getD (4 + 3 * i) 0#8).toNat <<< 8) = t.map fun e => e.cnt.toNat := by
  refine List.ext_getElem (by simp) fun i _ hi => ?_
  rw [List.length_map] at hi
  obtain ⟨-, hlo, hhi⟩ := getElem?_headerBytes_append (List.getElem?_eq_getElem hi) rem p
  simp only [List.getElem_map, List.getElem_range, List.getD_eq_getElem?_getD, hlo, hhi, Option.getD_some,
    toNat_countLo_or_countHi]

/-- The counts of a valid input's table add up to its length. -/
theorem sum_frequencies {input : List Byte} (h : ValidInput input) :
    ((frequencies input).map fun e => e.cnt.toNat).sum = input.length := by
  simp only [frequencies, List.map_map, Function.comp_def, toNat_ofNat_count h]
  exact sum_count_eraseDups input

/-- Settles O52: the blob begins with the header of the input's table. -/
theorem encodedHeaderIsSelfConsistent : Obligations.EncodedHeaderIsSelfConsistent := by
  intro s t _ h herr
  have henc := (runEncode_succeedsWith s).of_outcome h herr
  obtain ⟨-, hdistinct, -⟩ := henc.valid
  rw [← length_frequencies] at hdistinct ⊢
  rw [henc.out, henc.hdr, henc.ft]
  constructor
  · exact congrArg some (toNat_ofNat_length hdistinct)
  · rw [map_counts_headerBytes_append, sum_frequencies henc.valid]

end Sys2Proof.Machine
end

section
/-! PROOFS. The BitPacker and BitUnpacker (spec/45_bit_packer.md R185 to R193): the ends of `PACK` and `UNPACK`, and the two laws
that join them. -/

namespace Sys2Proof.Machine

/-! ### The ends of `PACK` -/

/-- Bit `8j + k` of a payload is bit `7 - k` of its byte `j` (spec/20_memory.md R61). -/
theorem payloadBits_getElem?_of_lt {p : List Byte} {j k : Nat} {b : Byte} (hk : k < 8) (hb : p[j]? = some b) :
    (payloadBits p)[8 * j + k]? = some (b.getLsbD (7 - k)) := by
  have hdiv : (8 * j + k) / 8 = j := by omega
  have hmod : (8 * j + k) % 8 = k := by omega
  rw [payloadBits_getElem?, hdiv, hmod, hb, Option.map_some]

/-- The two ends of `PACK`: the packed bytes fit or they do not (R186, R236). -/
theorem exec_pack_within (s : State) :
    (Within s.caps.payCap (groupBytes (padded s.bits)).length → exec .pack s = .next
      { s with pay := groupBytes (padded s.bits), rem := BitVec.ofNat 3 (padCount s.bits.length) }) ∧
    (¬ Within s.caps.payCap (groupBytes (padded s.bits)).length →
      exec .pack s = .next (raise (dests .pack) .capacity s)) :=
  outcome_commit_within _ _ _ _ _

/-- Settles O37: the bits of the packed bytes are the padded bit string. -/
theorem packPlacesEveryBit : Obligations.PackPlacesEveryBit := by
  refine ⟨decode_encode .pack, ?_⟩
  rintro s _ rfl
  obtain ⟨hbits, hlen⟩ := groupBytes_padded s.bits
  refine ⟨groupBytes (padded s.bits), hlen, fun j k b hk hb => ?_, exec_pack_within s⟩
  calc (padded s.bits)[8 * j + k]?
      = (payloadBits (groupBytes (padded s.bits)))[8 * j + k]? := by rw [hbits]
    _ = some (b.getLsbD (7 - k)) := payloadBits_getElem?_of_lt hk hb

/-! ### The ends of `UNPACK` -/

/-- The bits of a payload without the last `r` (R189). -/
def unpacked (pay : List Byte) (r : Nat) : List Bit := sliceTo (payloadBits pay) (8 * pay.length - r)

@[simp] theorem length_unpacked (pay : List Byte) (r : Nat) : (unpacked pay r).length = 8 * pay.length - r := by
  simp [unpacked, sliceTo]

theorem unpackedBits_unpacked (pay : List Byte) (r : Nat) : UnpackedBits pay r (unpacked pay r) := by
  refine ⟨length_unpacked pay r, fun i hi => ?_⟩
  rw [length_unpacked] at hi
  rw [unpacked, sliceTo, List.getElem?_take_of_lt hi, payloadBits_getElem?]

/-- The end of R190. -/
theorem exec_unpack_of_lt {s : State} (h : 8 * s.pay.length < s.rem.toNat) :
    exec .unpack s = .next { s with bits := [], err := 3#3 } :=
  congrArg outcome (if_pos h : runUnpack s = _)

/-- The two ends of `UNPACK` where the padding is in the payload: the bits fit or they do not (R189, R236). -/
theorem exec_unpack_of_le {s : State} (h : s.rem.toNat ≤ 8 * s.pay.length) :
    (Within s.caps.bitsCap (unpacked s.pay s.rem.toNat).length →
      exec .unpack s = .next { s with bits := unpacked s.pay s.rem.toNat }) ∧
    (¬ Within s.caps.bitsCap (unpacked s.pay s.rem.toNat).length →
      exec .unpack s = .next (raise (dests .unpack) .capacity s)) := by
  rw [exec, execUnpack, runUnpack, if_neg (Nat.not_lt.2 h)]
  exact outcome_commit_within _ _ _ _ _

/-- Settles O38: the unpacked bits are those of R189. -/
theorem unpackExpandsAndDropsThePadding : Obligations.UnpackExpandsAndDropsThePadding :=
  ⟨decode_encode .unpack, fun _ =>
    ⟨exec_unpack_of_lt, fun h => ⟨_, unpackedBits_unpacked _ _, exec_unpack_of_le h⟩⟩⟩

/-! ### `UNPACK` after `PACK` -/

/-- The padding count fits in `REM` (R187). -/
theorem toNat_ofNat_padCount (n : Nat) : (BitVec.ofNat 3 (padCount n)).toNat = padCount n :=
  Nat.mod_eq_of_lt (Nat.lt_succ_of_le (padCount_le n))

/-- `PACK` leaves whole bytes of the bits and the padding (R194). -/
theorem eight_mul_length_groupBytes_padded (b : List Bit) :
    8 * (groupBytes (padded b)).length = b.length + padCount b.length := by
  have hmod := padded_mod b.length
  rw [(groupBytes_padded b).2]
  omega

theorem unpacked_groupBytes_padded (b : List Bit) : unpacked (groupBytes (padded b)) (padCount b.length) = b := by
  rw [unpacked, eight_mul_length_groupBytes_padded, (groupBytes_padded b).1, Nat.add_sub_cancel]
  exact List.take_left

/-- Settles O39: dropping the padding gives back the packed bits. -/
theorem unpackUndoesPack : Obligations.UnpackUndoesPack := by
  intro s hcap
  have hlen := eight_mul_length_groupBytes_padded s.bits
  have hpad := padCount_le s.bits.length
  have hbytes : (groupBytes (padded s.bits)).length = (s.bits.length + 7) / 8 := by omega
  refine ⟨_, (exec_pack_within s).1 (hbytes ▸ hcap), fun u hpay hrem hw => ?_⟩
  have hr : u.rem.toNat = padCount s.bits.length := by rw [hrem, toNat_ofNat_padCount]
  have hunpacked : unpacked u.pay u.rem.toNat = s.bits := by rw [hpay, hr, unpacked_groupBytes_padded]
  have hle : u.rem.toNat ≤ 8 * u.pay.length := by rw [hpay, hr, hlen]; exact Nat.le_add_left _ _
  have h := (exec_unpack_of_le hle).1
  rw [hunpacked] at h
  exact h hw

/-! ### `PACK` after `UNPACK` -/

/-- Clearing the low `r` bits of a byte keeps its other bits. -/
theorem getLsbD_clear_low (x : Byte) (r i : Nat) :
    (x &&& (0xFF#8 <<< r)).getLsbD i = (x.getLsbD i && !decide (i < r)) := by
  by_cases hi : i < 8
  · have hmask : (0xFF#8).getLsbD (i - r) = true :=
      (BitVec.getLsbD_allOnes (v := 8)).trans (decide_eq_true (by omega))
    rw [BitVec.getLsbD_and, BitVec.getLsbD_shiftLeft, hmask]
    simp [hi]
  · simp [BitVec.getLsbD_of_ge _ _ (Nat.not_lt.1 hi)]

/-- Clearing the low `r` bits of a byte puts zeros in the place of the last `r` of its bits. -/
theorem bitsOfByte_clear_low (x : Byte) {r : Nat} (hr : r < 8) :
    bitsOfByte (x &&& (0xFF#8 <<< r)) = (bitsOfByte x).take (8 - r) ++ List.replicate r false := by
  interval_cases r <;> simp [bitsOfByte]

/-- Clearing the low `r` bits keeps a byte exactly when these bits are zeros. -/
theorem clear_low_eq_self_iff (x : Byte) (r : Nat) : x &&& (0xFF#8 <<< r) = x ↔ x.toNat % 2 ^ r = 0 := by
  have hlow : x.toNat % 2 ^ r = 0 ↔ ∀ i < r, x.getLsbD i = false := by
    simp [Nat.eq_iff_testBit_eq, Nat.testBit_mod_two_pow, BitVec.getLsbD]
  rw [hlow]
  constructor
  · intro h i hi
    rw [← h, getLsbD_clear_low, decide_eq_true hi, Bool.not_true, Bool.and_false]
  · intro h
    refine BitVec.eq_of_getLsbD_eq fun i _ => ?_
    rw [getLsbD_clear_low]
    by_cases hi : i < r
    · rw [h i hi, Bool.false_and]
    · rw [decide_eq_false hi, Bool.not_false, Bool.and_true]

/-- A payload unpacked has its own padding count: `r` is at most 7, and 0 where there is no byte. -/
theorem padCount_length_unpacked {pay : List Byte} {r : Nat} (hr : r < 8) (hle : r ≤ 8 * pay.length) :
    padCount (unpacked pay r).length = r := by
  rw [length_unpacked, padCount]
  omega

/-- Only the last byte holds padding, and repacking clears it (R193). -/
theorem groupBytes_padded_unpacked_concat (init : List Byte) (x : Byte) {r : Nat} (hr : r < 8) :
    groupBytes (padded (unpacked (init ++ [x]) r)) = init ++ [x &&& (0xFF#8 <<< r)] := by
  have happend (y : Byte) : payloadBits (init ++ [y]) = payloadBits init ++ bitsOfByte y := by simp [payloadBits]
  have hcut : unpacked (init ++ [x]) r = payloadBits init ++ (bitsOfByte x).take (8 - r) := by
    have hlen : 8 * (init ++ [x]).length - r = (payloadBits init).length + (8 - r) := by simp; omega
    rw [unpacked, sliceTo, hlen, happend, List.take_length_add_append]
  have hpad : padCount (unpacked (init ++ [x]) r).length = r := padCount_length_unpacked hr (by simp; omega)
  rw [padded, hpad, hcut, List.append_assoc, rep, ← bitsOfByte_clear_low x hr, ← happend, groupBytes_payloadBits]

/-- Settles O40: repacking an unpacked payload clears the padding bits of its last byte, if it has one. -/
theorem packAfterUnpackClearsThePadding : Obligations.PackAfterUnpackClearsThePadding := by
  intro s hle hbits hcap
  have hr : s.rem.toNat < 8 := s.rem.isLt
  have hpad := padCount_length_unpacked hr hle
  have hlen : (groupBytes (padded (unpacked s.pay s.rem.toNat))).length = s.pay.length := by
    have height := eight_mul_length_groupBytes_padded (unpacked s.pay s.rem.toNat)
    rw [hpad, length_unpacked] at height
    omega
  refine ⟨_, _, (exec_unpack_of_le hle).1 (by rwa [length_unpacked]), (exec_pack_within _).1 (hlen.symm ▸ hcap), ?_,
    hlen, ?_⟩
  · rw [hpad, BitVec.ofNat_toNat, BitVec.setWidth_eq]
  · obtain hpay | ⟨init, x, hpay⟩ := s.pay.eq_nil_or_concat'
    · rw [hpay] at hlen ⊢
      simp [List.length_eq_zero_iff.1 hlen]
    · rw [hpay, groupBytes_padded_unpacked_concat init x hr]
      refine ⟨fun j hj => ?_, by simp, ?_⟩
      · rw [List.length_append, List.length_singleton, Nat.add_lt_add_iff_right] at hj
        rw [List.getElem?_append_left hj, List.getElem?_append_left hj]
      · simp [clear_low_eq_self_iff]

end Sys2Proof.Machine
end

section
/-! PROOFS. The Encoder (spec/46_encoder.md R195 to R206): the ends of `XLATE` and `BLOB`, `ENCODE` as its units in sequence,
and the ends of `ENCODE` written out. On an accepted input every byte is a leaf of the tree and has a code, so that only the
three bounded buffers are left to raise. -/

namespace Sys2Proof.Machine

/-! ### The ends of `XLATE` and `BLOB` -/

theorem runXlate_of_translate {s : State} {b : List Bit} (h : translate s.ct s.inBuf = some b) :
    runXlate s = commit .xlate (fits s.caps.bitsCap b.length) s { s with bits := b } := by
  rw [runXlate, h]

theorem runBlob_of_ne_nil {s : State} (h : s.hdr ≠ []) :
    runBlob s = commit .blob (fits s.caps.outCap (s.hdr ++ s.pay).length) s { s with out := s.hdr ++ s.pay } :=
  if_neg h

/-- Settles O45: every byte has a code and the translation fits or does not, or some byte has none. -/
theorem xlateConcatenatesTheCodes : Obligations.XlateConcatenatesTheCodes := by
  refine ⟨decode_encode .xlate, fun s => ⟨fun f hf => ?_, fun hnone => ?_⟩⟩
  · rw [exec, execXlate, runXlate_of_translate (translate_eq_flatMap _ _ f hf)]
    exact outcome_commit_within _ _ _ _ _
  · rw [exec, execXlate, runXlate, (translate_eq_none_iff _ _).2 hnone]
    rfl

/-- Settles O46: without a header `BLOB` raises; with one the blob fits or does not. -/
theorem blobJoinsHeaderAndPayload : Obligations.BlobJoinsHeaderAndPayload := by
  refine ⟨decode_encode .blob, fun s => ⟨fun hnil => congrArg outcome (if_pos hnil : runBlob s = _), fun hne => ?_,
    fun hne => ?_⟩⟩
  all_goals rw [← List.length_append, exec, execBlob, runBlob_of_ne_nil hne]
  · exact (outcome_commit_within _ _ _ _ _).1
  · exact (outcome_commit_within _ _ _ _ _).2

/-! ### Commands in sequence -/

/-- Once `ERR` is set, the rest of a sequence is skipped (spec/40_host_commands.md R115). -/
theorem execSeq_of_err_ne_zero {s : State} (h : s.err ≠ 0#3) (is : List Instr) : execSeq is s = .next s := by
  cases is with
  | nil => rfl
  | cons i is => exact if_neg h

/-- A command issued before others is a unit run before theirs, if its run leaves `ERR` as R231 says: 0 where it completes, a
code where it raises. -/
theorem execSeq_cons_eq_outcome {i : Instr} {is : List Instr} {run f : State → Result} {s : State} (hs : s.err = 0#3)
    (hrun : exec i s = outcome (run s)) (herr : (run s).SucceedsWith fun t => t.err = 0#3)
    (hrest : ∀ t, t.err = 0#3 → execSeq is t = outcome (f t)) :
    execSeq (i :: is) s = outcome (andThen (run s) f) := by
  rw [execSeq, if_pos hs, hrun]
  cases hr : run s with
  | done t => exact hrest t (by rwa [hr] at herr)
  | raised t => exact execSeq_of_err_ne_zero (by rwa [hr] at herr) is
  | stopped x => cases x <;> rfl

theorem execSeq_singleton {i : Instr} {s : State} (hs : s.err = 0#3) : execSeq [i] s = exec i s := by
  rw [execSeq, if_pos hs]
  cases exec i s <;> rfl

/-- Settles O50: each unit of `ENCODE` keeps `ERR` where it completes, and the next command is run on the state it leaves. -/
theorem encodeIsItsUnitCommandsInSequence : Obligations.EncodeIsItsUnitCommandsInSequence := by
  intro s hs
  rw [exec, execEncode, runEncode]
  simp only [andThen_assoc]
  symm
  refine execSeq_cons_eq_outcome hs rfl ((runCount_succeedsWith _).mono ?_) fun s hs => ?_
  · rintro _ ⟨-, rfl⟩; exact hs
  refine execSeq_cons_eq_outcome hs rfl ((runBuild_succeedsWith _).mono ?_) fun s hs => ?_
  · rintro _ ⟨-, rfl⟩; exact hs
  refine execSeq_cons_eq_outcome hs rfl ((runWalk_succeedsWith _).mono ?_) fun s hs => ?_
  · rintro _ ⟨c, rfl⟩; exact hs
  refine execSeq_cons_eq_outcome hs rfl ((runXlate_succeedsWith _).mono ?_) fun s hs => ?_
  · rintro _ ⟨b, -, rfl⟩; exact hs
  refine execSeq_cons_eq_outcome hs rfl ((runPack_succeedsWith _).mono ?_) fun s hs => ?_
  · rintro _ rfl; exact hs
  refine execSeq_cons_eq_outcome hs rfl ((runHdrEnc_succeedsWith _).mono ?_) fun s hs => ?_
  · rintro _ rfl; exact hs
  exact execSeq_singleton hs

/-! ### Inputs that `ENCODE` rejects -/

/-- On an input that is not accepted `COUNT` raises, and `ENCODE` ends there (R202). -/
theorem exec_encode_of_not_valid {s t : State} (h : ¬ ValidInput s.inBuf)
    (ht : exec .count (clearDerived s) = .next t) : exec .encode s = .next t := by
  obtain hdone | hraised := (outcome_next_iff _ _).1 ht
  · have hcount := runCount_succeedsWith (clearDerived s)
    rw [hdone] at hcount
    obtain ⟨hvalid, -⟩ := hcount
    exact absurd hvalid h
  · simp only [exec, execEncode, runEncode, hraised, andThen_raised, outcome_raised]

theorem exec_encode_of_nil {s : State} (h : s.inBuf = []) :
    exec .encode s = .next { withDerivedCleared s with err := 1#3 } :=
  exec_encode_of_not_valid (fun ⟨hne, _⟩ => hne h) (exec_count_of_nil h)

theorem exec_encode_of_overflow {s : State} (hne : s.inBuf ≠ []) (h : ¬ ValidInput s.inBuf) :
    exec .encode s = .next { withDerivedCleared s with err := 2#3 } :=
  exec_encode_of_not_valid h (exec_count_of_overflow hne h)

/-- Settles O49: `COUNT`, the first unit, raises on the cleared state. -/
theorem encodeRejectsWithoutPartialResults : Obligations.EncodeRejectsWithoutPartialResults := fun _ =>
  ⟨exec_encode_of_nil, exec_encode_of_overflow⟩

/-! ### Inputs that `ENCODE` accepts -/

theorem frequencies_ne_nil {input : List Byte} (h : ValidInput input) : frequencies input ≠ [] := by
  obtain ⟨hne, -, -⟩ := h
  rw [frequencies, Ne, List.map_eq_nil_iff]
  exact List.ne_nil_of_mem (List.mem_eraseDups.2 (List.head_mem hne))

theorem length_frequencies_le {input : List Byte} (h : ValidInput input) : (frequencies input).length ≤ 255 := by
  obtain ⟨-, hdistinct, -⟩ := h
  rwa [length_frequencies]

theorem ft_of_runCount_raised {s t : State} (h : runCount s = .raised t) : t.ft = [] := by
  simp only [runCount] at h
  split_ifs at h <;> cases h <;> rfl

/-- The run of `COUNT` on a valid input completes: a raise leaves no table. -/
theorem runCount_of_valid {s : State} (h : ValidInput s.inBuf) :
    runCount s = .done { s with ft := frequencies s.inBuf } :=
  ((outcome_next_iff _ _).1 (exec_count_of_valid h)).resolve_right fun hraised =>
    frequencies_ne_nil h (ft_of_runCount_raised hraised)

/-- `WALK` of a tree completes with a table that depends on the tree alone and has a code for each of its leaves. -/
theorem exists_codes_of_fullTree {k : Nat} {n : List Node} {root : NodeIdx} (htree : FullTree k n root)
    (hsyms : (leafSyms n).Nodup) :
    ∃ c, (∀ b ∈ leafSyms n, codeOf c b ≠ none) ∧
      ∀ s : State, s.node = n → s.root = root → runWalk s = .done { s with ct := c } := by
  have hlast := htree.root_last
  have hlt : root.toNat < n.length := by omega
  have hne : n ≠ [] := List.ne_nil_of_length_pos (Nat.zero_lt_of_lt hlt)
  have hroot := List.getElem?_eq_getElem hlt
  cases hx : n[root.toNat] with
  | leaf sym w =>
    rw [hx] at hroot
    refine ⟨setCode noCodes sym [false], ?_, ?_⟩
    · simp [leafSyms_of_leaf_root htree hroot]
    · rintro s rfl rfl
      rw [runWalk, if_neg hne, hroot]
  | internal l r w =>
    rw [hx] at hroot
    obtain ⟨c, hc⟩ := visit_ok n htree.childrenBelow n.length root [] noCodes hlt hlt
    refine ⟨c, fun b hb => ?_, ?_⟩
    · have hcodes := codeOf_visit_iff htree hsyms hc
      exact Option.isSome_iff_ne_none.1 ((mem_leafSyms_iff_codeOf_isSome htree hcodes b).1 hb)
    · rintro s rfl rfl
      simp only [runWalk, if_neg hne, hroot, hc]

/-! The states of `ENCODE` on an accepted input, one after the other, with the code table `c` and the translation `b`. -/

/-- After `COUNT`. -/
def countedState (s : State) : State := { withDerivedCleared s with ft := frequencies s.inBuf }

/-- After `BUILD`. -/
def builtState (s : State) : State :=
  { countedState s with
    node := (buildTree (frequencies s.inBuf)).1, root := (buildTree (frequencies s.inBuf)).2 }

/-- After `WALK`. -/
def walkedState (c : CodeTable) (s : State) : State := { builtState s with ct := c }

/-- After `XLATE`. -/
def translatedState (c : CodeTable) (b : List Bit) (s : State) : State := { walkedState c s with bits := b }

/-- After `PACK`. -/
def packedState (c : CodeTable) (b : List Bit) (s : State) : State :=
  { translatedState c b s with pay := groupBytes (padded b), rem := BitVec.ofNat 3 (padCount b.length) }

/-- After `HDR_ENC`. -/
def headedState (c : CodeTable) (b : List Bit) (s : State) : State :=
  { packedState c b s with hdr := headerBytes (frequencies s.inBuf) (BitVec.ofNat 3 (padCount b.length)) }

/-- The blob of an input with the translation `b` (R198). -/
def blobOf (b : List Bit) (input : List Byte) : List Byte :=
  headerBytes (frequencies input) (BitVec.ofNat 3 (padCount b.length)) ++ groupBytes (padded b)

/-- After `BLOB`. -/
def joinedState (c : CodeTable) (b : List Bit) (s : State) : State :=
  { headedState c b s with out := blobOf b s.inBuf }

/-- The four ends of `ENCODE` on an accepted input: `BITS`, `PAY` or `OUT` does not fit (R236), or it completes. -/
def encodeEnd (c : CodeTable) (b : List Bit) (s : State) : State :=
  if fits s.caps.bitsCap b.length then
    if fits s.caps.payCap (groupBytes (padded b)).length then
      if fits s.caps.outCap (blobOf b s.inBuf).length then joinedState c b s
      else raise (dests .blob) .capacity (headedState c b s)
    else raise (dests .pack) .capacity (translatedState c b s)
  else raise (dests .xlate) .capacity (walkedState c s)

/-- The last four units of `ENCODE`, on the state of the first three. -/
theorem outcome_xlate_to_blob {s : State} (h : ValidInput s.inBuf) {c : CodeTable} {b : List Bit}
    (hb : translate c s.inBuf = some b) :
    outcome (andThen (andThen (andThen (runXlate (walkedState c s)) runPack) runHdrEnc) runBlob) =
      .next (encodeEnd c b s) := by
  have hxlate : runXlate (walkedState c s) = commit .xlate (fits s.caps.bitsCap b.length) _ (translatedState c b s) :=
    runXlate_of_translate hb
  have hpack : runPack (translatedState c b s) =
      commit .pack (fits s.caps.payCap (groupBytes (padded b)).length) _ (packedState c b s) := rfl
  have hhdr : runHdrEnc (packedState c b s) = .done (headedState c b s) := if_neg (frequencies_ne_nil h)
  have hblob : runBlob (headedState c b s) =
      commit .blob (fits s.caps.outCap (blobOf b s.inBuf).length) _ (joinedState c b s) :=
    runBlob_of_ne_nil (List.cons_ne_nil _ _)
  rw [hxlate, encodeEnd]
  split_ifs with hbits hpay hout
  · simp [hbits, hpack, hpay, hhdr, hblob, hout]
  · simp [hbits, hpack, hpay, hhdr, hblob, hout]
  · simp [hbits, hpack, hpay]
  · simp [hbits]

/-- On an accepted input every byte is a leaf of the tree and has a code. -/
theorem exists_encodeEnd {input : List Byte} (h : ValidInput input) :
    ∃ c b, ∀ s : State, s.inBuf = input → exec .encode s = .next (encodeEnd c b s) := by
  have hne := frequencies_ne_nil h
  have hsyms : leafSyms (buildTree (frequencies input)).1 = input.eraseDups :=
    (leafSyms_buildTree hne).trans (syms_frequencies input)
  have htree := fullTree_buildTree hne (length_frequencies_le h)
  obtain ⟨c, hcodes, hwalk⟩ := exists_codes_of_fullTree htree (hsyms ▸ nodup_eraseDups input)
  obtain ⟨b, hb⟩ : ∃ b, translate c input = some b := Option.ne_none_iff_exists'.1 fun hnone => by
    obtain ⟨x, hx, hcode⟩ := (translate_eq_none_iff c input).1 hnone
    exact hcodes x (hsyms ▸ List.mem_eraseDups.2 hx) hcode
  refine ⟨c, b, ?_⟩
  rintro s rfl
  have hcount : runCount (clearDerived s) = .done (countedState s) := runCount_of_valid h
  have hbuild : runBuild (countedState s) = .done (builtState s) := if_neg hne
  have hwalk : runWalk (builtState s) = .done (walkedState c s) := hwalk _ rfl rfl
  rw [exec, execEncode, runEncode, hcount, andThen_done, hbuild, andThen_done, hwalk, andThen_done]
  exact outcome_xlate_to_blob h hb

/-- Settles O47: without a capacity to exceed, `ENCODE` ends by completing. -/
theorem encodeCompletesOnEveryAcceptedInput : Obligations.EncodeCompletesOnEveryAcceptedInput := by
  refine ⟨decode_encode .encode, fun s hvalid hcaps => ?_⟩
  obtain ⟨c, b, hend⟩ := exists_encodeEnd hvalid
  have hjoined : encodeEnd c b s = joinedState c b s := by
    simp only [encodeEnd, hcaps, Caps.unbounded, fits_none, if_true]
  have hexec := hend s rfl
  rw [hjoined] at hexec
  exact ⟨_, hexec, unchangedOutside_dests_of_exec hexec rfl, rfl, rfl, rfl⟩

/-! ### The result is a function of `IN` -/

/-- The ends of `ENCODE` on two states with the same `IN` and capacities differ at most in `ERR` and the words pending. -/
theorem encodeEnd_eq_of_same_in {s s' : State} (hin : s.inBuf = s'.inBuf) (hcaps : s.caps = s'.caps) (c : CodeTable)
    (b : List Bit) :
    encodeEnd c b s' = { encodeEnd c b s with err := (encodeEnd c b s').err, host := s'.host } := by
  obtain ⟨⟨⟩, host, caps⟩ := s
  obtain ⟨⟨⟩, host', caps'⟩ := s'
  cases hin
  cases hcaps
  dsimp only [encodeEnd]
  split_ifs <;> rfl

/-- What `ENCODE` leaves, beside `IN`, `ERR`, the words pending and the capacities, is a function of `IN` and the capacities. -/
theorem exec_encode_eq_of_same_in {s s' t t' : State} (hin : s.inBuf = s'.inBuf) (hcaps : s.caps = s'.caps)
    (ht : exec .encode s = .next t) (ht' : exec .encode s' = .next t') :
    t' = { t with inBuf := t'.inBuf, err := t'.err, host := t'.host, caps := t'.caps } := by
  by_cases hvalid : ValidInput s.inBuf
  · obtain ⟨c, b, hend⟩ := exists_encodeEnd hvalid
    cases (hend s rfl).symm.trans ht
    cases (hend s' hin.symm).symm.trans ht'
    rw [encodeEnd_eq_of_same_in hin hcaps]
  by_cases hnil : s.inBuf = []
  · cases (exec_encode_of_nil hnil).symm.trans ht
    cases (exec_encode_of_nil (hin ▸ hnil)).symm.trans ht'
    rfl
  · cases (exec_encode_of_overflow hnil hvalid).symm.trans ht
    cases (exec_encode_of_overflow (hin ▸ hnil) (hin ▸ hvalid)).symm.trans ht'
    rfl

/-- Settles O51: the ten elements of the statement are not among those in which the two states may differ. -/
theorem encodeDependsOnInAlone : Obligations.EncodeDependsOnInAlone := by
  intro s s' t t' hin hcaps ht ht'
  rw [exec_encode_eq_of_same_in hin hcaps ht ht']
  exact ⟨rfl, rfl, rfl, rfl, rfl, rfl, rfl, rfl, rfl, rfl⟩

/-! ### The sizes of the blob -/

/-- A translation is as long as the codes of its bytes together (R196). -/
theorem length_of_translate {c : CodeTable} {l : List Byte} {b : List Bit} (h : translate c l = some b) :
    b.length = (l.map fun x => ((codeOf c x).getD []).length).sum := by
  have hcodes : ∀ x ∈ l, codeOf c x = some ((codeOf c x).getD []) := fun x hx => by
    cases hx' : codeOf c x with
    | none => simp [(translate_eq_none_iff c l).2 ⟨x, hx, hx'⟩] at h
    | some p => rfl
  cases h.symm.trans (translate_eq_flatMap c l _ hcodes)
  rw [List.length_flatMap]

/-- A sum over an input is one over its distinct bytes, each as often as it occurs. -/
theorem sum_map_eq_sum_eraseDups (input : List Byte) (f : Byte → Nat) :
    (input.map f).sum = (input.eraseDups.map fun x => input.count x * f x).sum := by
  have hset : input.toFinset = input.eraseDups.toFinset := by ext; simp
  rw [Finset.sum_list_map_count, hset, List.sum_toFinset _ (nodup_eraseDups input)]
  simp only [smul_eq_mul]

/-- Settles O48: the blob is a header of `2 + 3n` bytes and the packed bits. -/
theorem successfulEncodeSizes : Obligations.SuccessfulEncodeSizes := by
  intro s t _ h herr
  have henc := (runEncode_succeedsWith s).of_outcome h herr
  have hlen : t.ft.length ≤ 255 := henc.ft ▸ length_frequencies_le henc.valid
  have hrem : t.rem.toNat = padCount t.bits.length := by rw [henc.rem, toNat_ofNat_padCount]
  refine ⟨?size, ?first, ?second, hrem, ?sum⟩
  case size =>
    have hpacked := eight_mul_length_groupBytes_padded t.bits
    have hpad := padCount_le t.bits.length
    rw [henc.out, henc.hdr, henc.pay, List.length_append, length_headerBytes]
    omega
  case first =>
    rw [henc.out, henc.hdr]
    exact congrArg some (toNat_ofNat_length hlen)
  case second =>
    rw [henc.out, henc.hdr]
    exact congrArg some (BitVec.toNat_setWidth_of_le (by decide))
  case sum =>
    rw [length_of_translate henc.bits, sum_map_eq_sum_eraseDups, henc.ft, frequencies, List.map_map]
    simp only [Function.comp_def, toNat_ofNat_count henc.valid]

end Sys2Proof.Machine
end

section
/-! PROOFS. Exceptions (spec/60_exceptions.md R226, R231, R232): a command that is no composite completes with `ERR` as it was,
or its next state is that of a raise of one of its exceptions; a composite leaves the code of one of its own. -/

namespace Sys2Proof.Machine

/-! ### How a run ends -/

/-- Where the run completes, its state satisfies `P`; where it raises, `R`. -/
def Result.DoneOrRaised (P R : State → Prop) : Result → Prop
  | .done t => P t
  | .raised t => R t
  | .stopped _ => True

theorem Result.DoneOrRaised.mono {P P' R R' : State → Prop} {r : Result} (hr : r.DoneOrRaised P R)
    (hP : ∀ t, P t → P' t) (hR : ∀ t, R t → R' t) : r.DoneOrRaised P' R' := by
  cases r with
  | done t => exact hP t hr
  | raised t => exact hR t hr
  | stopped x => trivial

/-- The rule for one unit after another. -/
theorem Result.DoneOrRaised.chain {P Q R : State → Prop} {r : Result} {f : State → Result} (hr : r.DoneOrRaised P R)
    (hf : ∀ t, P t → (f t).DoneOrRaised Q R) : (andThen r f).DoneOrRaised Q R := by
  cases r with
  | done t => exact hf t hr
  | raised t => exact hr
  | stopped x => trivial

theorem Result.DoneOrRaised.of_outcome {P R : State → Prop} {r : Result} {t : State} (hr : r.DoneOrRaised P R)
    (h : outcome r = .next t) : P t ∨ R t := by
  obtain rfl | rfl := (outcome_next_iff r t).1 h
  · exact .inl hr
  · exact .inr hr

/-! ### The exceptions of a command -/

/-- The exceptions a command can raise, the last column of the table of R226. -/
def canRaise : Instr → List Exc
  | .nop | .reset | .remSet _ => []
  | .inPush _ | .bitPush _ | .payPush _ | .pack => [.capacity]
  | .ftPush _ _ => [.alphabetOverflow, .state]
  | .count => [.emptyInput, .alphabetOverflow]
  | .build | .hdrEnc => [.emptyInput]
  | .walk => [.state]
  | .xlate | .blob => [.state, .capacity]
  | .hdrDec | .unpack => [.format, .capacity]
  | .twalk => [.truncatedStream, .state, .capacity]
  | .encode => [.emptyInput, .alphabetOverflow, .capacity]
  | .decode => [.format, .truncatedStream, .capacity]

/-- `t` is the state after command `i` raised one of the exceptions `xs` in `s` (R231). -/
def RaisedBy (xs : List Exc) (i : Instr) (s t : State) : Prop := ∃ x ∈ xs, t = raise (dests i) x s

theorem RaisedBy.mono {xs ys : List Exc} {i : Instr} {s t : State} (h : RaisedBy xs i s t) (hsub : xs ⊆ ys) :
    RaisedBy ys i s t := by
  obtain ⟨x, hx, rfl⟩ := h
  exact ⟨x, hsub hx, rfl⟩

theorem RaisedBy.err_mem {xs : List Exc} {i : Instr} {s t : State} (h : RaisedBy xs i s t) : t.err ∈ xs.map errCode := by
  obtain ⟨x, hx, rfl⟩ := h
  exact List.mem_map_of_mem hx

theorem RaisedBy.err_ne_zero {xs : List Exc} {i : Instr} {s t : State} (h : RaisedBy xs i s t) : t.err ≠ 0#3 := by
  obtain ⟨x, -, rfl⟩ := h
  exact errCode_ne_zero x

/-- The run of command `i` from `s` completes with `ERR` as it was, or raises one of the command's exceptions. -/
def Result.EndsOf (i : Instr) (s : State) (r : Result) : Prop :=
  r.DoneOrRaised (fun t => t.err = s.err) (RaisedBy (canRaise i) i s)

/-- A bounded write completes or raises `Capacity` (R236). -/
theorem doneOrRaised_commit {P : State → Prop} {xs : List Exc} {i : Instr} {fit : Bool} {s t : State} (ht : P t)
    (hxs : .capacity ∈ xs) : (commit i fit s t).DoneOrRaised P (RaisedBy xs i s) := by
  obtain ⟨-, h⟩ | ⟨-, h⟩ := commit_cases i fit s t <;> rw [h]
  · exact ht
  · exact ⟨_, hxs, rfl⟩

/-! ### The units of `ENCODE` -/

theorem runCount_ends (s : State) : (runCount s).EndsOf .count s := by
  simp only [runCount]
  split_ifs
  · exact ⟨.emptyInput, by decide, rfl⟩
  · exact ⟨.alphabetOverflow, by decide, rfl⟩
  · exact ⟨.alphabetOverflow, by decide, rfl⟩
  · exact rfl

theorem runBuild_ends (s : State) : (runBuild s).EndsOf .build s := by
  rw [runBuild]
  split_ifs
  · exact ⟨.emptyInput, by decide, rfl⟩
  · exact rfl

theorem runWalk_ends (s : State) : (runWalk s).EndsOf .walk s := by
  rw [runWalk]
  split_ifs
  · exact ⟨.state, by decide, rfl⟩
  · cases s.node[s.root.toNat]? with
    | none => trivial
    | some x =>
      cases x with
      | leaf sym w => exact rfl
      | internal l r w =>
        cases visit s.node s.node.length s.root [] noCodes with
        | error x => trivial
        | ok c => exact rfl

theorem runXlate_ends (s : State) : (runXlate s).EndsOf .xlate s := by
  rw [runXlate]
  cases translate s.ct s.inBuf with
  | none => exact ⟨.state, by decide, rfl⟩
  | some b => exact doneOrRaised_commit rfl (by decide)

theorem runPack_ends (s : State) : (runPack s).EndsOf .pack s := doneOrRaised_commit rfl (by decide)

theorem runHdrEnc_ends (s : State) : (runHdrEnc s).EndsOf .hdrEnc s := by
  rw [runHdrEnc]
  split_ifs
  · exact ⟨.emptyInput, by decide, rfl⟩
  · exact rfl

theorem runBlob_ends (s : State) : (runBlob s).EndsOf .blob s := by
  rw [runBlob]
  split_ifs
  · exact ⟨.state, by decide, rfl⟩
  · exact doneOrRaised_commit rfl (by decide)

/-! ### The units of `DECODE` -/

/-- A blob that passes the tests of R176 has its two fixed bytes. -/
theorem exists_headerGood {b : List Byte} (h : ¬ HeaderBad b) :
    ∃ n r body, b = n :: r :: body ∧ HeaderGood n r body := by
  match b, h with
  | n :: r :: body, h => exact ⟨n, r, body, rfl, headerGood_iff.2 h⟩
  | [_], h => exact absurd (.inl Nat.one_lt_two) h
  | [], h => exact absurd (.inl Nat.two_pos) h

/-- The header of a good blob has at least one entry (R176 (b)). -/
theorem HeaderGood.entries_ne_nil {n r : Byte} {body : List Byte} (h : HeaderGood n r body) :
    parseEntries n.toNat body ≠ [] := fun hnil =>
  h.nonempty (by rw [← length_parseEntries _ _ h.long, hnil, List.length_nil])

/-- Where `HDR_DEC` completes it leaves a table that is not empty. -/
theorem runHdrDec_ends (s : State) :
    (runHdrDec s).DoneOrRaised (fun t => t.err = s.err ∧ t.ft ≠ []) (RaisedBy (canRaise .hdrDec) .hdrDec s) := by
  by_cases hbad : HeaderBad s.inBuf
  · rw [runHdrDec_of_bad hbad]
    exact ⟨.format, by decide, rfl⟩
  · obtain ⟨n, r, body, hin, hgood⟩ := exists_headerGood hbad
    rw [runHdrDec_of_good hin hgood rfl rfl]
    exact doneOrRaised_commit ⟨rfl, hgood.entries_ne_nil⟩ (by decide)

/-- `UNPACK` leaves the tree alone. -/
theorem runUnpack_ends (s : State) :
    (runUnpack s).DoneOrRaised (fun t => t.err = s.err ∧ t.node = s.node) (RaisedBy (canRaise .unpack) .unpack s) := by
  rw [runUnpack]
  split_ifs
  · exact ⟨.format, by decide, rfl⟩
  · exact doneOrRaised_commit ⟨rfl, rfl⟩ (by decide)

/-- What `TWALK` can do: raise `State` where there is no tree (R214), raise `TruncatedStream` (R213), write `OUT` if it fits, or
stop. -/
theorem runTwalk_cases (s : State) :
    (s.node = [] ∧ runTwalk s = .raised (raise (dests .twalk) .state s)) ∨
    (s.node ≠ [] ∧ (runTwalk s = .raised (raise (dests .twalk) .truncatedStream s) ∨
      (∃ o, runTwalk s = commit .twalk (fits s.caps.outCap o.length) s { s with out := o }) ∨
      ∃ x, runTwalk s = .stopped x)) := by
  by_cases hnode : s.node = []
  · exact .inl ⟨hnode, if_pos hnode⟩
  refine .inr ⟨hnode, ?_⟩
  rw [runTwalk, if_neg hnode]
  cases s.node[s.root.toNat]? with
  | none => exact .inr (.inr ⟨_, rfl⟩)
  | some x =>
    cases x with
    | leaf sym w => exact .inr (.inl ⟨_, rfl⟩)
    | internal l r w =>
      cases treeWalk s.node s.root s.root s.bits with
      | none => exact .inr (.inr ⟨_, rfl⟩)
      | some oc =>
        simp only
        split_ifs
        · exact .inl rfl
        · exact .inr (.inl ⟨_, rfl⟩)

/-- With a tree `TWALK` does not raise `State`. -/
theorem runTwalk_ends_of_tree {s : State} (hnode : s.node ≠ []) :
    (runTwalk s).DoneOrRaised (fun t => t.err = s.err) (RaisedBy [.truncatedStream, .capacity] .twalk s) := by
  obtain ⟨hnil, -⟩ | ⟨-, h | ⟨o, h⟩ | ⟨x, h⟩⟩ := runTwalk_cases s
  · exact absurd hnil hnode
  all_goals rw [h]
  · exact ⟨.truncatedStream, by decide, rfl⟩
  · exact doneOrRaised_commit rfl (by decide)
  · trivial

theorem runTwalk_ends (s : State) : (runTwalk s).EndsOf .twalk s := by
  by_cases hnode : s.node = []
  · rw [runTwalk, if_pos hnode]
    exact ⟨.state, by decide, rfl⟩
  · exact (runTwalk_ends_of_tree hnode).mono (fun _ h => h) fun _ h => h.mono (by decide)

/-! ### Commands that are no composite -/

theorem completes_or_raises_of_commit {i : Instr} {fit : Bool} {s t u : State} (h : outcome (commit i fit s t) = .next u)
    (ht : t.err = s.err) (hi : .capacity ∈ canRaise i) : u.err = s.err ∨ RaisedBy (canRaise i) i s u :=
  (doneOrRaised_commit (P := fun t => t.err = s.err) ht hi).of_outcome h

/-- Every command but `RESET` and the composites completes with `ERR` as it was, or raises one of its exceptions. -/
theorem exec_completes_or_raises {i : Instr} {s t : State} (hreset : i ≠ .reset) (hencode : i ≠ .encode)
    (hdecode : i ≠ .decode) (h : exec i s = .next t) : t.err = s.err ∨ RaisedBy (canRaise i) i s t := by
  cases i with
  | nop => cases h; exact .inl rfl
  | reset => exact absurd rfl hreset
  | inPush b => exact completes_or_raises_of_commit h rfl (List.mem_singleton_self _)
  | ftPush x c =>
    simp only [exec, execFtPush] at h
    split_ifs at h <;> cases h
    · exact .inr ⟨.state, by simp [canRaise], rfl⟩
    · exact .inr ⟨.alphabetOverflow, by simp [canRaise], rfl⟩
    · exact .inl rfl
  | bitPush b => exact completes_or_raises_of_commit h rfl (List.mem_singleton_self _)
  | payPush b => exact completes_or_raises_of_commit h rfl (List.mem_singleton_self _)
  | remSet r => cases h; exact .inl rfl
  | count => exact (runCount_ends s).of_outcome h
  | build => exact (runBuild_ends s).of_outcome h
  | walk => exact (runWalk_ends s).of_outcome h
  | xlate => exact (runXlate_ends s).of_outcome h
  | pack => exact (runPack_ends s).of_outcome h
  | hdrEnc => exact (runHdrEnc_ends s).of_outcome h
  | blob => exact (runBlob_ends s).of_outcome h
  | hdrDec => exact ((runHdrDec_ends s).of_outcome h).imp_left And.left
  | unpack => exact ((runUnpack_ends s).of_outcome h).imp_left And.left
  | twalk => exact (runTwalk_ends s).of_outcome h
  | encode => exact absurd rfl hencode
  | decode => exact absurd rfl hdecode

/-- A raise gives each destination its reset value (R231 (1)). -/
theorem same_raise_reset {es : List Elem} {e : Elem} (he : e ∈ es) (herr : e ≠ .err) (x : Exc) (s : State) :
    Same (raise es x s) State.reset e := by
  have hcode : UnchangedOutside [.err] (clearAll es s) (raise es x s) := unchangedOutside_of_clearAll_eq rfl
  exact (hcode.1 e (by simpa using herr)).symm.trans (same_clearAll_reset he s)

/-- No command but `RESET` has `ERR` as a destination (spec/10_state.md R37). -/
theorem err_notMem_dests {i : Instr} (hi : i ≠ .reset) : Elem.err ∉ dests i := by
  cases i with
  | reset => exact absurd rfl hi
  | _ => simp [dests, derivedElems]

/-- Settles O15: a command that leaves `ERR` set has raised, since completing keeps it at 0. -/
theorem raiseClearsTheDestinationsAndKeepsTheRest : Obligations.RaiseClearsTheDestinationsAndKeepsTheRest := by
  intro i s t hencode hdecode hs h ht
  have hreset : i ≠ .reset := by
    rintro rfl
    cases h
    exact ht rfl
  obtain hkept | ⟨x, -, rfl⟩ := exec_completes_or_raises hreset hencode hdecode h
  · exact absurd (hkept.trans hs) ht
  · rw [destTable_eq_dests]
    refine ⟨fun e he => same_raise_reset he ?_ x s, (frameOf_raise i x s).mono (by simp)⟩
    rintro rfl
    exact err_notMem_dests hreset he

/-! ### The composites -/

/-- On an accepted input only the capacities are left to raise in `ENCODE` (spec/46_encoder.md R203). -/
theorem err_encodeEnd (c : CodeTable) (b : List Bit) (s : State) :
    (encodeEnd c b s).err = s.err ∨ (encodeEnd c b s).err = errCode .capacity := by
  rw [encodeEnd]
  split_ifs
  · exact .inl rfl
  all_goals exact .inr rfl

/-- `ENCODE` raises in `COUNT` on an input that is not accepted, and for a capacity on one that is. -/
theorem exec_encode_err {s t : State} (hs : s.err = 0#3) (h : exec .encode s = .next t) :
    t.err ∈ 0#3 :: (canRaise .encode).map errCode := by
  by_cases hvalid : ValidInput s.inBuf
  · obtain ⟨c, b, hend⟩ := exists_encodeEnd hvalid
    cases (hend s rfl).symm.trans h
    obtain herr | herr := err_encodeEnd c b s
    · rw [herr, hs]
      decide
    · rw [herr]
      decide
  by_cases hnil : s.inBuf = []
  · cases (exec_encode_of_nil hnil).symm.trans h
    exact (by decide : 1#3 ∈ 0#3 :: (canRaise .encode).map errCode)
  · cases (exec_encode_of_overflow hnil hvalid).symm.trans h
    exact (by decide : 2#3 ∈ 0#3 :: (canRaise .encode).map errCode)

/-- No unit of `DECODE` misses the element it needs: the table of a good header is not empty, so there is a tree
(spec/47_decoder.md R215). -/
theorem runDecode_ends (s : State) :
    (runDecode s).DoneOrRaised (fun t => t.err = s.err) fun t => t.err ∈ (canRaise .decode).map errCode := by
  have hcode {xs : List Exc} {i : Instr} {u : State} (hxs : xs ⊆ canRaise .decode) (t : State) (h : RaisedBy xs i u t) :
      t.err ∈ (canRaise .decode).map errCode := (h.mono hxs).err_mem
  simp only [runDecode, andThen_assoc]
  refine ((runHdrDec_ends _).mono (fun _ h => h) (hcode (by decide))).chain fun t ⟨herr, hft⟩ => ?_
  have hbuild : runBuild t = .done { t with node := (buildTree t.ft).1, root := (buildTree t.ft).2 } := if_neg hft
  have hnode : (buildTree t.ft).1 ≠ [] := List.ne_nil_of_length_pos (Nat.zero_lt_of_lt (root_lt_length_buildTree hft))
  rw [hbuild, andThen_done]
  refine ((runUnpack_ends _).mono (fun _ h => h) (hcode (by decide))).chain fun u ⟨herr', hnode'⟩ => ?_
  have hu : u.err = s.err := herr'.trans herr
  exact (runTwalk_ends_of_tree (hnode' ▸ hnode)).mono (fun _ h => h.trans hu) (hcode (by decide))

/-- Settles O14: the code is 0 or that of an exception of the command. -/
theorem errTakesOnlyCodesTheCommandRaises : Obligations.ErrTakesOnlyCodesTheCommandRaises := by
  intro i s t hs h
  have hcode : t.err ∈ 0#3 :: (canRaise i).map errCode := by
    by_cases hreset : i = .reset
    · subst hreset
      cases h
      exact List.mem_cons_self
    by_cases hencode : i = .encode
    · subst hencode
      exact exec_encode_err hs h
    by_cases hdecode : i = .decode
    · subst hdecode
      obtain hkept | hraised := (runDecode_ends s).of_outcome h
      · exact List.mem_cons.2 (.inl (hkept.trans hs))
      · exact List.mem_cons_of_mem _ hraised
    obtain hkept | hraised := exec_completes_or_raises hreset hencode hdecode h
    · exact List.mem_cons.2 (.inl (hkept.trans hs))
    · exact List.mem_cons_of_mem _ hraised.err_mem
  cases i <;> exact hcode

/-- Settles O8: an illegal word raises `IllegalCommand`, which has no destination. -/
theorem illegalWordSetsOnlyErr : Obligations.IllegalWordSetsOnlyErr := fun _ _ _ => issue_of_illegal

end Sys2Proof.Machine
end

section
/-! PROOFS. The capacities (spec/60_exceptions.md R236): every write of a bounded buffer passes the capacity test first, so every
step keeps the buffers within their capacities. -/

namespace Sys2Proof.Machine

/-- The bounded buffers (spec/00_scope.md R11). -/
def boundedElems : List Elem := [.inBuf, .bits, .pay, .out]

/-- What writes no bounded buffer keeps them within their capacities. -/
theorem wf_of_unchanged {es : List Elem} {s t : State} (hs : Memory.wf s = true) (h : UnchangedOutside es s t)
    (hes : ∀ e ∈ boundedElems, e ∉ es) : Memory.wf t = true := by
  obtain ⟨hsame, -, hcaps⟩ := h
  have hin : s.inBuf = t.inBuf := hsame .inBuf (hes _ (by decide))
  have hbits : s.bits = t.bits := hsame .bits (hes _ (by decide))
  have hpay : s.pay = t.pay := hsame .pay (hes _ (by decide))
  have hout : s.out = t.out := hsame .out (hes _ (by decide))
  rwa [Memory.wf, hcaps, ← hin, ← hbits, ← hpay, ← hout]

/-- A unit that keeps every bounded buffer within its capacity. -/
def KeepsCapacities (run : State → Result) : Prop :=
  ∀ s, Memory.wf s = true → (run s).Leaves fun t => Memory.wf t = true

theorem keepsCapacities_of_frame {run : State → Result} {i : Instr} (hrun : ∀ s, (run s).Leaves (FrameOf i s))
    (hi : ∀ e ∈ boundedElems, e ∉ dests i ++ [.err]) : KeepsCapacities run :=
  fun s hs => (hrun s).mono fun _ ht => wf_of_unchanged hs ht hi

/-- A write that happens only if the buffer fits. -/
theorem leaves_wf_commit {i : Instr} {fit : Bool} {s t : State} (hs : Memory.wf s = true)
    (ht : fit = true → Memory.wf t = true) : (commit i fit s t).Leaves fun t => Memory.wf t = true := by
  obtain ⟨hfit, h⟩ | ⟨-, h⟩ := commit_cases i fit s t <;> rw [h]
  · exact ht hfit
  · exact wf_raise _ _ hs

/-! ### The units -/

theorem runCount_keepsCapacities : KeepsCapacities runCount := keepsCapacities_of_frame runCount_frame (by decide)

theorem runBuild_keepsCapacities : KeepsCapacities runBuild := keepsCapacities_of_frame runBuild_frame (by decide)

theorem runWalk_keepsCapacities : KeepsCapacities runWalk := keepsCapacities_of_frame runWalk_frame (by decide)

theorem runHdrEnc_keepsCapacities : KeepsCapacities runHdrEnc := keepsCapacities_of_frame runHdrEnc_frame (by decide)

theorem runXlate_keepsCapacities : KeepsCapacities runXlate := by
  intro s hs
  rw [runXlate]
  split
  · exact wf_raise _ _ hs
  · exact leaves_wf_commit hs (wf_write_bits _ hs)

theorem runPack_keepsCapacities : KeepsCapacities runPack := fun _ hs => leaves_wf_commit hs (wf_write_pay _ hs)

theorem runBlob_keepsCapacities : KeepsCapacities runBlob := by
  intro s hs
  rw [runBlob]
  split_ifs
  · exact wf_raise _ _ hs
  · exact leaves_wf_commit hs (wf_write_out _ hs)

theorem runHdrDec_keepsCapacities : KeepsCapacities runHdrDec := by
  intro s hs
  by_cases hbad : HeaderBad s.inBuf
  · rw [runHdrDec_of_bad hbad]
    exact wf_raise _ _ hs
  · obtain ⟨n, r, body, hin, hgood⟩ := exists_headerGood hbad
    rw [runHdrDec_of_good hin hgood rfl rfl]
    exact leaves_wf_commit hs (wf_write_pay _ hs)

theorem runUnpack_keepsCapacities : KeepsCapacities runUnpack := by
  intro s hs
  rw [runUnpack]
  split_ifs
  · exact wf_raise _ _ hs
  · exact leaves_wf_commit hs (wf_write_bits _ hs)

theorem runTwalk_keepsCapacities : KeepsCapacities runTwalk := by
  intro s hs
  obtain ⟨-, h⟩ | ⟨-, h | ⟨o, h⟩ | ⟨x, h⟩⟩ := runTwalk_cases s <;> rw [h]
  · exact wf_raise _ _ hs
  · exact wf_raise _ _ hs
  · exact leaves_wf_commit hs (wf_write_out _ hs)
  · trivial

/-! ### The composites and the step -/

theorem runEncode_keepsCapacities : KeepsCapacities runEncode := fun _ hs =>
  (runCount_keepsCapacities _ (wf_clearAll derivedElems hs)).chain runBuild_keepsCapacities
    |>.chain runWalk_keepsCapacities
    |>.chain runXlate_keepsCapacities
    |>.chain runPack_keepsCapacities
    |>.chain runHdrEnc_keepsCapacities
    |>.chain runBlob_keepsCapacities

theorem runDecode_keepsCapacities : KeepsCapacities runDecode := fun _ hs =>
  (runHdrDec_keepsCapacities _ (wf_clearAll derivedElems hs)).chain runBuild_keepsCapacities
    |>.chain runUnpack_keepsCapacities
    |>.chain runTwalk_keepsCapacities

theorem exec_keepsCapacities {i : Instr} {s t : State} (hs : Memory.wf s = true) (h : exec i s = .next t) :
    Memory.wf t = true := by
  cases i with
  | reset =>
    cases h
    simp [Memory.wf, fits_zero]
  | inPush b => exact (leaves_wf_commit hs (wf_write_in _ hs)).of_outcome h
  | bitPush b => exact (leaves_wf_commit hs (wf_write_bits _ hs)).of_outcome h
  | payPush b => exact (leaves_wf_commit hs (wf_write_pay _ hs)).of_outcome h
  | xlate => exact (runXlate_keepsCapacities s hs).of_outcome h
  | pack => exact (runPack_keepsCapacities s hs).of_outcome h
  | blob => exact (runBlob_keepsCapacities s hs).of_outcome h
  | hdrDec => exact (runHdrDec_keepsCapacities s hs).of_outcome h
  | unpack => exact (runUnpack_keepsCapacities s hs).of_outcome h
  | twalk => exact (runTwalk_keepsCapacities s hs).of_outcome h
  | encode => exact (runEncode_keepsCapacities s hs).of_outcome h
  | decode => exact (runDecode_keepsCapacities s hs).of_outcome h
  | _ => exact wf_of_unchanged hs (exec_frame h) (by simp [boundedElems, dests])

/-- A word that runs no command changes at most `ERR`. -/
theorem issue_keepsCapacities {w : Word} {s t : State} (hs : Memory.wf s = true) (h : issue w s = .next t) :
    Memory.wf t = true := by
  rw [issue] at h
  split at h
  · split_ifs at h
    · exact exec_keepsCapacities hs h
    · cases h
      exact hs
  · split_ifs at h <;> cases h
    · exact wf_raise [] _ hs
    · exact hs

/-- Settles O12: a step issues the first pending word, if there is one. -/
theorem everyStepKeepsBuffersWithinCapacity : Obligations.EveryStepKeepsBuffersWithinCapacity := by
  intro s t hs h
  cases hhost : s.host with
  | nil =>
    cases (step_of_host_nil hhost).symm.trans h
    exact hs
  | cons w rest =>
    rw [step_of_host_cons hhost] at h
    exact issue_keepsCapacities (s := { s with host := rest }) hs h

end Sys2Proof.Machine
end

section
/-! PROOFS. `TWALK` (spec/47_decoder.md R211 to R213): the bits split into paths from the root to leaves and the beginning of one
more path, the way to the cursor; the cursor is back at the root exactly if that rest is empty. -/

namespace Sys2Proof.Machine

/-! ### A leaf root -/

theorem within_of_unbounded {cap : Cap} (h : cap = none) (n : Nat) : Within cap n := by
  rintro c hc
  cases h.symm.trans hc

/-- The two ends of `TWALK` under a leaf root: the copies fit or they do not (R212, R236). -/
theorem exec_twalk_of_leaf_root {s : State} {sym : Byte} {w : Weight} (h : s.node[s.root.toNat]? = some (.leaf sym w)) :
    (Within s.caps.outCap s.bits.length →
      exec .twalk s = .next { s with out := List.replicate s.bits.length sym }) ∧
    (¬ Within s.caps.outCap s.bits.length → exec .twalk s = .next { s with out := [], err := 7#3 }) := by
  have hne : s.node ≠ [] := List.ne_nil_of_mem (List.mem_of_getElem? h)
  simp only [exec, execTwalk, runTwalk, if_neg hne, h, rep, List.length_replicate]
  exact outcome_commit_within _ _ _ _ _

/-- Settles O55: the clauses are the two ends of `TWALK` under a leaf root. -/
theorem twalkUnderALeafRootCopiesTheSymbol : Obligations.TwalkUnderALeafRootCopiesTheSymbol :=
  fun _ _ _ => exec_twalk_of_leaf_root

/-! ### The walk of a sequence of paths -/

theorem ne_nil_of_leadsTo {n : List Node} {root l r : NodeIdx} {v : Weight}
    (hroot : n[root.toNat]? = some (.internal l r v)) {p : Code} {b : Byte} (hp : LeadsTo n root p b) : p ≠ [] := by
  rintro rfl
  obtain ⟨w, hw⟩ := hp
  rw [follow, hroot] at hw
  cases hw

/-- The walk of a sequence of paths emits their symbols and ends at the root. -/
theorem treeWalk_flatMap_paths {n : List Node} {root l r : NodeIdx} {v : Weight}
    (hroot : n[root.toNat]? = some (.internal l r v)) {pairs : List (Byte × Code)}
    (h : ∀ p ∈ pairs, LeadsTo n root p.2 p.1) :
    treeWalk n root root (pairs.flatMap fun p => p.2) = some (pairs.map fun p => p.1, root) := by
  induction pairs with
  | nil => rfl
  | cons p pairs ih =>
    obtain ⟨hp, hpairs⟩ := List.forall_mem_cons.1 h
    have hne := ne_nil_of_leadsTo hroot hp
    obtain ⟨w, hw⟩ := hp
    rw [List.flatMap_cons, treeWalk_path n root root p.2 _ p.1 w hw hne, ih hpairs]
    rfl

/-- The two ends of `TWALK` on a sequence of paths below an internal root: the symbols fit or they do not (R211, R236). -/
theorem exec_twalk_of_paths {s : State} {l r : NodeIdx} {v : Weight} {pairs : List (Byte × Code)}
    (hroot : s.node[s.root.toNat]? = some (.internal l r v)) (h : IsPathsOf s.node s.root s.bits pairs) :
    (Within s.caps.outCap pairs.length → exec .twalk s = .next { s with out := pairs.map fun p => p.1 }) ∧
    (¬ Within s.caps.outCap pairs.length → exec .twalk s = .next { s with out := [], err := 7#3 }) := by
  obtain ⟨hpairs, hbits⟩ := h
  have hne : s.node ≠ [] := List.ne_nil_of_mem (List.mem_of_getElem? hroot)
  have hwalk : treeWalk s.node s.root s.root s.bits = some (pairs.map fun p => p.1, s.root) := by
    rw [hbits, treeWalk_flatMap_paths hroot hpairs]
  simp only [exec, execTwalk, runTwalk, if_neg hne, hroot, hwalk, ne_eq, not_true_eq_false, if_false, List.length_map]
  exact outcome_commit_within _ _ _ _ _

/-! ### The walk of any bits -/

theorem IsPathsOf.cons {n : List Node} {root : NodeIdx} {b : Byte} {p d : Code} {pairs : List (Byte × Code)}
    (hp : LeadsTo n root p b) (h : IsPathsOf n root d pairs) : IsPathsOf n root (p ++ d) ((b, p) :: pairs) := by
  obtain ⟨hpairs, rfl⟩ := h
  exact ⟨List.forall_mem_cons.2 ⟨hp, hpairs⟩, rfl⟩

/-- The bits that led to the cursor and those walked from there are a sequence `d` of paths to leaves and the path `q` to the
last cursor. -/
theorem exists_paths_of_treeWalk {n : List Node} {root cur c : NodeIdx} {p bs : List Bit} {o : List Byte}
    (hcur : follow n root p = n[cur.toNat]?) (h : treeWalk n root cur bs = some (o, c)) :
    ∃ d q pairs, p ++ bs = d ++ q ∧ IsPathsOf n root d pairs ∧ follow n root q = n[c.toNat]? := by
  induction bs generalizing cur p o with
  | nil =>
    cases h
    exact ⟨[], p, [], List.append_nil p, ⟨by simp, rfl⟩, hcur⟩
  | cons b bs ih =>
    rw [treeWalk] at h
    cases hn : n[cur.toNat]? with
    | none => simp [hn] at h
    | some x =>
      cases x with
      | leaf sym w => simp [hn] at h
      | internal l r w =>
        simp only [hn] at h
        cases hnext : n[(if b then r else l).toNat]? with
        | none => simp [hnext] at h
        | some y =>
          have hstep : follow n root (p ++ [b]) = some y := follow_concat.2 ⟨l, r, w, hcur.trans hn, hnext⟩
          cases y with
          | internal l' r' w' =>
            simp only [hnext] at h
            rw [List.append_cons]
            exact ih (hstep.trans hnext.symm) h
          | leaf sym v =>
            simp only [hnext] at h
            cases hrest : treeWalk n root root bs with
            | none => simp [hrest] at h
            | some oc =>
              obtain ⟨o', c'⟩ := oc
              rw [hrest] at h
              cases h
              obtain ⟨d, q, pairs, hbits, hpaths, hq⟩ := ih (p := []) rfl hrest
              rw [List.nil_append] at hbits
              exact ⟨p ++ [b] ++ d, q, (sym, p ++ [b]) :: pairs, by rw [hbits]; simp, hpaths.cons ⟨v, hstep⟩, hq⟩

/-- Where the bits are no sequence of paths, the last cursor is not the root, since only the empty path leads to the root
(R213). -/
theorem exec_twalk_of_no_paths {s : State} {k : Nat} {l r : NodeIdx} {v : Weight} (htree : FullTree k s.node s.root)
    (hsyms : (leafSyms s.node).Nodup) (hroot : s.node[s.root.toNat]? = some (.internal l r v))
    (h : ∀ pairs, ¬ IsPathsOf s.node s.root s.bits pairs) :
    exec .twalk s = .next { s with out := [], err := 4#3 } := by
  have hne : s.node ≠ [] := List.ne_nil_of_mem (List.mem_of_getElem? hroot)
  obtain ⟨o, c, hwalk⟩ := treeWalk_isSome htree.childrenBelow ⟨l, r, v, hroot⟩ s.bits s.root ⟨l, r, v, hroot⟩
  obtain ⟨d, q, pairs, hbits, hpaths, hq⟩ := exists_paths_of_treeWalk (p := []) rfl hwalk
  have hc : c ≠ s.root := by
    rintro rfl
    have hnil : q = [] := path_unique htree hsyms (hq.trans hroot) hroot
    rw [List.nil_append, hnil, List.append_nil] at hbits
    exact h pairs (hbits ▸ hpaths)
  have hrun : runTwalk s = .raised (raise (dests .twalk) .truncatedStream s) := by
    simp only [runTwalk, if_neg hne, hroot, hwalk, if_pos hc]
  exact congrArg outcome hrun

/-! ### The statements -/

theorem exists_internal_root {s : State} (hinv : Inv s) (hne : s.node ≠ []) (hleaf : isLeafAt s.node s.root = false) :
    ∃ l r v, s.node[s.root.toNat]? = some (.internal l r v) := by
  have hroot := List.getElem?_eq_getElem (treeOk_nonempty hinv.tree hne).1
  generalize s.node[s.root.toNat]'_ = x at hroot
  cases x with
  | leaf sym w => simp [isLeafAt, hroot] at hleaf
  | internal l r v => exact ⟨l, r, v, hroot⟩

/-- Settles O53: the walk of a sequence of paths. -/
theorem twalkDecodesPathsFromTheRoot : Obligations.TwalkDecodesPathsFromTheRoot := by
  refine ⟨decode_encode .twalk, fun s pairs hinv hne hleaf hpaths => ?_⟩
  obtain ⟨l, r, v, hroot⟩ := exists_internal_root hinv hne hleaf
  exact exec_twalk_of_paths hroot hpaths

/-- Settles O54: the walk of bits that are no such sequence. -/
theorem twalkRaisesOnATruncatedStream : Obligations.TwalkRaisesOnATruncatedStream := by
  intro s hinv hne hleaf hno
  obtain ⟨l, r, v, hroot⟩ := exists_internal_root hinv hne hleaf
  obtain ⟨k, htree⟩ := fullTree_of_inv hinv hne
  exact exec_twalk_of_no_paths htree hinv.leaves hroot hno

end Sys2Proof.Machine
end

section
/-! PROOFS. `DECODE` (spec/47_decoder.md R215 to R218): its units in sequence, and its ends from the blob alone. -/

namespace Sys2Proof.Machine

/-! ### `DECODE` as its units in sequence -/

/-- A run that ends in the manner of R231 leaves `ERR` set where it raises. -/
theorem Result.DoneOrRaised.succeedsWith {P : State → Prop} {xs : List Exc} {i : Instr} {s : State} {r : Result}
    (hr : r.DoneOrRaised P (RaisedBy xs i s)) : r.SucceedsWith P := by
  cases r with
  | done t => exact hr
  | raised t => exact RaisedBy.err_ne_zero hr
  | stopped x => trivial

/-- What a composite begins with is the cleared state of the statements (spec/46_encoder.md R201). -/
theorem clearDerived_eq_withDerivedCleared (s : State) : clearDerived s = withDerivedCleared s := rfl

/-- The units of `DECODE` in order, from the cleared state (R215). -/
theorem exec_decode_eq (s : State) :
    exec .decode s = outcome (andThen (runHdrDec (withDerivedCleared s)) fun t =>
      andThen (runBuild t) fun u => andThen (runUnpack u) runTwalk) := by
  rw [exec, execDecode, runDecode, clearDerived_eq_withDerivedCleared, andThen_assoc, andThen_assoc]

/-- Settles O59: each unit of `DECODE` keeps `ERR` where it completes, and the next command is run on the state it leaves. -/
theorem decodeIsItsUnitCommandsInSequence : Obligations.DecodeIsItsUnitCommandsInSequence := by
  intro s hs
  rw [exec_decode_eq]
  symm
  refine execSeq_cons_eq_outcome hs rfl ((runHdrDec_ends _).succeedsWith.mono fun _ h => h.1.trans hs) fun s hs => ?_
  refine execSeq_cons_eq_outcome hs rfl ((runBuild_ends _).succeedsWith.mono fun _ h => h.trans hs) fun s hs => ?_
  refine execSeq_cons_eq_outcome hs rfl ((runUnpack_ends _).succeedsWith.mono fun _ h => h.1.trans hs) fun s hs => ?_
  exact execSeq_singleton hs

/-! ### The ends of `DECODE` with unbounded buffers -/

/-- A write to a buffer without a capacity happens (spec/00_scope.md R11). -/
theorem commit_of_unbounded (i : Instr) {cap : Cap} (h : cap = none) (n : Nat) (s t : State) :
    commit i (fits cap n) s t = .done t := by
  subst h
  rfl

/-- After `HDR_DEC` of a blob with the table `t`, the padding count `rem` and the payload `p`. -/
def parsedState (t : List FreqEntry) (rem : BitVec 3) (p : List Byte) (s : State) : State :=
  { withDerivedCleared s with ft := t, rem := rem, poff := BitVec.ofNat 10 (2 + 3 * t.length), pay := p }

/-- After `BUILD` too. -/
def openedState (t : List FreqEntry) (rem : BitVec 3) (p : List Byte) (s : State) : State :=
  { parsedState t rem p s with node := (buildTree t).1, root := (buildTree t).2 }

/-- After `UNPACK` too. -/
def unpackedState (t : List FreqEntry) (rem : BitVec 3) (p : List Byte) (s : State) : State :=
  { openedState t rem p s with bits := unpacked p rem.toNat }

/-- A bad header ends `DECODE` on the cleared state (R216). -/
theorem exec_decode_of_bad {s : State} (h : HeaderBad s.inBuf) :
    exec .decode s = .next { withDerivedCleared s with err := 3#3 } := by
  have hrun : runHdrDec (withDerivedCleared s) = .raised (raise (dests .hdrDec) .format (withDerivedCleared s)) :=
    runHdrDec_of_bad h
  rw [exec_decode_eq, hrun, andThen_raised, outcome_raised]
  rfl

/-- A good blob leaves `UNPACK` and `TWALK` to run on the opened state. -/
theorem exec_decode_of_good {s : State} {n r : Byte} {body p : List Byte} {t : List FreqEntry}
    (hcaps : s.caps = Caps.unbounded) (hin : s.inBuf = n :: r :: body) (h : HeaderGood n r body)
    (ht : parseEntries n.toNat body = t) (hp : s.inBuf.drop (2 + 3 * n.toNat) = p) :
    exec .decode s = outcome (andThen (runUnpack (openedState t (r.setWidth 3) p s)) runTwalk) := by
  have hlen : t.length = n.toNat := ht ▸ length_parseEntries _ _ h.long
  have hhdr : runHdrDec (withDerivedCleared s) = .done (parsedState t (r.setWidth 3) p s) := by
    have hrun := runHdrDec_of_good (s := withDerivedCleared s) hin h ht hp
    rw [← hlen] at hrun
    exact hrun.trans (commit_of_unbounded _ (congrArg Caps.payCap hcaps) _ _ _)
  have hbuild : runBuild (parsedState t (r.setWidth 3) p s) = .done (openedState t (r.setWidth 3) p s) :=
    if_neg (ht ▸ h.entries_ne_nil)
  rw [exec_decode_eq, hhdr, andThen_done, hbuild, andThen_done]

/-- With more padding than payload bits `UNPACK` ends `DECODE` (R216; spec/45_bit_packer.md R190). -/
theorem outcome_unpack_to_twalk_of_lt {t : List FreqEntry} {rem : BitVec 3} {p : List Byte} (s : State)
    (h : 8 * p.length < rem.toNat) :
    outcome (andThen (runUnpack (openedState t rem p s)) runTwalk) = .next { openedState t rem p s with err := 3#3 } := by
  have hrun : runUnpack (openedState t rem p s) = .raised { openedState t rem p s with err := 3#3 } := if_pos h
  rw [hrun, andThen_raised, outcome_raised]

/-- Otherwise the end of `DECODE` is that of `TWALK`. -/
theorem outcome_unpack_to_twalk_of_le {t : List FreqEntry} {rem : BitVec 3} {p : List Byte} {s : State}
    (hcaps : s.caps = Caps.unbounded) (h : rem.toNat ≤ 8 * p.length) :
    outcome (andThen (runUnpack (openedState t rem p s)) runTwalk) = exec .twalk (unpackedState t rem p s) := by
  have hrun : runUnpack (openedState t rem p s) = .done (unpackedState t rem p s) :=
    (if_neg (Nat.not_lt.2 h)).trans (commit_of_unbounded _ (congrArg Caps.bitsCap hcaps) _ _ _)
  rw [hrun, andThen_done, exec, execTwalk]

/-- `DECODE` of a header followed by a payload that holds its padding. -/
theorem exec_decode_of_table {s : State} {t : List FreqEntry} {rem : BitVec 3} {p : List Byte}
    (hcaps : s.caps = Caps.unbounded) (ht : TableOk t) (hne : t ≠ []) (hin : s.inBuf = headerBytes t rem ++ p)
    (hle : rem.toNat ≤ 8 * p.length) : exec .decode s = exec .twalk (unpackedState t rem p s) := by
  have hn := toNat_ofNat_length ht.1
  have htable : parseEntries (BitVec.ofNat 8 t.length).toNat (t.flatMap entryBytes ++ p) = t := by
    rw [hn, parseEntries_flatMap]
  have hpay : s.inBuf.drop (2 + 3 * (BitVec.ofNat 8 t.length).toNat) = p := by
    rw [hin, hn, ← length_headerBytes t rem, List.drop_left]
  have hrem : (rem.setWidth 8).setWidth 3 = rem := by simp
  rw [exec_decode_of_good hcaps hin (headerGood_of_table ht hne rem p) htable hpay, hrem,
    outcome_unpack_to_twalk_of_le hcaps hle]

/-! ### `TWALK` on the tree of the header's table -/

/-- The tree of one entry is its leaf (R212; spec/42_tree_builder.md R146). -/
theorem exec_twalk_of_one_entry (e : FreqEntry) (rem : BitVec 3) (p : List Byte) {s : State}
    (hcaps : s.caps = Caps.unbounded) :
    exec .twalk (unpackedState [e] rem p s) =
      .next { unpackedState [e] rem p s with out := List.replicate (unpacked p rem.toNat).length e.sym } :=
  (exec_twalk_of_leaf_root (w := e.cnt.setWidth 24) rfl).1 (within_of_unbounded (congrArg Caps.outCap hcaps) _)

/-- The root of a tree of two or more leaves is internal. -/
theorem FullTree.exists_internal_root {k : Nat} {n : List Node} {root : NodeIdx} (h : FullTree k n root) (hk : k ≠ 1) :
    ∃ l r v, n[root.toNat]? = some (.internal l r v) := by
  have hsize := h.size
  have hlast := h.root_last
  have hpos := h.leaves_pos
  have hroot := List.getElem?_eq_getElem (show root.toNat < n.length by omega)
  obtain ⟨l, r, v, hx⟩ := h.internal_of_le hroot (by omega)
  exact ⟨l, r, v, hroot.trans (congrArg some hx)⟩

/-- The tree of more entries has an internal root (R211, R213). -/
theorem exec_twalk_of_more_entries {t : List FreqEntry} (ht : TableOk t) (hne : t ≠ []) (hlen : t.length ≠ 1)
    (rem : BitVec 3) (p : List Byte) {s : State} (hcaps : s.caps = Caps.unbounded) :
    (∀ pairs, IsPathsOf (buildTree t).1 (buildTree t).2 (unpacked p rem.toNat) pairs →
      exec .twalk (unpackedState t rem p s) = .next { unpackedState t rem p s with out := pairs.map fun x => x.1 }) ∧
    ((∀ pairs, ¬ IsPathsOf (buildTree t).1 (buildTree t).2 (unpacked p rem.toNat) pairs) →
      exec .twalk (unpackedState t rem p s) = .next { unpackedState t rem p s with err := 4#3 }) := by
  have htree := fullTree_buildTree hne ht.1
  have hsyms : (leafSyms (buildTree t).1).Nodup := leafSyms_buildTree hne ▸ ht.2
  obtain ⟨_, _, _, hroot⟩ := htree.exists_internal_root hlen
  exact ⟨fun pairs hpaths => (exec_twalk_of_paths (s := unpackedState t rem p s) hroot hpaths).1
      (within_of_unbounded (congrArg Caps.outCap hcaps) _),
    exec_twalk_of_no_paths (s := unpackedState t rem p s) htree hsyms hroot⟩

/-! ### The statements -/

/-- Settles O57: a header of one entry, and a payload that holds its padding. -/
theorem decodeOfAOneSymbolBlob : Obligations.DecodeOfAOneSymbolBlob := by
  refine ⟨decode_encode .decode, fun s sym cnt rem p hcaps hle hin => ⟨unpacked p rem.toNat, length_unpacked _ _, ?_⟩⟩
  have htable : TableOk [⟨sym, cnt⟩] := ⟨Nat.le_of_ble_eq_true rfl, List.nodup_singleton _⟩
  rw [exec_decode_of_table hcaps htable (List.cons_ne_nil _ _) hin hle]
  exact exec_twalk_of_one_entry ⟨sym, cnt⟩ rem p hcaps

/-- The table of a good header meets R35 (a). -/
theorem HeaderGood.tableOk {n r : Byte} {body : List Byte} (h : HeaderGood n r body) :
    TableOk (parseEntries n.toNat body) := by
  refine ⟨?_, h.distinct⟩
  rw [length_parseEntries _ _ h.long]
  exact Nat.le_of_lt_succ n.isLt

/-- The padding count of a good header fits in `REM` (R176 (d)). -/
theorem HeaderGood.toNat_rem {n r : Byte} {body : List Byte} (h : HeaderGood n r body) :
    (r.setWidth 3).toNat = r.toNat := by
  have := h.padding
  rw [BitVec.toNat_setWidth]
  omega

/-- Settles O58: on a good header `DECODE` is `UNPACK` and `TWALK` on the tree of the header's table. -/
theorem decodeEndsAsTheBlobSays : Obligations.DecodeEndsAsTheBlobSays := by
  refine fun s => ⟨exec_decode_of_bad, fun n r hcaps hgood hn hr => ?_⟩
  obtain ⟨n', r', body, hin, h⟩ := exists_headerGood hgood
  obtain rfl : n = n' := by simpa [hin] using hn.symm
  obtain rfl : r = r' := by simpa [hin] using hr.symm
  have hlen := length_parseEntries _ _ h.long
  have hne := h.entries_ne_nil
  have htable := h.tableOk
  have hheader := headerTable_parseEntries (r := r) h.long
  have hdecode := exec_decode_of_good hcaps hin h rfl rfl
  generalize parseEntries n.toNat body = ft at hlen hne htable hheader hdecode
  refine ⟨ft, (buildTree ft).1, hin ▸ hheader, arenaOf_buildTree hne htable.1, fun p root t hp hroot ht => ?_⟩
  obtain ⟨-, -, -, -, hlayout⟩ := buildTree_layout ft hne
  obtain rfl : root = (buildTree ft).2 := by rw [hroot, hlayout, hlen]
  obtain rfl : t = openedState ft (r.setWidth 3) p s := by rw [ht, ← hlen]; rfl
  rw [← hp] at hdecode
  rw [hdecode, ← h.toNat_rem]
  refine ⟨outcome_unpack_to_twalk_of_lt s, fun hle => ⟨_, unpackedBits_unpacked _ _, ?_⟩⟩
  rw [outcome_unpack_to_twalk_of_le hcaps hle]
  refine ⟨fun e he => ?_, fun hn1 => exec_twalk_of_more_entries htable hne (hlen ▸ hn1) _ p hcaps⟩
  subst he
  exact exec_twalk_of_one_entry e _ p hcaps

end Sys2Proof.Machine
end

section
/-! PROOFS. The round trip (spec/47_decoder.md R219): the protocol's run loads its input and runs the composite; the codes of
`ENCODE` are the paths of the tree, which `DECODE` builds again from the header, so that its walk gives the input back. -/

namespace Sys2Proof.Machine

/-! ### The run of the protocol -/

/-- The reset state with `b` in `IN`. -/
def loaded (b : List Byte) : State := { State.reset with inBuf := b }

theorem run_succ_of_step {M : Host.Core} {k : Nat} {s t : M.State} (h : M.step s = .next t) :
    M.run (k + 1) s = M.run k t := by
  rw [Host.Core.run, h]

theorem run_one (M : Host.Core) (s : M.State) : M.run 1 s = M.step s := by
  rw [Host.Core.run]
  cases M.step s <;> rfl

/-- A step that takes the word of a command runs it, where R115 lets it run. -/
theorem step_withHost_encode {i : Instr} {s : State} (hruns : i = .reset ∨ s.err = 0#3) (ws : List Word) :
    step (s.withHost (encode i :: ws)) = mapNext (State.withHost ws) (exec i s) := by
  rw [step_of_host_cons (withHost_host _ _)]
  exact (issue_of_runs (s := s.withHost ws) (decode_encode i) hruns).trans (exec_withHost i ws s)

/-- The run of a command's word and others is the run of the others from its next state. -/
theorem runWords_encode_cons {i : Instr} {s t : State} (hruns : i = .reset ∨ s.err = 0#3) (h : exec i s = .next t)
    (ws : List Word) : runWords (encode i :: ws) s = runWords ws t := by
  have hstep := step_withHost_encode hruns ws
  rw [h] at hstep
  exact run_succ_of_step (M := core) hstep

/-- The run of one command's word. -/
theorem runWords_encode {i : Instr} {s : State} (hruns : i = .reset ∨ s.err = 0#3) :
    runWords [encode i] s = mapNext (State.withHost []) (exec i s) :=
  (run_one core _).trans (step_withHost_encode hruns [])

/-- `IN_PUSH` of each byte loads the input, and the last word runs the composite. -/
theorem runWords_pushes (i : Instr) (input b : List Byte) :
    runWords (input.map (fun x => encode (.inPush x)) ++ [encode i]) (loaded b) = exec i (loaded (b ++ input)) := by
  induction input generalizing b with
  | nil =>
    rw [List.append_nil]
    exact (runWords_encode (.inr rfl)).trans (exec_withHost i [] (loaded b)).symm
  | cons x input ih =>
    have hpush : exec (.inPush x) (loaded b) = .next (loaded (b ++ [x])) := rfl
    rw [List.append_cons b, ← ih]
    exact runWords_encode_cons (.inr rfl) hpush _

/-- The run of the protocol of R263 is the composite on the loaded input. -/
theorem runWords_protocolWords (input : List Byte) (i : Instr) :
    runWords (protocolWords input i) State.reset = exec i (loaded input) :=
  (runWords_encode_cons (i := .reset) (t := loaded []) (.inl rfl) rfl _).trans (runWords_pushes i input [])

/-! ### The codes of `ENCODE` -/

/-- `c` is the code table of the tree: the one code 0 under a leaf root (R162), the paths from an internal root (R160). -/
def CodesOf (n : List Node) (root : NodeIdx) (c : CodeTable) : Prop :=
  (∃ sym w, n[root.toNat]? = some (.leaf sym w) ∧ c = setCode noCodes sym [false]) ∨
    (∃ l r w, n[root.toNat]? = some (.internal l r w)) ∧ ∀ b p, codeOf c b = some p ↔ LeadsTo n root p b

/-- What the units of `ENCODE` after `WALK` write: neither the tree nor the codes. -/
def writtenAfterWalk : List Elem := [.bits, .pay, .rem, .hdr, .out, .err]

theorem runXlate_to_blob_frame (s : State) :
    (andThen (andThen (andThen (runXlate s) runPack) runHdrEnc) runBlob).Leaves
      (UnchangedOutside writtenAfterWalk s) :=
  (runXlate_frame _).mono (fun _ h => UnchangedOutside.mono h (by decide))
    |>.chain_frame runPack_frame (by decide)
    |>.chain_frame runHdrEnc_frame (by decide)
    |>.chain_frame runBlob_frame (by decide)

/-- `WALK` of the input's tree completes with its code table. -/
theorem exists_walkedState {s : State} (hs : s.err = 0#3) (hvalid : ValidInput s.inBuf) :
    ∃ c, runWalk (builtState s) = .done (walkedState c s) ∧ CodesOf (builtState s).node (builtState s).root c := by
  have hne := frequencies_ne_nil hvalid
  have htree := fullTree_buildTree hne (length_frequencies_le hvalid)
  have hinv : Inv (builtState s) :=
    { inv_clearDerived (s := s) with
      table := ⟨length_frequencies_le hvalid, by simpa [builtState, countedState] using nodup_eraseDups s.inBuf⟩
      tree := (treeOk_iff _ _).2 (.inr ⟨_, htree⟩)
      leaves := by simpa [builtState, leafSyms_buildTree hne] using nodup_eraseDups s.inBuf }
  have hnode : (builtState s).node ≠ [] :=
    List.ne_nil_of_length_pos (Nat.zero_lt_of_lt (root_lt_length_buildTree hne))
  obtain ⟨c, hwalk, hcodes⟩ := exec_walk_of_inv hinv hnode
  refine ⟨c, ((outcome_next_iff _ _).1 hwalk).resolve_right fun hraised => ?_, hcodes⟩
  have herr := runWalk_succeedsWith (builtState s)
  rw [hraised] at herr
  exact herr hs

/-- The codes that `ENCODE` leaves are those of the input's tree. -/
theorem codesOf_of_exec_encode {s t : State} (hs : s.err = 0#3) (hvalid : ValidInput s.inBuf)
    (h : exec .encode s = .next t) :
    CodesOf (buildTree (frequencies s.inBuf)).1 (buildTree (frequencies s.inBuf)).2 t.ct := by
  have hcount : runCount (withDerivedCleared s) = .done (countedState s) := runCount_of_valid hvalid
  have hbuild : runBuild (countedState s) = .done (builtState s) := if_neg (frequencies_ne_nil hvalid)
  obtain ⟨c, hwalk, hcodes⟩ := exists_walkedState hs hvalid
  rw [exec, execEncode, runEncode, clearDerived_eq_withDerivedCleared, hcount, andThen_done, hbuild, andThen_done, hwalk,
    andThen_done] at h
  have hct : c = t.ct := ((runXlate_to_blob_frame _).of_outcome h).1 .ct (by decide)
  exact hct ▸ hcodes

/-! ### The walk of a translation -/

theorem codeOf_of_translate {c : CodeTable} {l : List Byte} {b : List Bit} (h : translate c l = some b) {x : Byte}
    (hx : x ∈ l) : codeOf c x = some ((codeOf c x).getD []) := by
  cases hcode : codeOf c x with
  | none => cases ((translate_eq_none_iff c l).2 ⟨x, hx, hcode⟩).symm.trans h
  | some p => rfl

/-- `TWALK` undoes a translation by the codes of its tree. -/
theorem exec_twalk_of_translate {s : State} {c : CodeTable} {input : List Byte} (hcap : s.caps.outCap = none)
    (hcodes : CodesOf s.node s.root c) (h : translate c input = some s.bits) :
    exec .twalk s = .next { s with out := input } := by
  have hcode : ∀ x ∈ input, codeOf c x = some ((codeOf c x).getD []) := fun x hx => codeOf_of_translate h hx
  obtain ⟨sym, w, hroot, rfl⟩ | ⟨⟨l, r, w, hroot⟩, hpaths⟩ := hcodes
  · have hsym : input = List.replicate input.length sym :=
      List.eq_replicate_iff.2 ⟨rfl, fun x hx => (codeOf_single_eq_some.1 (hcode x hx)).1⟩
    have hbits : s.bits = input.flatMap fun _ => [false] := by
      refine Option.some.inj (h.symm.trans (translate_eq_flatMap _ _ _ fun x hx => ?_))
      rw [hcode x hx, (codeOf_single_eq_some.1 (hcode x hx)).2]
    have hlen : s.bits.length = input.length := by simp [hbits]
    rw [(exec_twalk_of_leaf_root hroot).1 (within_of_unbounded hcap _), hlen, ← hsym]
  · have hdecodes : IsPathsOf s.node s.root s.bits (input.map fun x => (x, (codeOf c x).getD [])) := by
      refine ⟨List.forall_mem_map.2 fun x hx => (hpaths _ _).1 (hcode x hx), ?_⟩
      rw [List.flatMap_map]
      exact Option.some.inj (h.symm.trans (translate_eq_flatMap _ _ _ hcode))
    rw [(exec_twalk_of_paths hroot hdecodes).1 (within_of_unbounded hcap _), List.map_map]
    simp [Function.comp_def]

/-! ### The round trip -/

/-- `ENCODE` from reset succeeds exactly on the accepted inputs (spec/46_encoder.md R203). -/
theorem err_of_exec_encode_loaded {input : List Byte} {t : State} (h : exec .encode (loaded input) = .next t) :
    t.err = 0#3 ↔ ValidInput input := by
  refine ⟨fun herr => ((runEncode_succeedsWith _).of_outcome h herr).valid, fun hvalid => ?_⟩
  obtain ⟨c, b, hend⟩ := exists_encodeEnd hvalid
  cases (hend (loaded input) rfl).symm.trans h
  rfl

/-- `DECODE` of the blob of an accepted input gives the input. -/
theorem exec_decode_of_exec_encode {input : List Byte} {t : State} (hvalid : ValidInput input)
    (h : exec .encode (loaded input) = .next t) :
    ∃ u, exec .decode (loaded t.out) = .next u ∧ u.err = 0#3 ∧ u.out = input := by
  have hencoded : Encoded input t := (runEncode_succeedsWith _).of_outcome h ((err_of_exec_encode_loaded h).2 hvalid)
  have hcodes := codesOf_of_exec_encode rfl hvalid h
  have htable : TableOk (frequencies input) :=
    ⟨length_frequencies_le hvalid, by rw [syms_frequencies]; exact nodup_eraseDups input⟩
  have hin : (loaded t.out).inBuf =
      headerBytes (frequencies input) (BitVec.ofNat 3 (padCount t.bits.length)) ++ groupBytes (padded t.bits) := by
    rw [← hencoded.rem, ← hencoded.pay, ← hencoded.ft, ← hencoded.hdr]
    exact hencoded.out
  have hrem := toNat_ofNat_padCount t.bits.length
  have hle : (BitVec.ofNat 3 (padCount t.bits.length)).toNat ≤ 8 * (groupBytes (padded t.bits)).length := by
    rw [hrem, eight_mul_length_groupBytes_padded]
    exact Nat.le_add_left _ _
  have hunpacked : unpacked (groupBytes (padded t.bits)) (BitVec.ofNat 3 (padCount t.bits.length)).toNat = t.bits := by
    rw [hrem, unpacked_groupBytes_padded]
  rw [exec_decode_of_table rfl htable (frequencies_ne_nil hvalid) hin hle]
  refine ⟨_, exec_twalk_of_translate rfl hcodes ?_, rfl, rfl⟩
  exact hencoded.bits.trans (congrArg some hunpacked.symm)

/-- Settles O60: the two runs are `ENCODE` and `DECODE` on what they load. -/
theorem decodeOfEncodeIsTheInput : Obligations.DecodeOfEncodeIsTheInput := by
  intro input
  obtain ⟨t, ht⟩ := (runEncode_endsIn (loaded input)).outcome_next
  refine ⟨t, (runWords_protocolWords input .encode).trans ht, err_of_exec_encode_loaded ht, fun hvalid => ?_⟩
  rw [runWords_protocolWords]
  exact exec_decode_of_exec_encode hvalid ht

end Sys2Proof.Machine
end
